-- ==== Sys2Proof/Word.lean ====
section
/-! DEFINITION. The words and bytes of the block (spec 00_scope.md R10). -/

namespace Sys2Proof

/-- A word, "an opaque 64-bit unsigned value" (R15); also a stream id (R261) and a memory address (R100). -/
abbrev Word := BitVec 64

/-- A byte of memory or of a block (R45, R100). -/
abbrev Byte := BitVec 8

/-- A command word, as it stands on the `CMD` port (R130). -/
abbrev CmdWord := BitVec 32

/-- `M64`, the all-ones word (R10). -/
abbrev m64 : Word := 0xFFFFFFFFFFFFFFFF#64

end Sys2Proof
end

