-- ==== Sys2Proof/Syntax.lean ====
section
/-! DEFINITION. The commands: one constructor per row of spec/opcode_table.json (spec 30_encoding.md R134). -/

namespace Sys2Proof

/-- The two link directions (R131). -/
inductive Dir where
  /-- `DIR = 0`, the uplink. -/
  | up
  /-- `DIR = 1`, the downlink. -/
  | dn
deriving DecidableEq, Repr

/-- The commands of R134. Each carries the 16 bits of its `IDX` field, the ignored ones of `NOP` and
`LINK_STEP` too (R145), so that a command determines its word; a link command carries its `DIR`. -/
inductive Instr where
  | nop (idx : BitVec 16)
  | pred (idx : BitVec 16)
  | matchPat (idx : BitVec 16)
  | compress (idx : BitVec 16)
  | profRead (idx : BitVec 16)
  | profGlobal (idx : BitVec 16)
  | catRead (idx : BitVec 16)
  | winRead (idx : BitVec 16)
  | linkPush (d : Dir) (idx : BitVec 16)
  | linkStep (d : Dir) (idx : BitVec 16)
  | linkPop (d : Dir) (idx : BitVec 16)
  | linkStat (d : Dir) (idx : BitVec 16)
  | linkSrcstat (d : Dir) (idx : BitVec 16)
deriving DecidableEq, Repr

end Sys2Proof
end

