-- ==== Sys2Proof/Decode.lean ====
section
/-! DEFINITION. Decoding and encoding of command words (spec 30_encoding.md R130 to R134, R144). -/

namespace Sys2Proof

/-- Why a command word is illegal (R144). -/
inductive Illegal where
  /-- (a) `OPC` is not in R134. -/
  | opcodeUnassigned
  /-- (b) `RSV != 0`. -/
  | reservedNotZero
  /-- (c) `DIR = 1` and `OPC` is not a link command. -/
  | dirOnNonLink
deriving DecidableEq, Repr

/-- How an opcode's command is made from its fields. -/
inductive Form where
  /-- `DIR` must be 0 (R131). -/
  | noDir (mk : BitVec 16 → Instr)
  /-- `DIR` picks the link (R131). -/
  | withDir (mk : Dir → BitVec 16 → Instr)

/-- The opcode map (R134). -/
def formOf (opc : Nat) : Option Form :=
  match opc with
  | 0x00 => some (.noDir .nop)
  | 0x01 => some (.noDir .pred)
  | 0x02 => some (.noDir .matchPat)
  | 0x03 => some (.noDir .compress)
  | 0x05 => some (.noDir .profRead)
  | 0x06 => some (.noDir .profGlobal)
  | 0x07 => some (.noDir .catRead)
  | 0x08 => some (.noDir .winRead)
  | 0x10 => some (.withDir .linkPush)
  | 0x11 => some (.withDir .linkStep)
  | 0x12 => some (.withDir .linkPop)
  | 0x13 => some (.withDir .linkStat)
  | 0x14 => some (.withDir .linkSrcstat)
  | _ => none

/-- `OPC`, bits 31:24 (R130). -/
def opcField (w : CmdWord) : BitVec 8 := w.extractLsb' 24 8

/-- `DIR`, bit 23 (R130). -/
def dirField (w : CmdWord) : Bool := w.getLsbD 23

/-- `RSV`, bits 22:16 (R130). -/
def rsvField (w : CmdWord) : BitVec 7 := w.extractLsb' 16 7

/-- `IDX`, bits 15:0 (R130). -/
def idxField (w : CmdWord) : BitVec 16 := w.extractLsb' 0 16

/-- The direction `DIR` picks (R131). -/
def dirOfBit (b : Bool) : Dir := if b then .dn else .up

/-- The command a word stands for, or why it is illegal (R130, R144). -/
def decode (w : CmdWord) : Except Illegal Instr :=
  match formOf (opcField w).toNat with
  | none => .error .opcodeUnassigned
  | some form =>
    if rsvField w ≠ 0 then .error .reservedNotZero
    else
      match form with
      | .noDir mk => if dirField w then .error .dirOnNonLink else .ok (mk (idxField w))
      | .withDir mk => .ok (mk (dirOfBit (dirField w)) (idxField w))

/-- `OPC` of a command (R134). -/
def opcodeOf : Instr → BitVec 8
  | .nop _ => 0x00
  | .pred _ => 0x01
  | .matchPat _ => 0x02
  | .compress _ => 0x03
  | .profRead _ => 0x05
  | .profGlobal _ => 0x06
  | .catRead _ => 0x07
  | .winRead _ => 0x08
  | .linkPush _ _ => 0x10
  | .linkStep _ _ => 0x11
  | .linkPop _ _ => 0x12
  | .linkStat _ _ => 0x13
  | .linkSrcstat _ _ => 0x14

/-- The `DIR` bit of a direction (R131). -/
def bitOfDir : Dir → Bool
  | .up => false
  | .dn => true

/-- The `DIR` bit of a command; 0 for a command that does not use it (R131). -/
def dirBitOf : Instr → Bool
  | .nop _ | .pred _ | .matchPat _ | .compress _ | .profRead _ | .profGlobal _ | .catRead _ | .winRead _ => false
  | .linkPush d _ | .linkStep d _ | .linkPop d _ | .linkStat d _ | .linkSrcstat d _ => bitOfDir d

/-- The `IDX` field of a command (R133). -/
def idxOf : Instr → BitVec 16
  | .nop idx | .pred idx | .matchPat idx | .compress idx | .profRead idx | .profGlobal idx | .catRead idx
  | .winRead idx => idx
  | .linkPush _ idx | .linkStep _ idx | .linkPop _ idx | .linkStat _ idx | .linkSrcstat _ idx => idx

/-- The word of a command: `OPC`, `DIR`, seven zero bits of `RSV`, `IDX` (R130). -/
def encode (i : Instr) : CmdWord := opcodeOf i ++ BitVec.ofBool (dirBitOf i) ++ 0#7 ++ idxOf i

/-- What the decoder reads from an instruction of the opcode table whose bits are `w`. A command is one 32-bit word
on the `CMD` port, whatever the number of bits (R130). -/
def decodeTableWord (_nbits w : Nat) : Option Instr :=
  match decode (BitVec.ofNat 32 w) with
  | .ok i => some i
  | .error _ => none

end Sys2Proof
end

