-- ==== Sys2Proof/Config.lean ====
section
/-! DEFINITION. What a configuration of the block is: the parameters of spec 00_scope.md R8. Their default values
and the check `valid_config` are in Sys2Proof/Machine/Parameters.lean. -/

namespace Sys2Proof

/-- The predicates of spec 40_classifier.md R200 to R204. -/
inductive Predicate where
  /-- `ZERO` (R200). -/
  | zero
  /-- `ONES` (R201). -/
  | ones
  /-- `REPBYTE` (R202). -/
  | repByte
  /-- `ONEHOT` (R203). -/
  | oneHot
  /-- `SE_k` (R204), `k` its boundary. -/
  | signExt (k : Nat)
deriving DecidableEq, Repr

/-- One entry of `PRED_LIST` (R205): a predicate and its `data_size` in bits. -/
structure PredEntry where
  pred : Predicate
  dataSize : Nat
deriving DecidableEq, Repr

/-- The scheduling policy of one direction, `POLICY_d` (R3). -/
inductive Policy where
  | plain
  | packed
  | unpacked
deriving DecidableEq, Repr

/-- The parameters whose value R8 fixes (the rows marked *source*, and `RATE_FRAC_BITS`). Reset checks them (R471,
first condition); the rules use the fixed values themselves (log entry 5). -/
structure SourceLiterals where
  wordBits : Nat
  blockWords : Nat
  blockBytes : Nat
  maxLevel : Nat
  escapeBits : Nat
  flitBits : Nat
  shortDepth : Nat
  longDepth : Nat
  rateFracBits : Nat
deriving DecidableEq, Repr

/-- The parameters of R8. `none` for `MAX_STREAMS` and `COMPL_DEPTH` is "unbounded". -/
structure Params where
  literals : SourceLiterals
  /-- `HIST_DEPTH`, written `D`. -/
  histDepth : Nat
  predList : List PredEntry
  seWidths : List Nat
  plainDepth : Nat
  nSrc : Nat
  nDst : Nat
  /-- `DQ_LATENCY`, written `L`. -/
  dqLatency : Nat
  dqCapacity : Nat
  /-- `COMP_LATENCY`, written `CL`. -/
  compLatency : Nat
  tsqCapacity : Nat
  policyUp : Policy
  policyDn : Policy
  maxStreams : Option Nat
  complDepth : Option Nat
deriving DecidableEq, Repr

end Sys2Proof
end

