-- ==== Sys2Proof/Machine/Parameters.lean ====
section
/-! DEFINITION. The arithmetic of spec 00_scope.md R11, the fixed sizes and defaults of R8, the derived quantities,
and `valid_config` of spec 70_reset_and_hazards.md R471. -/

namespace Sys2Proof.Machine

/-- `ceil_div(a, b)` (R11). -/
def ceilDiv (a b : Nat) : Nat := (a + b - 1) / b

/-- `roundup(a, b)` (R11). -/
def roundUp (a b : Nat) : Nat := b * ceilDiv a b

/-- `ceil_log2(n)`: the least `r` with `2^r >= n` (R11). -/
def ceilLog2 (n : Nat) : Nat := if n ≤ 1 then 0 else Nat.log2 (n - 1) + 1

/-! The values R8 marks as fixed. -/

/-- `BLOCK_WORDS`. -/
abbrev blockWordCount : Nat := 16
/-- `BLOCK_BYTES`. -/
abbrev blockBytes : Nat := 128
/-- `MAX_LEVEL`. -/
abbrev maxLevel : Nat := 3
/-- `ESCAPE_BITS`. -/
abbrev escapeBits : Nat := 65
/-- `FLIT_BITS`, written `F`. -/
abbrev flitBits : Nat := 128
/-- `SHORT_DEPTH`. -/
abbrev shortDepth : Nat := 4
/-- `RATE_FRAC_BITS`. -/
abbrev rateFracBits : Nat := 16

/-- The source's literals, as R8 and R471 give them. -/
def sourceLiterals : SourceLiterals :=
  { wordBits := 64, blockWords := blockWordCount, blockBytes := blockBytes, maxLevel := maxLevel,
    escapeBits := escapeBits, flitBits := flitBits, shortDepth := shortDepth, longDepth := 1,
    rateFracBits := rateFracBits }

/-- The default `PRED_LIST` (R205). -/
def defaultPredList : List PredEntry :=
  [⟨.zero, 2⟩, ⟨.ones, 3⟩, ⟨.repByte, 11⟩, ⟨.oneHot, 9⟩, ⟨.signExt 8, 11⟩, ⟨.signExt 16, 19⟩, ⟨.signExt 32, 35⟩]

/-- The defaults of R8. -/
def defaultParams : Params :=
  { literals := sourceLiterals, histDepth := 4, predList := defaultPredList, seWidths := [8, 16, 32],
    plainDepth := 4, nSrc := 2, nDst := 2, dqLatency := 4, dqCapacity := 4, compLatency := 0, tsqCapacity := 1,
    policyUp := .packed, policyDn := .packed, maxStreams := none, complDepth := none }

/-- `NPRED` (R8). -/
def nPred (p : Params) : Nat := p.predList.length

/-- `NPAT = 4 * NPRED` (R8, R206). -/
def nPat (p : Params) : Nat := 4 * nPred p

/-- `LB = ceil_log2(D)` (R8). -/
def historyBits (p : Params) : Nat := ceilLog2 p.histDepth

/-- `S = DQ_CAPACITY + L` (R52, R300). -/
def dqSlots (p : Params) : Nat := p.dqCapacity + p.dqLatency

/-- `T = TSQ_CAPACITY + CL` (R53, R306). -/
def tsqSlots (p : Params) : Nat := p.tsqCapacity + p.compLatency

/-- `POLICY_d` (R3, R340). -/
def policyOf (p : Params) : Dir → Policy
  | .up => p.policyUp
  | .dn => p.policyDn

/-- A capacity that is unbounded or at least 1 (R471). -/
def capacityValid : Option Nat → Bool
  | none => true
  | some n => 1 ≤ n

/-- A `PRED_LIST` entry is a predicate of R200 to R204, its boundary one of `SE_WIDTHS` (log entry 6), with
`1 <= data_size <= 65535 - 3 * LB` (R471). -/
def predEntryValid (p : Params) (e : PredEntry) : Bool :=
  1 ≤ e.dataSize && e.dataSize + maxLevel * historyBits p ≤ 65535 &&
    (match e.pred with
      | .signExt k => p.seWidths.contains k
      | .zero | .ones | .repByte | .oneHot => true)

/-- `valid_config()` (R471). The conditions `DQ_CAPACITY >= 0`, `CL >= 0` and the policies' range hold by type. -/
def validConfig (p : Params) : Bool :=
  p.literals == sourceLiterals &&
  (1 ≤ p.histDepth && p.histDepth ≤ 65535) &&
  (1 ≤ nPred p && nPred p ≤ 64) && p.predList.all (predEntryValid p) &&
  p.seWidths.all (fun k => 2 ≤ k && k ≤ 63) &&
  (1 ≤ p.nSrc && p.nSrc ≤ 65535) && (1 ≤ p.nDst && p.nDst ≤ 65535) &&
  (1 ≤ p.dqLatency && p.dqLatency ≤ 65535) &&
  1 ≤ p.tsqCapacity &&
  (1 ≤ p.plainDepth && p.plainDepth ≤ 255) &&
  capacityValid p.maxStreams && capacityValid p.complDepth

/-- A list or map of `n` elements is full: `n` equals its capacity (R260, R345). An unbounded one never is. -/
def atCapacity (n : Nat) : Option Nat → Bool
  | none => false
  | some c => n == c

end Sys2Proof.Machine
end

