-- ==== Sys2Proof/Machine/Types.lean ====
section
/-! DEFINITION. The records the block's state is built from (spec 10_state.md R41 to R58), and what the host drives
(R45, 44_system.md R422). All plain data. -/

namespace Sys2Proof.Machine

/-- The cause codes of spec 60_exceptions.md R431. -/
inductive Cause where
  /-- 0x00: the value of `CAUSE` while `FATAL = 0`. -/
  | none
  /-- 0x01. -/
  | badBlockSize
  /-- 0x02. -/
  | readyListFull
  /-- 0x03. -/
  | longListOverflow
  /-- 0x04: reserved for the out-of-scope line codecs, never raised. -/
  | rleUnrepresentable
  /-- 0x05: raised by reset only. -/
  | basePatternMissing
  /-- 0x06. -/
  | illegalCommand
  /-- 0x07. -/
  | badIndex
  /-- 0x08. -/
  | dqOverrun
  /-- 0x09. -/
  | streamTableFull
  /-- 0x0A. -/
  | completionFull
  /-- 0x0B: unreachable from commands (log entry 14). -/
  | tsqFull
  /-- 0x0C: unreachable from commands (log entry 14). -/
  | tsqEmpty
  /-- 0x0D: raised by reset only. -/
  | badConfig
deriving DecidableEq, Repr

/-- `STATUS` (R41) by its fields; its reserved bits hold nothing, and `statusWord` (Flags.lean) is the 32-bit
register the host reads (log entry 7). -/
structure Status where
  fatal : Bool
  cause : Cause
  resValid : Bool
deriving DecidableEq, Repr

/-- The `TYPE` of a payload (R57). -/
inductive PayloadType where
  | readRequest
  | writeRequest
  | readReply
  | writeAck
deriving DecidableEq, Repr

/-- A payload descriptor (R57). -/
structure Desc where
  tag : BitVec 32
  type : PayloadType
  size : BitVec 16
  addr : Word
  dst : BitVec 16
  sid : Word
deriving DecidableEq, Repr

/-- A flit (R58): the payload it belongs to, the head and the tail flag. -/
structure Flit where
  payload : Option Desc
  head : Bool
  tail : Bool
deriving DecidableEq, Repr

/-- One entry of `CAT` (R46). -/
structure CatEntry where
  id : BitVec 8
  pred : BitVec 8
  level : BitVec 2
  enc : BitVec 16
deriving DecidableEq, Repr

/-- A finite map from 64-bit keys (R12), as its pairs with keys strictly rising (log entry 15). -/
abbrev WordMap (α : Type) := List (Word × α)

/-- A stream record (R48). -/
structure StreamRecord where
  win : List Word
  words : Nat
  hits : List Nat
  esc : Nat
  escv : WordMap Nat
deriving DecidableEq, Repr

/-- The long slot of a source (R51). -/
inductive LongSlot where
  | empty
  | pending (p : Desc)
  | held
deriving DecidableEq, Repr

/-- The three ready lists of one source (R51), each FIFO oldest first. -/
structure ReadyLists where
  short : List Desc
  long : LongSlot
  plain : List Desc
deriving DecidableEq, Repr

/-- The head/tail-delayed queue `DQ` (R52). -/
structure DelayQueue where
  slot : List Flit
  rp : Nat
  wp : Nat
deriving DecidableEq, Repr

/-- An entry of the timestamp-checked queue (R53). -/
structure TsqEntry where
  payload : Desc
  size : Nat
  src : Nat
  time : Nat
deriving DecidableEq, Repr

/-- The timestamp-checked queue `TSQ` (R53); `none` is an empty slot of the ring. -/
structure TimestampQueue where
  entry : List (Option TsqEntry)
  rp : Nat
  wp : Nat
  n : Nat
deriving DecidableEq, Repr

/-- The counters of R55. -/
structure LinkStats where
  flitsTotal : Nat
  flitsReal : Nat
  flitsFiller : Nat
  pktsSingle : Nat
  pktsMulti : Nat
deriving DecidableEq, Repr

/-- `LINK[d]` (R50 to R55). -/
structure Link where
  acc : BitVec 16
  now : Nat
  rr : Nat
  crr : Nat
  cur : Option Desc
  nfl : Nat
  off : Nat
  left : Nat
  /-- `SHORT[s]`, `LONG[s]` and `PLAIN[s]` of every source `s`, source 0 first. -/
  ready : List ReadyLists
  dq : DelayQueue
  tsq : TimestampQueue
  /-- `COMPL[t]` of every destination `t`, destination 0 first. -/
  compl : List (List Desc)
  stats : LinkStats
deriving DecidableEq, Repr

/-- The block state of R40: "Nothing else is state". -/
structure Block where
  status : Status
  fatalCmd : CmdWord
  res : Word
  descOut : BitVec 256
  cat : List CatEntry
  streams : WordMap StreamRecord
  up : Link
  dn : Link
deriving DecidableEq, Repr

/-- What the host drives on the input ports of R45 when it presents a command. `blk` is the 128 bytes of `BLK`,
byte 0 first. -/
structure Ports where
  cmd : CmdWord
  a : Word
  b : Word
  blk : Vector Byte 128
  descIn : BitVec 256
  rate : BitVec 32
deriving DecidableEq, Repr

/-- One thing the host does to the block or to its memory (log entry 1). -/
inductive HostEvent where
  /-- The host presents a command on `CMD`, with these port values (R45, R422). -/
  | command (p : Ports)
  /-- The host asserts `RESET` with these parameters (R470, R474). -/
  | reset (p : Params)
  /-- The host writes one byte of the external memory (R107, R477). -/
  | memWrite (addr : Word) (byte : Byte)
deriving DecidableEq, Repr

/-- The contents of the external memory (R100, R102), in the canonical form of `memoryWf`. -/
abbrev Memory := List Host.Cell

end Sys2Proof.Machine
end

