-- ==== Sys2Proof/Machine/Catalog.lean ====
section
/-! DEFINITION. The word predicates, the patterns and the sorted catalog (spec 40_classifier.md R200 to R207, R217). -/

namespace Sys2Proof.Machine

/-- Whether a predicate holds of a word (R200 to R204; log entry 16 for `SE_k`). -/
def predHolds : Predicate → Word → Bool
  | .zero, w => w = 0
  | .ones, w => w = m64
  | .repByte, w => [1, 2, 3, 4, 5, 6, 7].all fun j => w.extractLsb' (8 * j) 8 = w.extractLsb' 0 8
  | .oneHot, w => w ≠ 0 && w &&& (w - 1) = 0
  | .signExt k, w => w = (w.setWidth k).signExtend 64

/-- The pattern of predicate `q` at level `L` (R206). -/
def patternOf (p : Params) (q : Nat) (e : PredEntry) (level : Nat) : CatEntry :=
  { id := BitVec.ofNat 8 (4 * q + level)
    pred := BitVec.ofNat 8 q
    level := BitVec.ofNat 2 level
    enc := BitVec.ofNat 16 (e.dataSize + level * historyBits p) }

/-- Every predicate registered at every level 0 to 3 (R206). -/
def patterns (p : Params) : List CatEntry :=
  p.predList.zipIdx.flatMap fun (e, q) => (List.range (maxLevel + 1)).map (patternOf p q e)

/-- The sort key's second component (R207): level 0 first. -/
def levelRank (e : CatEntry) : Nat := if e.level = 0 then 0 else 1

/-- `key(a) <= key(b)` (R207), lexicographic. -/
def entryLe (a b : CatEntry) : Bool :=
  if a.enc.toNat ≠ b.enc.toNat then a.enc.toNat < b.enc.toNat
  else if levelRank a ≠ levelRank b then levelRank a < levelRank b
  else a.id.toNat ≤ b.id.toNat

/-- `CAT` as reset builds it: every pattern, sorted ascending by key (R207). -/
def buildCatalog (p : Params) : List CatEntry :=
  (patterns p).insertionSort (fun a b => entryLe a b = true)

/-- `base_patterns_present(CAT)` (R217). -/
def basePatternsPresent (cat : List CatEntry) : Bool :=
  cat.all fun e => e.level = 0 || cat.any fun b => b.pred = e.pred && b.level = 0

end Sys2Proof.Machine
end

