-- ==== Sys2Proof/Machine/Operands.lean ====
section
/-! DEFINITION. Operand and result layouts (spec 30_encoding.md R136 to R143). -/

namespace Sys2Proof.Machine

/-- The code of a `TYPE` (R138). -/
def typeCode : PayloadType → BitVec 2
  | .readRequest => 0
  | .writeRequest => 1
  | .readReply => 2
  | .writeAck => 3

/-- The `TYPE` of a code (R138); all four codes are legal. -/
def typeOfCode (c : BitVec 2) : PayloadType :=
  if c = 0 then .readRequest else if c = 1 then .writeRequest else if c = 2 then .readReply else .writeAck

/-- The descriptor on `DESC_IN` (R137). Bits 255:194 are ignored. -/
def decodeDesc (v : BitVec 256) : Desc :=
  { addr := v.extractLsb' 0 64
    sid := v.extractLsb' 64 64
    tag := v.extractLsb' 128 32
    size := v.extractLsb' 160 16
    dst := v.extractLsb' 176 16
    type := typeOfCode (v.extractLsb' 192 2) }

/-- A descriptor on `DESC_OUT` (R137). Bits 255:194 are 0. -/
def encodeDesc (p : Desc) : BitVec 256 :=
  0#62 ++ typeCode p.type ++ p.dst ++ p.size ++ p.tag ++ p.sid ++ p.addr

/-- The class of a payload is long: it carries data (spec 43_link.md R341; log entry 16). -/
def isLong (p : Desc) : Bool :=
  match p.type with
  | .writeRequest => true
  | .readReply => true
  | .readRequest => false
  | .writeAck => false

/-- The direction class of a stream id: bit 63, 0 read and 1 write (R136). -/
def directionClass (sid : Word) : Bool := sid.getLsbD 63

/-- `KIND` of a profile selector: `IDX[15:14]` (R141). -/
def selectorKind (idx : BitVec 16) : Nat := (idx.extractLsb' 14 2).toNat

/-- `PID` of a profile selector: `IDX[7:0]` (R141). -/
def selectorPid (idx : BitVec 16) : Nat := (idx.extractLsb' 0 8).toNat

/-- `IDX[13:8]` of a profile selector, which must be 0 (R141). -/
def selectorReserved (idx : BitVec 16) : BitVec 6 := idx.extractLsb' 8 6

/-- The index checks of `PROF_READ` and `PROF_GLOBAL` (R269, R270). -/
def selectorValid (p : Params) (idx : BitVec 16) : Bool :=
  selectorReserved idx = 0 && !(selectorKind idx = 0 && nPat p ≤ selectorPid idx)

/-- The result of `CAT_READ` (R140). -/
def catEntryWord (e : CatEntry) : Word :=
  (e.pred ++ 0#6 ++ e.level ++ e.id ++ e.enc).setWidth 64

/-- The code of a long slot in `RES[9:8]` (R143). -/
def longSlotCode : LongSlot → BitVec 2
  | .empty => 0
  | .pending _ => 1
  | .held => 2

/-- The result of `LINK_SRCSTAT` (R143) for a source under a policy. -/
def occupancyWord (pol : Policy) (r : ReadyLists) : Word :=
  match pol with
  | .plain => 0#54 ++ 0#2 ++ BitVec.ofNat 8 r.plain.length
  | .packed => 0#54 ++ longSlotCode r.long ++ BitVec.ofNat 8 r.short.length
  | .unpacked => 0#54 ++ longSlotCode r.long ++ BitVec.ofNat 8 r.short.length

/-- The value `LINK_STAT` reads for a selector, `none` when it is out of range (R142). -/
def linkStatValue (l : Link) (sel : Nat) : Option Nat :=
  match sel with
  | 0 => some l.stats.flitsTotal
  | 1 => some l.stats.flitsReal
  | 2 => some l.stats.flitsFiller
  | 3 => some l.stats.pktsSingle
  | 4 => some l.stats.pktsMulti
  | 5 => some l.now
  | 6 => some l.left
  | 7 => some l.rr
  | 8 => some l.off
  | 9 => some l.acc.toNat
  | 10 => some l.crr
  | 11 => some l.nfl
  | 12 => some l.tsq.n
  | _ => none

end Sys2Proof.Machine
end

