-- ==== Sys2Proof/Machine/Flags.lean ====
section
/-! DEFINITION. `STATUS`: its fields, its 32-bit word, and what writes its flags (spec 10_state.md R41,
60_exceptions.md R431). -/

namespace Sys2Proof.Machine

/-- The cause codes (R431). -/
def causeCode : Cause → BitVec 8
  | .none => 0x00
  | .badBlockSize => 0x01
  | .readyListFull => 0x02
  | .longListOverflow => 0x03
  | .rleUnrepresentable => 0x04
  | .basePatternMissing => 0x05
  | .illegalCommand => 0x06
  | .badIndex => 0x07
  | .dqOverrun => 0x08
  | .streamTableFull => 0x09
  | .completionFull => 0x0A
  | .tsqFull => 0x0B
  | .tsqEmpty => 0x0C
  | .badConfig => 0x0D

/-- The 32-bit `STATUS` register (R41): bits 31:17 zero, `RES_VALID`, `CAUSE`, bits 7:1 zero, `FATAL`. -/
def statusWord (s : Status) : BitVec 32 :=
  0#15 ++ BitVec.ofBool s.resValid ++ causeCode s.cause ++ 0#7 ++ BitVec.ofBool s.fatal

/-- `STATUS` after a reset that passes its checks (R41, R473). -/
def statusReset : Status := { fatal := false, cause := .none, resValid := false }

/-- `STATUS` after `raise FATAL(cause)` (R430). -/
def statusFatal (c : Cause) : Status := { fatal := true, cause := c, resValid := false }

/-- `RES_VALID <- v` (R135); no other field of `STATUS` is written. -/
def setResValid (v : Bool) (s : Status) : Status := { s with resValid := v }

end Sys2Proof.Machine
end

