-- ==== Sys2Proof/Machine/Reset.lean ====
section
/-! DEFINITION. The reset values of the block and the reset sequence (spec 10_state.md R41 to R55,
70_reset_and_hazards.md R470 to R473). -/

namespace Sys2Proof.Machine

/-- A stream record as it is created (R49). -/
def streamInit (p : Params) : StreamRecord :=
  { win := m64 :: List.replicate (p.histDepth - 1) 0, words := 0, hits := List.replicate (nPat p) 0, esc := 0,
    escv := [] }

/-- The filler flit (R58). -/
def fillerFlit : Flit := { payload := none, head := false, tail := false }

/-- `DQ` at reset (R52, R300). -/
def dqInit (p : Params) : DelayQueue :=
  { slot := List.replicate (dqSlots p) fillerFlit, rp := 0, wp := p.dqLatency }

/-- `TSQ` at reset (R53, R306). -/
def tsqInit (p : Params) : TimestampQueue :=
  { entry := List.replicate (tsqSlots p) none, rp := 0, wp := 0, n := 0 }

/-- The ready lists of a source at reset (R51). -/
def readyInit : ReadyLists := { short := [], long := .empty, plain := [] }

/-- The counters at reset (R55). -/
def statsInit : LinkStats := { flitsTotal := 0, flitsReal := 0, flitsFiller := 0, pktsSingle := 0, pktsMulti := 0 }

/-- `LINK[d]` at reset (R50 to R55). -/
def linkInit (p : Params) : Link :=
  { acc := 0, now := 0, rr := 0, crr := 0, cur := none, nfl := 0, off := 0, left := 0,
    ready := List.replicate p.nSrc readyInit, dq := dqInit p, tsq := tsqInit p,
    compl := List.replicate p.nDst [], stats := statsInit }

/-- The block before reset's two checks: every register 0, no stream, both links at their reset values, no catalog
yet (R470). -/
def blockCleared (p : Params) : Block :=
  { status := statusReset, fatalCmd := 0, res := 0, descOut := 0, cat := [], streams := [],
    up := linkInit p, dn := linkInit p }

/-- The reset sequence for latched parameters (R470): `BAD_CONFIG` leaves `CAT` empty, `BASE_PATTERN_MISSING` leaves
the catalog built; either leaves `FATAL_CMD = 0` (R438, R472). -/
def resetBlock (p : Params) : Block :=
  if validConfig p then
    if basePatternsPresent (buildCatalog p) then { blockCleared p with cat := buildCatalog p }
    else { blockCleared p with cat := buildCatalog p, status := statusFatal .basePatternMissing }
  else { blockCleared p with status := statusFatal .badConfig }

/-- The input ports before the host has driven anything (log entry 2). -/
def portsIdle : Ports := { cmd := 0, a := 0, b := 0, blk := Vector.replicate 128 0, descIn := 0, rate := 0 }

end Sys2Proof.Machine
end

