-- ==== Sys2Proof/Machine/Storage.lean ====
section
/-! DEFINITION. Finite maps and the external memory: the state primitives of spec 00_scope.md R12 and the
memory-read port of spec 20_memory.md R100 to R103. -/

namespace Sys2Proof.Machine

/-! ## Finite maps (R12) -/

/-- `Mp.get(k)`. -/
def mapGet {α : Type} (m : WordMap α) (k : Word) : Option α :=
  match m with
  | [] => none
  | (k', v) :: r => if k' = k then some v else mapGet r k

/-- `Mp.set(k, v)`; it keeps the keys strictly rising. -/
def mapSet {α : Type} (m : WordMap α) (k : Word) (v : α) : WordMap α :=
  match m with
  | [] => [(k, v)]
  | (k', v') :: r =>
    if k.toNat < k'.toNat then (k, v) :: (k', v') :: r
    else if k = k' then (k, v) :: r
    else (k', v') :: mapSet r k v

/-- The canonical form of a finite map: keys strictly rising. -/
abbrev mapWf {α : Type} (m : WordMap α) : Prop := m.Pairwise (fun x y => x.1.toNat < y.1.toNat)

/-! ## The external memory (R100) -/

/-- The byte an address that is not listed reads as (log entry 4). -/
def unlistedByte : Byte := 0

/-- The byte at an address. -/
def readByte (m : Memory) (addr : Nat) : Byte :=
  match m with
  | [] => unlistedByte
  | (a, b) :: r => if a = addr then b else readByte r addr

/-- Write one byte. Writing what an unlisted address reads as removes the entry. -/
def writeByte (m : Memory) (addr : Nat) (byte : Byte) : Memory :=
  match m with
  | [] => if byte = unlistedByte then [] else [(addr, byte)]
  | (a, b) :: r =>
    if addr < a then (if byte = unlistedByte then (a, b) :: r else (addr, byte) :: (a, b) :: r)
    else if addr = a then (if byte = unlistedByte then r else (addr, byte) :: r)
    else (a, b) :: writeByte r addr byte

/-- The canonical form: addresses strictly rising and below 2^64, no entry equal to what an unlisted address
reads as. -/
abbrev memoryWf (m : Memory) : Prop :=
  m.Pairwise (fun x y => x.1 < y.1) ∧ ∀ c ∈ m, c.1 < 2 ^ 64 ∧ c.2 ≠ unlistedByte

/-- `MemRead(addr, n)` (R100): byte `j` is the byte at `addr + j` modulo 2^64. -/
def memRead (m : Memory) (addr : Word) (n : Nat) : List Byte :=
  (List.range n).map fun j => readByte m ((addr.toNat + j) % 2 ^ 64)

/-- `word[i]` of a block of bytes, little-endian (R103). -/
def blockWord (b : List Byte) (i : Nat) : Word :=
  BitVec.ofNat 64 (((List.range 8).map fun j => (b.getD (8 * i + j) 0).toNat * 2 ^ (8 * j)).sum)

/-- The 16 words of a block, word 0 first (R103). -/
def blockWords (b : List Byte) : List Word := (List.range blockWordCount).map (blockWord b)

end Sys2Proof.Machine
end

