-- ==== Sys2Proof/Machine/Matching.lean ====
section
/-! DEFINITION. The delta combinator, pattern matching, and the stream compressor's internal functions (spec
40_classifier.md R209 to R213, 41_stream_compressor.md R260 to R264). -/

namespace Sys2Proof.Machine

/-- The combinations of level `L` of a window (R209): the words at each set of `L` distinct positions. -/
def combinations : Nat → List Word → List (List Word)
  | 0, _ => [[]]
  | _ + 1, [] => []
  | n + 1, h :: rest => (combinations n rest).map (fun c => h :: c) ++ combinations (n + 1) rest

/-- `delta(w, S)` (R209). -/
def deltaWord (w : Word) (c : List Word) : Word := c.foldl (fun acc h => acc ^^^ h) w

/-- `match(p, WIN, w)` for a predicate at a level (R210). -/
def levelMatches (q : Predicate) (level : Nat) (win : List Word) (w : Word) : Bool :=
  if level = 0 then predHolds q w
  else (combinations level win).any fun c => predHolds q (deltaWord w c)

/-- `match(p, WIN, w)` for a catalog entry (R210). An entry whose `PRED` names no predicate, which no catalog of R206
holds, matches nothing (log entry 13). -/
def patternMatches (p : Params) (e : CatEntry) (win : List Word) (w : Word) : Bool :=
  match p.predList[e.pred.toNat]? with
  | none => false
  | some pe => levelMatches pe.pred e.level.toNat win w

/-- `classify(WIN, w)` (R213): the first entry of `CAT` that matches, `none` for `ESCAPE`. -/
def classify (p : Params) (cat : List CatEntry) (win : List Word) (w : Word) : Option CatEntry :=
  cat.find? fun e => patternMatches p e win w

/-- `account(st, w)` (R263): the cost, and the record with the classification counted. -/
def account (p : Params) (cat : List CatEntry) (st : StreamRecord) (w : Word) : Nat × StreamRecord :=
  match classify p cat st.win w with
  | some m =>
    (m.enc.toNat, { st with hits := st.hits.modify m.id.toNat (· + 1), words := st.words + 1 })
  | none =>
    (escapeBits,
      { st with
        esc := st.esc + 1
        escv := mapSet st.escv w ((mapGet st.escv w).getD 0 + 1)
        words := st.words + 1 })

/-- `push_history(st, w)` (R264): the oldest entry leaves, `w` becomes the newest. -/
def pushHistory (w : Word) (st : StreamRecord) : StreamRecord := { st with win := st.win.drop 1 ++ [w] }

/-- The loop of `compress_block` (R262): charge each word, then push it. -/
def compressWords (p : Params) (cat : List CatEntry) : List Word → StreamRecord → Nat × StreamRecord
  | [], st => (0, st)
  | w :: ws, st =>
    let charged := account p cat st w
    let rest := compressWords p cat ws (pushHistory w charged.2)
    (charged.1 + rest.1, rest.2)

/-- `lookup_or_create(sid)` (R260): the stream's record; the table gains an initial record only if there is room. -/
def lookupOrCreate (p : Params) (streams : WordMap StreamRecord) (sid : Word) : Except Cause StreamRecord :=
  match mapGet streams sid with
  | some st => .ok st
  | none => if atCapacity streams.length p.maxStreams then .error .streamTableFull else .ok (streamInit p)

/-- `compress_block(sid, b)` (R262): the bit length and the stream table after it. -/
def compressBlock (p : Params) (cat : List CatEntry) (streams : WordMap StreamRecord) (sid : Word) (b : List Byte) :
    Except Cause (Nat × WordMap StreamRecord) :=
  match lookupOrCreate p streams sid with
  | .error c => .error c
  | .ok st =>
    let done := compressWords p cat (blockWords b) st
    .ok (done.1, mapSet streams sid done.2)

/-- The window a read of stream `sid` sees (R215, R268): an absent stream reads as its initial record. -/
def windowOf (p : Params) (streams : WordMap StreamRecord) (sid : Word) : List Word :=
  match mapGet streams sid with
  | some st => st.win
  | none => (streamInit p).win

/-- The counter a profile selector reads from a record (R141, R269). -/
def profileCounter (idx : BitVec 16) (word : Word) (st : StreamRecord) : Nat :=
  match selectorKind idx with
  | 0 => st.hits.getD (selectorPid idx) 0
  | 1 => st.words
  | 2 => st.esc
  | _ => (mapGet st.escv word).getD 0

/-- The value `PROF_READ` reads for a stream (R269); an absent stream reads 0. -/
def profileValue (idx : BitVec 16) (word : Word) (streams : WordMap StreamRecord) (sid : Word) : Nat :=
  match mapGet streams sid with
  | some st => profileCounter idx word st
  | none => 0

/-- The sum `PROF_GLOBAL` reads: over every stream of one direction class (R270). -/
def profileSum (idx : BitVec 16) (word : Word) (streams : WordMap StreamRecord) (cls : Bool) : Nat :=
  ((streams.filter fun e => directionClass e.1 == cls).map fun e => profileCounter idx word e.2).sum

end Sys2Proof.Machine
end

