-- ==== Sys2Proof/Machine/State.lean ====
section
/-! DEFINITION. The machine's state: the block of spec 10_state.md R40, and beside it what the spec keeps outside the
block but a step reads: the latched parameters, the input ports, the external memory, and the host's coming actions. -/

namespace Sys2Proof.Machine

/-- The state of the machine. -/
structure State where
  /-- The parameters latched by the last reset (R8, R9, R470; log entry 3). -/
  params : Params
  /-- The block state of R40. -/
  block : Block
  /-- What the host drives on the input ports of R45; no state of the block (log entry 2). -/
  ports : Ports
  /-- The contents of the external memory (R100, R102; log entry 4). -/
  mem : Memory
  /-- What the host does next, oldest first (log entry 1). -/
  inbox : List HostEvent
deriving DecidableEq, Repr

/-- The stops of the machine: none. Every error of spec 60_exceptions.md is a next state (the sticky fatal state),
every command completes (44_system.md R423), every address may be read (20_memory.md R102, R108). So this type is
closed and empty, nothing raises it, and it is neither safe nor unsafe (log entry 19). -/
inductive Fault where
deriving DecidableEq, Repr

/-- The refusals of the machine. -/
inductive Refusal where
  /-- Raised by an arm of `exec` whose instruction has no meaning yet; no arm of this model raises it. Safe: it stops
  where the block would go on. -/
  | notModelled (mnemonic : String)
deriving DecidableEq, Repr

/-- The machine right after reset (R470, R473) with the default parameters of R8 (log entry 3): the block at its reset
values, the ports not driven (log entry 2), no byte of memory listed (log entry 4), nothing coming from the host (log
entry 1). -/
def State.reset : State :=
  { params := defaultParams, block := resetBlock defaultParams, ports := portsIdle, mem := [], inbox := [] }

end Sys2Proof.Machine
end

