-- ==== Sys2Proof/Machine/Ops.lean ====
section
/-! DEFINITION. The named operations on the block that commands share: results, the fatal error, and how a command
takes effect (spec 60_exceptions.md R430 to R434, 30_encoding.md R135, 43_link.md R340). -/

namespace Sys2Proof.Machine

/-- `LINK[d]` (R131). -/
def linkOf (b : Block) : Dir → Link
  | .up => b.up
  | .dn => b.dn

/-- `LINK[d] <- l`; the other direction keeps its state (R340). -/
def setLink (b : Block) (d : Dir) (l : Link) : Block :=
  match d with
  | .up => { b with up := l }
  | .dn => { b with dn := l }

/-- A command that returns a value: `RES <- v;  RES_VALID <- 1` (R43, R135). -/
def answer (v : Word) (b : Block) : Block := { b with res := v, status := setResValid true b.status }

/-- A command that returns no value: `RES <- 0;  RES_VALID <- 0` (R43, R135). -/
def answerNothing (b : Block) : Block := { b with res := 0, status := setResValid false b.status }

/-- What `raise FATAL(cause)` leaves when the command word `w` started in the block `b` (R430): `b` itself, which
discards every change the command made (R433), with `STATUS` and `FATAL_CMD` written. -/
def raiseFatal (c : Cause) (w : CmdWord) (b : Block) : Block := { b with status := statusFatal c, fatalCmd := w }

/-- How the command word `w` takes effect, `r` being what its rule gives: the new block, or the cause it raises. In
the fatal state it is refused and changes nothing (R434). There is no return from the fatal state but reset (R437). -/
def issue (w : CmdWord) (r : Except Cause Block) (s : State) : Host.Outcome State Fault Refusal :=
  if s.block.status.fatal then .next s
  else
    match r with
    | .ok b => .next { s with block := b }
    | .error c => .next { s with block := raiseFatal c w s.block }

end Sys2Proof.Machine
end

