-- ==== Sys2Proof/Machine/Classifier.lean ====
section
/-! DEFINITION. `PRED`, `MATCH` and `CAT_READ` (spec 40_classifier.md R214 to R216). -/

namespace Sys2Proof.Machine

/-- What `PRED` does (R214). -/
def predRule (idx : BitVec 16) (s : State) : Except Cause Block :=
  match s.params.predList[idx.toNat]? with
  | none => .error .badIndex
  | some e => .ok (answer (if predHolds e.pred s.ports.a then 1 else 0) s.block)

/-- `PRED` (R214), once issued: its effect, or the fatal error its rule raises (R430, R434). -/
def execPred (idx : BitVec 16) (s : State) : Host.Outcome State Fault Refusal :=
  issue (encode (.pred idx)) (predRule idx s) s

/-- The pattern with `ID = IDX` (R215), found in `CAT` (R61; log entry 10), matched against the window of stream
`A` and the word `B`. -/
def matchById (idx : BitVec 16) (s : State) : Bool :=
  match s.block.cat.find? (fun e => e.id.toNat = idx.toNat) with
  | none => false
  | some e => patternMatches s.params e (windowOf s.params s.block.streams s.ports.a) s.ports.b

/-- What `MATCH` does (R215). -/
def matchRule (idx : BitVec 16) (s : State) : Except Cause Block :=
  if nPat s.params ≤ idx.toNat then .error .badIndex
  else .ok (answer (if matchById idx s then 1 else 0) s.block)

/-- `MATCH` (R215), once issued: its effect, or the fatal error its rule raises (R430, R434). -/
def execMatch (idx : BitVec 16) (s : State) : Host.Outcome State Fault Refusal :=
  issue (encode (.matchPat idx)) (matchRule idx s) s

/-- What `CAT_READ` does (R216). A position with no entry, which no reached state has, reads 0 (log entry 13). -/
def catReadRule (idx : BitVec 16) (s : State) : Except Cause Block :=
  if nPat s.params ≤ idx.toNat then .error .badIndex
  else
    .ok (answer
      (match s.block.cat[idx.toNat]? with
        | some e => catEntryWord e
        | none => 0)
      s.block)

/-- `CAT_READ` (R216), once issued: its effect, or the fatal error its rule raises (R430, R434). -/
def execCatRead (idx : BitVec 16) (s : State) : Host.Outcome State Fault Refusal :=
  issue (encode (.catRead idx)) (catReadRule idx s) s

end Sys2Proof.Machine
end

