-- ==== Sys2Proof/Machine/Compressor.lean ====
section
/-! DEFINITION. `COMPRESS`, `WIN_READ`, `PROF_READ` and `PROF_GLOBAL` (spec 41_stream_compressor.md R266 to R270). -/

namespace Sys2Proof.Machine

/-- What `COMPRESS` does (R267). The address operand `B` is not read (R266). -/
def compressRule (idx : BitVec 16) (s : State) : Except Cause Block :=
  if idx.toNat ≠ blockBytes then .error .badBlockSize
  else
    match compressBlock s.params s.block.cat s.block.streams s.ports.a s.ports.blk.toList with
    | .error c => .error c
    | .ok (bits, streams) => .ok (answer (BitVec.ofNat 64 bits) { s.block with streams := streams })

/-- `COMPRESS` (R267), once issued: its effect, or the fatal error its rule raises (R430, R434). -/
def execCompress (idx : BitVec 16) (s : State) : Host.Outcome State Fault Refusal :=
  issue (encode (.compress idx)) (compressRule idx s) s

/-- What `WIN_READ` does (R268). -/
def winReadRule (idx : BitVec 16) (s : State) : Except Cause Block :=
  if s.params.histDepth ≤ idx.toNat then .error .badIndex
  else .ok (answer ((windowOf s.params s.block.streams s.ports.a).getD idx.toNat 0) s.block)

/-- `WIN_READ` (R268), once issued: its effect, or the fatal error its rule raises (R430, R434). -/
def execWinRead (idx : BitVec 16) (s : State) : Host.Outcome State Fault Refusal :=
  issue (encode (.winRead idx)) (winReadRule idx s) s

/-- What `PROF_READ` does (R269). -/
def profReadRule (idx : BitVec 16) (s : State) : Except Cause Block :=
  if selectorValid s.params idx then
    .ok (answer (BitVec.ofNat 64 (profileValue idx s.ports.b s.block.streams s.ports.a)) s.block)
  else .error .badIndex

/-- `PROF_READ` (R269), once issued: its effect, or the fatal error its rule raises (R430, R434). -/
def execProfRead (idx : BitVec 16) (s : State) : Host.Outcome State Fault Refusal :=
  issue (encode (.profRead idx)) (profReadRule idx s) s

/-- What `PROF_GLOBAL` does (R270). Of `A` only bit 63 is read. -/
def profGlobalRule (idx : BitVec 16) (s : State) : Except Cause Block :=
  if selectorValid s.params idx then
    .ok (answer (BitVec.ofNat 64 (profileSum idx s.ports.b s.block.streams (directionClass s.ports.a))) s.block)
  else .error .badIndex

/-- `PROF_GLOBAL` (R270), once issued: its effect, or the fatal error its rule raises (R430, R434). -/
def execProfGlobal (idx : BitVec 16) (s : State) : Host.Outcome State Fault Refusal :=
  issue (encode (.profGlobal idx)) (profGlobalRule idx s) s

end Sys2Proof.Machine
end

