-- ==== Sys2Proof/Machine/DelayQueues.lean ====
section
/-! DEFINITION. The operations of the two delay queues (spec 42_delay_queues.md R300 to R309). -/

namespace Sys2Proof.Machine

/-- `dq_push(f)` (R301). -/
def dqPush (f : Flit) (q : DelayQueue) : DelayQueue :=
  { q with slot := q.slot.set (q.wp % q.slot.length) f, wp := q.wp + 1 }

/-- What a popped flit returns: its payload if it is a tail flit (R302). -/
def flitDelivers (f : Flit) : Option Desc := if f.tail then f.payload else none

/-- `dq_pop()` (R302): what it returns, and the queue with the slot cleared and `RP` advanced. -/
def dqPop (q : DelayQueue) : Option Desc × DelayQueue :=
  let at_ := q.rp % q.slot.length
  (flitDelivers (q.slot.getD at_ fillerFlit), { q with slot := q.slot.set at_ fillerFlit, rp := q.rp + 1 })

/-- `tsq_push(p, size, src)` at the direction's time `now` (R307). -/
def tsqPush (payload : Desc) (size src now : Nat) (q : TimestampQueue) : Except Cause TimestampQueue :=
  if q.n = q.entry.length then .error .tsqFull
  else
    .ok { q with
      entry := q.entry.set (q.wp % q.entry.length) (some { payload := payload, size := size, src := src, time := now })
      wp := q.wp + 1
      n := q.n + 1 }

/-- `tsq_top()` at time `now` with latency `CL` (R308): the oldest entry if it is ready, `none` for `NOT_READY`. -/
def tsqTop (compLatency now : Nat) (q : TimestampQueue) : Option TsqEntry :=
  match q.entry.getD (q.rp % q.entry.length) none with
  | some e => if 0 < q.n ∧ e.time + compLatency < now then some e else none
  | none => none

/-- `tsq_pop()` (R309). -/
def tsqPop (q : TimestampQueue) : Except Cause TimestampQueue :=
  if q.n = 0 then .error .tsqEmpty
  else
    .ok { q with entry := q.entry.set (q.rp % q.entry.length) none, rp := q.rp + 1, n := q.n - 1 }

end Sys2Proof.Machine
end

