-- ==== Sys2Proof/Machine/Scheduler.lean ====
section
/-! DEFINITION. The phases of a link step (spec 43_link.md R344 to R356). -/

namespace Sys2Proof.Machine

/-- The ready lists of source `s` (R51). -/
def readyOf (l : Link) (s : Nat) : ReadyLists := l.ready.getD s readyInit

/-- Change the ready lists of source `s`. -/
def modifyReady (s : Nat) (f : ReadyLists → ReadyLists) (l : Link) : Link := { l with ready := l.ready.modify s f }

/-- `COMPL[t]` (R54). -/
def complOf (l : Link) (t : Nat) : List Desc := l.compl.getD t []

/-- `budget(RATE)` (R344): the flit count `k` of the step and the new `ACC`. -/
def budget (p : Params) (acc : BitVec 16) (rate : BitVec 32) : Except Cause (Nat × BitVec 16) :=
  let tot := acc.toNat + rate.toNat
  let k := tot / 2 ^ rateFracBits
  if p.dqLatency < k then .error .dqOverrun else .ok (k, BitVec.ofNat 16 (tot % 2 ^ rateFracBits))

/-- One pop attempt of the pop phase (R345). -/
def popOnce (p : Params) (l : Link) : Except Cause Link :=
  let popped := dqPop l.dq
  match popped.1 with
  | none => .ok { l with dq := popped.2 }
  | some d =>
    if atCapacity (complOf l d.dst.toNat).length p.complDepth then .error .completionFull
    else .ok { l with dq := popped.2, compl := l.compl.modify d.dst.toNat (· ++ [d]) }

/-- `pop_phase(k)` (R345). -/
def popPhase (p : Params) : Nat → Link → Except Cause Link
  | 0, l => .ok l
  | k + 1, l =>
    match popOnce p l with
    | .error c => .error c
    | .ok l' => popPhase p k l'

/-- `first_rr(ptr, ok)` over `n` sources (R347). -/
def firstRr (n ptr : Nat) (ok : Nat → Bool) : Option Nat :=
  ((List.range n).map fun j => (ptr + j) % n).find? ok

/-- `plain_bits(p)` (R351). -/
def plainBits (d : Desc) : Nat := if isLong d then roundUp (d.size.toNat * 8) flitBits else 0

/-- `pk` of `start`: the packet's bits, one flit of overhead more and the leftover less (R348). -/
def packetBits (bits left : Nat) : Nat := flitBits + bits - left

/-- `start(p, bits)` (R348). -/
def startPacket (d : Desc) (bits : Nat) (l : Link) : Link :=
  let pk := packetBits bits l.left
  let nfl := ceilDiv pk flitBits
  { l with
    nfl := nfl
    left := if pk % flitBits = 0 then 0 else flitBits - pk % flitBits
    cur := some d
    off := 0
    stats :=
      if nfl = 1 then { l.stats with pktsSingle := l.stats.pktsSingle + 1 }
      else { l.stats with pktsMulti := l.stats.pktsMulti + 1 } }

/-- `emit()` (R350). -/
def emitFlit (l : Link) : Link :=
  let dq := dqPush { payload := l.cur, head := l.off = 0, tail := l.off = l.nfl - 1 } l.dq
  let stats := { l.stats with flitsReal := l.stats.flitsReal + 1 }
  if l.off + 1 = l.nfl then { l with dq := dq, stats := stats, cur := none, off := 0, nfl := 0 }
  else { l with dq := dq, stats := stats, off := l.off + 1 }

/-- Case (d) of `slot()`: a filler flit, which discards the leftover (R346, R349). -/
def pushFiller (l : Link) : Link :=
  { l with
    dq := dqPush fillerFlit l.dq
    stats := { l.stats with flitsFiller := l.stats.flitsFiller + 1 }
    left := 0 }

/-- The plain source a slot serves: the first with a payload in round-robin order (R346, R351). -/
def plainSource (p : Params) (l : Link) : Option (Nat × Desc) :=
  match firstRr p.nSrc l.rr fun s => !(readyOf l s).plain.isEmpty with
  | none => none
  | some s => (readyOf l s).plain.head?.map fun d => (s, d)

/-- The short source a slot serves: none while a leftover is carried (R346, case (b)). -/
def shortSource (p : Params) (l : Link) : Option (Nat × Desc) :=
  if l.left ≠ 0 then none
  else
    match firstRr p.nSrc l.rr fun s => !(readyOf l s).short.isEmpty with
    | none => none
    | some s => (readyOf l s).short.head?.map fun d => (s, d)

/-- Take the payload at the head of `PLAIN[s]` and send its first flit (R346, R351). -/
def sendPlain (p : Params) (s : Nat) (d : Desc) (l : Link) : Link :=
  emitFlit (startPacket d (plainBits d)
    { modifyReady s (fun r => { r with plain := r.plain.drop 1 }) l with rr := (s + 1) % p.nSrc })

/-- Take the payload at the head of `SHORT[s]` and send its one flit (R346, case (b)). -/
def sendShort (p : Params) (s : Nat) (d : Desc) (l : Link) : Link :=
  emitFlit (startPacket d 0
    { modifyReady s (fun r => { r with short := r.short.drop 1 }) l with rr := (s + 1) % p.nSrc })

/-- Start the held payload and send its first flit (R346, case (c)). -/
def sendHeld (e : TsqEntry) (l : Link) : Except Cause Link :=
  match tsqPop l.tsq with
  | .error c => .error c
  | .ok tsq =>
    .ok (emitFlit (startPacket e.payload e.size
      { modifyReady e.src (fun r => { r with long := .empty }) l with tsq := tsq }))

/-- `slot()` (R346): the first case that applies pushes exactly one flit. -/
def fillSlot (p : Params) (pol : Policy) (l : Link) : Except Cause Link :=
  if l.cur.isSome then .ok (emitFlit l)
  else
    match pol with
    | .plain =>
      match plainSource p l with
      | some (s, d) => .ok (sendPlain p s d l)
      | none => .ok (pushFiller l)
    | .packed => fillCompressed p l
    | .unpacked => fillCompressed p l
where
  /-- Cases (b), (c) and (d) under a compressed policy. -/
  fillCompressed (p : Params) (l : Link) : Except Cause Link :=
    match shortSource p l with
    | some (s, d) => .ok (sendShort p s d l)
    | none =>
      match tsqTop p.compLatency l.now l.tsq with
      | some e => sendHeld e l
      | none => .ok (pushFiller l)

/-- `push_phase(k)` (R346). -/
def pushPhase (p : Params) (pol : Policy) : Nat → Link → Except Cause Link
  | 0, l => .ok l
  | k + 1, l =>
    match fillSlot p pol l with
    | .error c => .error c
    | .ok l' => pushPhase p pol k l'

/-- The pending long payload the compression phase serves, if the phase has anything to do (R352). -/
def pendingSource (p : Params) (pol : Policy) (l : Link) : Option (Nat × Desc) :=
  if pol = .plain ∨ 0 < l.tsq.n then none
  else
    match firstRr p.nSrc l.crr fun s => (pendingDesc (readyOf l s).long).isSome with
    | none => none
    | some s => (pendingDesc (readyOf l s).long).map fun d => (s, d)
where
  /-- The descriptor of a slot that is `PENDING`. -/
  pendingDesc : LongSlot → Option Desc
    | .pending d => some d
    | .empty => none
    | .held => none

/-- The payload bits of a long payload, and the stream table after it (R352, R354): only a payload of 128 bytes reads
memory and is compressed. -/
def payloadBits (p : Params) (cat : List CatEntry) (mem : Memory) (streams : WordMap StreamRecord) (d : Desc) :
    Except Cause (Nat × WordMap StreamRecord) :=
  if d.size.toNat = blockBytes then compressBlock p cat streams d.sid (memRead mem d.addr blockBytes)
  else .ok (d.size.toNat * 8, streams)

/-- The size the holder keeps (R353): whole flits under `UNPACKED`. -/
def heldBits (pol : Policy) (bits : Nat) : Nat :=
  match pol with
  | .unpacked => roundUp bits flitBits
  | .packed => bits
  | .plain => bits

/-- `compression_phase()` (R352). -/
def compressionPhase (p : Params) (pol : Policy) (cat : List CatEntry) (mem : Memory)
    (streams : WordMap StreamRecord) (l : Link) : Except Cause (Link × WordMap StreamRecord) :=
  match pendingSource p pol l with
  | none => .ok (l, streams)
  | some (s, d) =>
    match payloadBits p cat mem streams d with
    | .error c => .error c
    | .ok (bits, streams') =>
      match tsqPush d (heldBits pol bits) s l.now l.tsq with
      | .error c => .error c
      | .ok tsq =>
        .ok ({ modifyReady s (fun r => { r with long := .held }) l with tsq := tsq, crr := (s + 1) % p.nSrc },
          streams')

/-- `LINK[d]` and the stream table after one step with `RATE` (R343), and the budget `k`. -/
def stepLink (p : Params) (pol : Policy) (cat : List CatEntry) (mem : Memory) (rate : BitVec 32)
    (streams : WordMap StreamRecord) (l : Link) : Except Cause (Nat × Link × WordMap StreamRecord) :=
  match budget p l.acc rate with
  | .error c => .error c
  | .ok (k, acc) =>
    match popPhase p k { l with acc := acc } with
    | .error c => .error c
    | .ok popped =>
      match pushPhase p pol k popped with
      | .error c => .error c
      | .ok pushed =>
        match
          compressionPhase p pol cat mem streams
            { pushed with stats := { pushed.stats with flitsTotal := pushed.stats.flitsTotal + k } }
        with
        | .error c => .error c
        | .ok (held, streams') => .ok (k, { held with now := held.now + 1 }, streams')

/-- The payload a `LINK_STEP` on this link hands to the compressor, or none: the one pending after the push phase, if
it is of 128 bytes (R352, R354). -/
def stepCompresses (p : Params) (pol : Policy) (rate : BitVec 32) (l : Link) : Option Desc :=
  match budget p l.acc rate with
  | .error _ => none
  | .ok (k, acc) =>
    match popPhase p k { l with acc := acc } with
    | .error _ => none
    | .ok popped =>
      match pushPhase p pol k popped with
      | .error _ => none
      | .ok pushed =>
        match pendingSource p pol pushed with
        | none => none
        | some (_, d) => if d.size.toNat = blockBytes then some d else none

/-- The memory read a `LINK_STEP` on this link makes (R101, R422 `MEM_REQ`): the address and the byte count, or
none. Which payload is compressed is known after the push phase (log entry 11). -/
def stepMemRequest (p : Params) (pol : Policy) (rate : BitVec 32) (l : Link) : Option (Word × Nat) :=
  (stepCompresses p pol rate l).map fun d => (d.addr, blockBytes)

end Sys2Proof.Machine
end

