-- ==== Sys2Proof/Machine/LinkCommands.lean ====
section
/-! DEFINITION. The link commands (spec 43_link.md R342, R343, R358 to R360). -/

namespace Sys2Proof.Machine

/-- Admit a payload at source `s` under a policy (R342): the checks of the ready list it goes to, and the append. -/
def acceptPayload (p : Params) (pol : Policy) (s : Nat) (d : Desc) (l : Link) : Except Cause Link :=
  match pol with
  | .plain =>
    if (readyOf l s).plain.length = p.plainDepth then .error .readyListFull
    else .ok (modifyReady s (fun r => { r with plain := r.plain ++ [d] }) l)
  | .packed => acceptByClass s d l
  | .unpacked => acceptByClass s d l
where
  /-- The compressed policies keep a long slot and a short list (R51). -/
  acceptByClass (s : Nat) (d : Desc) (l : Link) : Except Cause Link :=
    if isLong d then
      if (readyOf l s).long ≠ .empty then .error .longListOverflow
      else .ok (modifyReady s (fun r => { r with long := .pending d }) l)
    else
      if (readyOf l s).short.length = shortDepth then .error .readyListFull
      else .ok (modifyReady s (fun r => { r with short := r.short ++ [d] }) l)

/-- What `LINK_PUSH` does (R342). -/
def linkPushRule (d : Dir) (idx : BitVec 16) (s : State) : Except Cause Block :=
  if s.params.nSrc ≤ idx.toNat ∨ s.params.nDst ≤ (decodeDesc s.ports.descIn).dst.toNat then .error .badIndex
  else
    match acceptPayload s.params (policyOf s.params d) idx.toNat (decodeDesc s.ports.descIn) (linkOf s.block d) with
    | .error c => .error c
    | .ok l => .ok (answerNothing (setLink s.block d l))

/-- `LINK_PUSH` (R342), once issued: its effect, or the fatal error its rule raises (R430, R434). -/
def execLinkPush (d : Dir) (idx : BitVec 16) (s : State) : Host.Outcome State Fault Refusal :=
  issue (encode (.linkPush d idx)) (linkPushRule d idx s) s

/-- What `LINK_STEP` does (R343). -/
def linkStepRule (d : Dir) (s : State) : Except Cause Block :=
  match
    stepLink s.params (policyOf s.params d) s.block.cat s.mem s.ports.rate s.block.streams (linkOf s.block d)
  with
  | .error c => .error c
  | .ok (k, l, streams) => .ok (answer (BitVec.ofNat 64 k) { setLink s.block d l with streams := streams })

/-- `LINK_STEP` (R343), once issued: its effect, or the fatal error its rule raises (R430, R434). -/
def execLinkStep (d : Dir) (idx : BitVec 16) (s : State) : Host.Outcome State Fault Refusal :=
  issue (encode (.linkStep d idx)) (linkStepRule d s) s

/-- What `LINK_POP` does (R358). On an empty list `DESC_OUT` keeps its value. -/
def linkPopRule (d : Dir) (idx : BitVec 16) (s : State) : Except Cause Block :=
  if s.params.nDst ≤ idx.toNat then .error .badIndex
  else
    match complOf (linkOf s.block d) idx.toNat with
    | [] => .ok (answerNothing s.block)
    | p :: _ =>
      .ok (answer 1
        { setLink s.block d
            { linkOf s.block d with compl := (linkOf s.block d).compl.modify idx.toNat (List.drop 1) } with
          descOut := encodeDesc p })

/-- `LINK_POP` (R358), once issued: its effect, or the fatal error its rule raises (R430, R434). -/
def execLinkPop (d : Dir) (idx : BitVec 16) (s : State) : Host.Outcome State Fault Refusal :=
  issue (encode (.linkPop d idx)) (linkPopRule d idx s) s

/-- What `LINK_STAT` does (R359). -/
def linkStatRule (d : Dir) (idx : BitVec 16) (s : State) : Except Cause Block :=
  match linkStatValue (linkOf s.block d) idx.toNat with
  | none => .error .badIndex
  | some v => .ok (answer (BitVec.ofNat 64 v) s.block)

/-- `LINK_STAT` (R359), once issued: its effect, or the fatal error its rule raises (R430, R434). -/
def execLinkStat (d : Dir) (idx : BitVec 16) (s : State) : Host.Outcome State Fault Refusal :=
  issue (encode (.linkStat d idx)) (linkStatRule d idx s) s

/-- What `LINK_SRCSTAT` does (R360). -/
def linkSrcstatRule (d : Dir) (idx : BitVec 16) (s : State) : Except Cause Block :=
  if s.params.nSrc ≤ idx.toNat then .error .badIndex
  else .ok (answer (occupancyWord (policyOf s.params d) (readyOf (linkOf s.block d) idx.toNat)) s.block)

/-- `LINK_SRCSTAT` (R360), once issued: its effect, or the fatal error its rule raises (R430, R434). -/
def execLinkSrcstat (d : Dir) (idx : BitVec 16) (s : State) : Host.Outcome State Fault Refusal :=
  issue (encode (.linkSrcstat d idx)) (linkSrcstatRule d idx s) s

end Sys2Proof.Machine
end

