-- ==== Sys2Proof/Machine/System.lean ====
section
/-! DEFINITION. `NOP`, the illegal word, the host's other actions on the block, and the output ports (spec
44_system.md R420 to R422, 30_encoding.md R144, 70_reset_and_hazards.md R470). -/

namespace Sys2Proof.Machine

/-- What `NOP` does (R420). -/
def nopRule (s : State) : Except Cause Block :=
  .ok (answerNothing s.block)

/-- `NOP` (R420), once issued: its effect, or the fatal error its rule raises (R430, R434). -/
def execNop (idx : BitVec 16) (s : State) : Host.Outcome State Fault Refusal :=
  issue (encode (.nop idx)) (nopRule s) s

/-- An illegal command word raises `ILLEGAL_COMMAND`, whatever makes it illegal (R144); in the fatal state it is
refused (R434, R435). -/
def execIllegal (w : CmdWord) (s : State) : Host.Outcome State Fault Refusal :=
  issue w (.error .illegalCommand) s

/-- The host presents a command: the ports hold what it drives (R45, R422). -/
def presentPorts (p : Ports) (s : State) : State := { s with ports := p }

/-- The host asserts `RESET` with a parameter set (R470). The ports, the memory and the host's coming actions are
outside the block and keep their values (log entry 12). -/
def assertReset (p : Params) (s : State) : State := { s with params := p, block := resetBlock p }

/-- The host writes one byte of the external memory (R107). -/
def hostWrite (addr : Word) (byte : Byte) (s : State) : State := { s with mem := writeByte s.mem addr.toNat byte }

/-! ## Output ports and side-band reads (R421, R422, R436): views, which change nothing -/

/-- `STATUS` as the side-band reads it (R41, R421). -/
def statusPort (s : State) : BitVec 32 := statusWord s.block.status

/-- `FATAL_CMD` as the side-band reads it (R42, R421). -/
def fatalCmdPort (s : State) : BitVec 32 := s.block.fatalCmd

/-- The `FATAL` line (R436). -/
def fatalLine (s : State) : Bool := s.block.status.fatal

/-- `RES` (R43, R422). -/
def resPort (s : State) : Word := s.block.res

/-- `DESC_OUT` (R44, R422). -/
def descOutPort (s : State) : BitVec 256 := s.block.descOut

/-- `MEM_REQ` (R422): the read a `LINK_STEP` on `d` makes when it is issued in this state; no command but
`LINK_STEP` reads memory (R101). In the fatal state a refused command reads nothing (log entry 11). -/
def memRequest (d : Dir) (s : State) : Option (Word × Nat) :=
  if s.block.status.fatal then none
  else stepMemRequest s.params (policyOf s.params d) s.ports.rate (linkOf s.block d)

end Sys2Proof.Machine
end

