-- ==== Sys2Proof/Machine/Dispatch.lean ====
section
/-! DEFINITION. Which meaning each command has. -/

namespace Sys2Proof.Machine

/-- The meaning of a command (spec 30_encoding.md R134). -/
def exec (i : Instr) (s : State) : Host.Outcome State Fault Refusal :=
  match i with
  | .nop idx => Sys2Proof.Machine.execNop idx s
  | .pred idx => Sys2Proof.Machine.execPred idx s
  | .matchPat idx => Sys2Proof.Machine.execMatch idx s
  | .compress idx => Sys2Proof.Machine.execCompress idx s
  | .profRead idx => Sys2Proof.Machine.execProfRead idx s
  | .profGlobal idx => Sys2Proof.Machine.execProfGlobal idx s
  | .catRead idx => Sys2Proof.Machine.execCatRead idx s
  | .winRead idx => Sys2Proof.Machine.execWinRead idx s
  | .linkPush d idx => Sys2Proof.Machine.execLinkPush d idx s
  | .linkStep d idx => Sys2Proof.Machine.execLinkStep d idx s
  | .linkPop d idx => Sys2Proof.Machine.execLinkPop d idx s
  | .linkStat d idx => Sys2Proof.Machine.execLinkStat d idx s
  | .linkSrcstat d idx => Sys2Proof.Machine.execLinkSrcstat d idx s

end Sys2Proof.Machine
end

