-- ==== Sys2Proof/Machine/HostPort.lean ====
section
/-! DEFINITION. What one action of the host does (spec 00_scope.md R7, 10_state.md R45, R56, 70_reset_and_hazards.md
R470, 20_memory.md R107). -/

namespace Sys2Proof.Machine

/-- The command word on the `CMD` port takes effect (R130, R422). -/
def runCommand (s : State) : Host.Outcome State Fault Refusal :=
  match decode s.ports.cmd with
  | .ok i => exec i s
  | .error _ => execIllegal s.ports.cmd s

/-- One action of the host (log entry 1). -/
def hostAction (e : HostEvent) (s : State) : Host.Outcome State Fault Refusal :=
  match e with
  | .command p => runCommand (presentPorts p s)
  | .reset p => .next (assertReset p s)
  | .memWrite addr byte => .next (hostWrite addr byte s)

/-- The host's next action is made to be: present the command word `w`, the other ports as they are. -/
def queueCommand (w : CmdWord) (s : State) : State :=
  { s with inbox := .command { s.ports with cmd := w } :: s.inbox }

end Sys2Proof.Machine
end

