-- ==== Sys2Proof/Machine/Step.lean ====
section
/-! DEFINITION. One step of the machine: one action of the host (spec 00_scope.md R7, 10_state.md R56). -/

namespace Sys2Proof.Machine

/-- One step: the block does what the host's next action asks, in the order the host acts (R110). With no action
coming, the block stays as it is (log entry 1). -/
def step (s : State) : Host.Outcome State Fault Refusal :=
  match s.inbox with
  | [] => .next s
  | e :: rest => hostAction e { s with inbox := rest }

/-- The state whose very next step runs the command word `w`. A command is one 32-bit word, whatever the number of
bits (R130; log entry 1). -/
def State.withFetchWord (s : State) (_nbits w : Nat) : State := queueCommand (BitVec.ofNat 32 w) s

end Sys2Proof.Machine
end

