-- ==== Sys2Proof/Machine/Assembler.lean ====
section
/-! DEFINITION. The command lines of spec 30_encoding.md R146 and the pseudo-command of R147, on the tokens of a line
(log entry 18). -/

namespace Sys2Proof.Machine

/-- The mnemonics of a line: those of R134 and `LINK_TICK` (R147). -/
inductive Mnemonic where
  | nop
  | pred
  | matchPat
  | compress
  | profRead
  | profGlobal
  | catRead
  | winRead
  | linkPush
  | linkStep
  | linkPop
  | linkStat
  | linkSrcstat
  | linkTick
deriving DecidableEq, Repr

/-- The `idx` of a line (R146): a number, or a profile selector by name (R141). -/
inductive IdxToken where
  | number (n : BitVec 16)
  | hits (pid : BitVec 8)
  | words
  | esc
  | escv
deriving DecidableEq, Repr

/-- A `BLK` value of a line (R146). -/
inductive BlkToken where
  | zero128
  | rep (w : Word)
  | list (ws : Vector Word 16)
deriving DecidableEq, Repr

/-- A line (R146): a port that is not assigned is `none`. -/
structure CommandLine where
  mnemonic : Mnemonic
  suffix : Option Dir
  idx : Option IdxToken
  a : Option Word
  b : Option Word
  blk : Option BlkToken
  desc : Option Desc
  rate : Option (BitVec 32)
deriving DecidableEq, Repr

/-- The `IDX` a token encodes as, for `PROF_READ` and `PROF_GLOBAL` (R141, R146). -/
def selectorOf : IdxToken → BitVec 16
  | .number n => n
  | .hits pid => 0#8 ++ pid
  | .words => 0x4000
  | .esc => 0x8000
  | .escv => 0xC000

/-- The `IDX` a token encodes as for every other command: a number (R146). -/
def numberOf : IdxToken → Option (BitVec 16)
  | .number n => some n
  | .hits _ => none
  | .words => none
  | .esc => none
  | .escv => none

/-- A command written without a suffix: a non-link command takes none (R146). -/
def plainLine (mk : BitVec 16 → Instr) (suffix : Option Dir) (idx : Option (BitVec 16)) : Option Instr :=
  match suffix with
  | some _ => none
  | none => idx.map mk

/-- A link command: without a suffix it means `.UP` (R146). -/
def linkLine (mk : Dir → BitVec 16 → Instr) (suffix : Option Dir) (idx : Option (BitVec 16)) : Option Instr :=
  idx.map (mk (suffix.getD .up))

/-- The command of a line (R146, R147); `idx` may be left out and is then 0. -/
def lineCommand (c : CommandLine) : Option Instr :=
  let number := numberOf (c.idx.getD (.number 0))
  let selector := some (selectorOf (c.idx.getD (.number 0)))
  match c.mnemonic with
  | .nop => plainLine .nop c.suffix number
  | .pred => plainLine .pred c.suffix number
  | .matchPat => plainLine .matchPat c.suffix number
  | .compress => plainLine .compress c.suffix number
  | .profRead => plainLine .profRead c.suffix selector
  | .profGlobal => plainLine .profGlobal c.suffix selector
  | .catRead => plainLine .catRead c.suffix number
  | .winRead => plainLine .winRead c.suffix number
  | .linkPush => linkLine .linkPush c.suffix number
  | .linkStep => linkLine .linkStep c.suffix number
  | .linkPop => linkLine .linkPop c.suffix number
  | .linkStat => linkLine .linkStat c.suffix number
  | .linkSrcstat => linkLine .linkSrcstat c.suffix number
  | .linkTick => linkLine .linkStep c.suffix number

/-- The rate a line drives: `LINK_TICK` is one flit per step (R147). -/
def lineRate (c : CommandLine) : Option (BitVec 32) :=
  match c.mnemonic with
  | .linkTick => some 0x00010000
  | _ => c.rate

/-- The bytes of 16 words, each little-endian (R146, spec 20_memory.md R103). -/
def wordsBytes (ws : Vector Word 16) : Vector Byte 128 :=
  Vector.ofFn fun j : Fin 128 => (ws.toList.getD (j.val / 8) 0).extractLsb' (8 * (j.val % 8)) 8

/-- The 128 bytes of a `BLK` value (R146). -/
def blkBytes : BlkToken → Vector Byte 128
  | .zero128 => Vector.replicate 128 0
  | .rep w => wordsBytes (Vector.replicate 16 w)
  | .list ws => wordsBytes ws

/-- The ports a line drives, over what they held: a port that is not assigned keeps its value (R146). -/
def assemble (c : CommandLine) (old : Ports) : Option Ports :=
  (lineCommand c).map fun i =>
    { cmd := encode i
      a := c.a.getD old.a
      b := c.b.getD old.b
      blk := (c.blk.map blkBytes).getD old.blk
      descIn := (c.desc.map encodeDesc).getD old.descIn
      rate := (lineRate c).getD old.rate }

end Sys2Proof.Machine
end

