-- ==== Sys2Proof/Safety.lean ====
section
/-! DEFINITION. What statements about runs are said in: live states, the invariants of spec 10_state.md R60, the
payloads a link holds, and the host's obligations of spec 70_reset_and_hazards.md R475 to R479. -/

namespace Sys2Proof.Machine

/-- The block is not in the fatal state (R434). -/
abbrev live (s : State) : Prop := s.block.status.fatal = false

/-- The other direction. -/
def otherDir : Dir → Dir
  | .up => .dn
  | .dn => .up

/-! ## Views of a link -/

/-- The entry the holder keeps, none when it is empty (R53). -/
def heldEntry (q : TimestampQueue) : Option TsqEntry :=
  if q.n = 0 then none else q.entry.getD (q.rp % q.entry.length) none

/-- The flits pushed and not yet popped, oldest first (R52). -/
def flitsInFlight (q : DelayQueue) : List Flit :=
  (List.range (q.wp - q.rp)).map fun j => q.slot.getD ((q.rp + j) % q.slot.length) fillerFlit

/-- The payloads waiting in one source's ready lists: short, plain, and a pending long one (R51). -/
def readyPayloads (r : ReadyLists) : List Desc :=
  r.short ++ r.plain ++
    match r.long with
    | .pending d => [d]
    | .empty => []
    | .held => []

/-- Every payload a link has admitted and not yet delivered to the host (R363): ready, held, in progress, with its
tail flit in flight, or on a completion list. -/
def payloadsOf (l : Link) : List Desc :=
  l.ready.flatMap readyPayloads ++ ((heldEntry l.tsq).map fun e => e.payload).toList ++ l.cur.toList ++
    (flitsInFlight l.dq).filterMap flitDelivers ++ l.compl.flatten

/-! ## Invariants -/

/-- The ready lists of one source: their bounds and which of them the policy uses (R51), each short payload of short
class and each pending one of long class (R342). -/
structure ReadyInv (p : Params) (pol : Policy) (r : ReadyLists) : Prop where
  short_le : r.short.length ≤ shortDepth
  plain_le : r.plain.length ≤ p.plainDepth
  plain_unused : pol ≠ .plain → r.plain = []
  compressed_unused : pol = .plain → r.short = [] ∧ r.long = .empty
  short_class : ∀ d ∈ r.short, isLong d = false
  pending_class : ∀ d, r.long = .pending d → isLong d = true
  payload_dst : ∀ d ∈ readyPayloads r, d.dst.toNat < p.nDst

/-- The invariants of one link between commands (R60 (a) to (e), R357), with the shapes and ranges of R50 to R54 that
they rest on. -/
structure LinkInv (p : Params) (pol : Policy) (l : Link) : Prop where
  ready_length : l.ready.length = p.nSrc
  compl_length : l.compl.length = p.nDst
  slot_length : l.dq.slot.length = dqSlots p
  entry_length : l.tsq.entry.length = tsqSlots p
  rr_lt : l.rr < p.nSrc
  crr_lt : l.crr < p.nSrc
  left_lt : l.left < flitBits
  ready_inv : ∀ r ∈ l.ready, ReadyInv p pol r
  /-- R60 (a). -/
  idle_off : l.cur = none → l.off = 0 ∧ l.nfl = 0
  /-- R60 (a). -/
  busy_off : l.cur ≠ none → 0 < l.off ∧ l.off < l.nfl
  /-- R60 (b). -/
  dq_latency : l.dq.wp = l.dq.rp + p.dqLatency
  /-- R60 (c). -/
  holder_le : l.tsq.n ≤ 1
  tsq_cursors : l.tsq.wp = l.tsq.rp + l.tsq.n
  /-- R60 (d), from the queue to the source. -/
  holder_entry : l.tsq.n = 1 → ∃ e ∈ heldEntry l.tsq, (readyOf l e.src).long = .held
  /-- R60 (d), from the source to the queue; so at most one source is held. -/
  held_entry : ∀ s < p.nSrc, (readyOf l s).long = .held → ∃ e ∈ heldEntry l.tsq, e.src = s
  held_time : ∀ e ∈ heldEntry l.tsq, e.time < l.now
  held_aligned : pol = .unpacked → ∀ e ∈ heldEntry l.tsq, e.size % flitBits = 0
  /-- R60 (e). -/
  left_zero : pol ≠ .packed → l.left = 0
  /-- R345: every payload on the link names a destination that exists. -/
  payload_dst : ∀ d ∈ payloadsOf l, d.dst.toNat < p.nDst
  compl_le : ∀ c, p.complDepth = some c → ∀ q ∈ l.compl, q.length ≤ c
  /-- R357. -/
  flits_total : l.stats.flitsTotal = l.stats.flitsReal + l.stats.flitsFiller
  /-- R357. -/
  dq_pops : l.dq.rp = l.stats.flitsTotal

/-- The invariants of one stream record: R60 (f) and (g), and the shape of `HITS` and `ESCV` (R48). -/
structure StreamInv (p : Params) (st : StreamRecord) : Prop where
  /-- R60 (f). -/
  win_length : st.win.length = p.histDepth
  hits_length : st.hits.length = nPat p
  /-- R60 (g). -/
  words_split : st.words = st.esc + st.hits.sum
  escv_wf : mapWf st.escv
  escv_pos : ∀ e ∈ st.escv, 0 < e.2
  escv_sum : (st.escv.map fun e => e.2).sum = st.esc

/-- What holds of a block that is not in the fatal state (R60), under the parameters its reset latched. -/
structure BlockInv (p : Params) (b : Block) : Prop where
  config : validConfig p = true
  cat : b.cat = buildCatalog p
  streams_wf : mapWf b.streams
  streams_le : ∀ m, p.maxStreams = some m → b.streams.length ≤ m
  streams : ∀ e ∈ b.streams, StreamInv p e.2
  link : ∀ d, LinkInv p (policyOf p d) (linkOf b d)

/-- The invariant of the machine: `CAUSE` is `NONE` exactly outside the fatal state and a fatal error leaves no result
(R41, R430), memory is in canonical form, and R60 holds "while `FATAL = 0`". -/
structure StateInv (s : State) : Prop where
  cause_iff : s.block.status.cause = .none ↔ s.block.status.fatal = false
  fatal_no_result : s.block.status.fatal = true → s.block.status.resValid = false
  mem_wf : memoryWf s.mem
  block : live s → BlockInv s.params s.block

/-! ## The host's obligations (R475 to R479) -/

/-- The push on the ports respects the ready-list bounds and the index ranges (R475, R342). -/
def pushAllowed (s : State) (d : Dir) (idx : BitVec 16) : Prop :=
  idx.toNat < s.params.nSrc ∧ (decodeDesc s.ports.descIn).dst.toNat < s.params.nDst ∧
    (policyOf s.params d = .plain →
      (readyOf (linkOf s.block d) idx.toNat).plain.length ≠ s.params.plainDepth) ∧
    (policyOf s.params d ≠ .plain → isLong (decodeDesc s.ports.descIn) = true →
      (readyOf (linkOf s.block d) idx.toNat).long = .empty) ∧
    (policyOf s.params d ≠ .plain → isLong (decodeDesc s.ports.descIn) = false →
      (readyOf (linkOf s.block d) idx.toNat).short.length ≠ shortDepth)

/-- The step's flit budget is at most `L` (R476): `ACC + RATE < (L + 1) * 2^16`. -/
def rateAllowed (s : State) (d : Dir) : Prop :=
  (linkOf s.block d).acc.toNat + s.ports.rate.toNat < (s.params.dqLatency + 1) * 2 ^ rateFracBits

/-- The flit budget of a step with the rate on the ports: `(ACC + RATE) div 2^16` (R344). -/
def stepBudget (s : State) (d : Dir) : Nat := ((linkOf s.block d).acc.toNat + s.ports.rate.toNat) / 2 ^ 16

/-- The payloads a step's pops deliver, in order: those whose tail flit is among the `k` oldest in flight (R302, R345). -/
def deliveries (s : State) (d : Dir) : List Desc :=
  ((flitsInFlight (linkOf s.block d).dq).take (stepBudget s d)).filterMap flitDelivers

/-- Each completion list has room for what the step delivers to it (R345, R479). -/
def completionRoom (s : State) (d : Dir) : Prop :=
  ∀ c, s.params.complDepth = some c → ∀ t < s.params.nDst,
    (complOf (linkOf s.block d) t).length + ((deliveries s d).filter fun q => q.dst.toNat == t).length ≤ c

/-- The stream table has room for the stream of the payload the step compresses, if that stream is not in it yet
(R260, R479). -/
def streamRoom (s : State) (d : Dir) : Prop :=
  ∀ m q, s.params.maxStreams = some m →
    stepCompresses s.params (policyOf s.params d) s.ports.rate (linkOf s.block d) = some q →
    mapGet s.block.streams q.sid = none → s.block.streams.length < m

end Sys2Proof.Machine
end

