-- ==== Sys2Proof/WellFormed.lean ====
section
/-! DEFINITION. Which commands are well formed for a parameter set: the ranges the `IDX` column of spec
30_encoding.md R134 gives. Every other field of a command is well formed by its type. An ill-formed command is a legal
word; executing it raises `BAD_INDEX` or `BAD_BLOCK_SIZE` (R144). -/

namespace Sys2Proof

/-- `IDX` is in the range R134 gives for the command. -/
def wellFormed (p : Params) : Instr → Bool
  | .nop _ => true
  | .pred idx => idx.toNat < Machine.nPred p
  | .matchPat idx => idx.toNat < Machine.nPat p
  | .compress idx => idx.toNat = Machine.blockBytes
  | .profRead idx => Machine.selectorValid p idx
  | .profGlobal idx => Machine.selectorValid p idx
  | .catRead idx => idx.toNat < Machine.nPat p
  | .winRead idx => idx.toNat < p.histDepth
  | .linkPush _ idx => idx.toNat < p.nSrc
  | .linkStep _ _ => true
  | .linkPop _ idx => idx.toNat < p.nDst
  | .linkStat _ idx => idx.toNat < 13
  | .linkSrcstat _ idx => idx.toNat < p.nSrc

end Sys2Proof
end

