-- ==== Sys2Proof/Certificates/Slice0/Obligations.lean ====
section
/-! DEFINITION. The statements about the model, one `def Obligations.<Name> : Prop` each, listed in OBLIGATIONS.json.
"Log" numbers are rows of notes/assumptions. -/

namespace Sys2Proof.Machine

/-! ## What the statements are said in -/

/-- The state after a command that returns the value `v` and writes nothing else (R43, R135). -/
def returning (v : Word) (s : State) : State :=
  { s with block := { s.block with res := v, status := { s.block.status with resValid := true } } }

/-- The state after a command that returns no value and writes nothing else (R43, R135). -/
def returningNothing (s : State) : State :=
  { s with block := { s.block with res := 0, status := { s.block.status with resValid := false } } }

/-- The state after the command word `w` raised `c` (R430). -/
def raised (c : Cause) (w : CmdWord) (s : State) : State :=
  { s with block := { s.block with status := { fatal := true, cause := c, resValid := false }, fatalCmd := w } }

/-- A state with another `LINK[d]`, stream table and `DESC_OUT`. -/
def withLink (d : Dir) (l : Link) (s : State) : State := { s with block := setLink s.block d l }

/-- A state with another stream table. -/
def withStreams (m : WordMap StreamRecord) (s : State) : State := { s with block := { s.block with streams := m } }

/-- `DIR` as a number (R131). -/
def dirNumber : Dir → Nat
  | .up => 0
  | .dn => 1

/-- A command word by its fields (R130), `RSV` zero. -/
def commandWord (opc dir : Nat) (idx : BitVec 16) : CmdWord := BitVec.ofNat 32 (opc * 2 ^ 24 + dir * 2 ^ 23 + idx.toNat)

/-- The causes R432 gives each command beyond `ILLEGAL_COMMAND`. -/
def causesOf : Instr → List Cause
  | .nop _ => []
  | .pred _ | .matchPat _ | .catRead _ | .winRead _ | .profRead _ | .profGlobal _ => [.badIndex]
  | .linkPop _ _ | .linkStat _ _ | .linkSrcstat _ _ => [.badIndex]
  | .compress _ => [.badBlockSize, .streamTableFull]
  | .linkPush _ _ => [.badIndex, .readyListFull, .longListOverflow]
  | .linkStep _ _ => [.dqOverrun, .completionFull, .streamTableFull]

/-- The cause an `IDX` out of range raises (R144). -/
def indexCause : Instr → Cause
  | .compress _ => .badBlockSize
  | .nop _ | .pred _ | .matchPat _ | .profRead _ | .profGlobal _ | .catRead _ | .winRead _ => .badIndex
  | .linkPush _ _ | .linkStep _ _ | .linkPop _ _ | .linkStat _ _ | .linkSrcstat _ _ => .badIndex

/-- The direction a link command acts on. -/
def commandDir : Instr → Option Dir
  | .nop _ | .pred _ | .matchPat _ | .compress _ | .profRead _ | .profGlobal _ | .catRead _ | .winRead _ => none
  | .linkPush d _ | .linkStep d _ | .linkPop d _ | .linkStat d _ | .linkSrcstat d _ => some d

/-- The window R215 and R268 read for a stream id: the stream's, or the initial window of R49. -/
def windowSeen (p : Params) (m : WordMap StreamRecord) (sid : Word) : List Word :=
  match mapGet m sid with
  | some st => st.win
  | none => m64 :: List.replicate (p.histDepth - 1) 0

/-- The delta of a word under a set of window positions (R209). -/
def deltaUnder (win : List Word) (S : Finset (Fin win.length)) (w : Word) : Word :=
  ((List.finRange win.length).filter (fun i => i ∈ S)).foldl (fun acc i => acc ^^^ win[i]) w

/-- The value of a profile selector (R141, R269), by `KIND = IDX / 2^14`, `PID = IDX mod 2^8`. -/
def selectedCounter (idx : BitVec 16) (word : Word) (m : WordMap StreamRecord) (sid : Word) : Nat :=
  match mapGet m sid with
  | none => 0
  | some st =>
    if idx.toNat / 2 ^ 14 = 0 then st.hits.getD (idx.toNat % 2 ^ 8) 0
    else if idx.toNat / 2 ^ 14 = 1 then st.words
    else if idx.toNat / 2 ^ 14 = 2 then st.esc
    else (mapGet st.escv word).getD 0

/-- The index checks of R269 pass. -/
def selectorInRange (p : Params) (idx : BitVec 16) : Prop :=
  idx.toNat / 2 ^ 8 % 2 ^ 6 = 0 ∧ (idx.toNat / 2 ^ 14 = 0 → idx.toNat % 2 ^ 8 < nPat p)

/-- The loop of R262 as the rule writes it: a running total, word by word. -/
def compressLoop (p : Params) (cat : List CatEntry) (ws : List Word) (st : StreamRecord) : Nat × StreamRecord :=
  ws.foldl (fun acc w => (acc.1 + (account p cat acc.2 w).1, pushHistory w (account p cat acc.2 w).2)) (0, st)

/-- The keys of R207 in strictly ascending order. -/
def keyBefore (a b : CatEntry) : Prop :=
  a.enc.toNat < b.enc.toNat ∨
    (a.enc.toNat = b.enc.toNat ∧
      ((a.level.toNat = 0 ∧ b.level.toNat ≠ 0) ∨
        ((a.level.toNat = 0 ↔ b.level.toNat = 0) ∧ a.id.toNat < b.id.toNat)))

/-- `k` pops of `DQ` in a row: what each returns, and the queue after. -/
def popMany : Nat → DelayQueue → List (Option Desc) × DelayQueue
  | 0, q => ([], q)
  | k + 1, q =>
    let first := dqPop q
    let rest := popMany k first.2
    (first.1 :: rest.1, rest.2)

/-- `DQ` after a pop: the oldest slot a filler flit, `RP` advanced, `WP` and every other slot as they were (R302). -/
def oldestCleared (q : DelayQueue) : DelayQueue :=
  { q with
    slot := q.slot.set (q.rp % q.slot.length) { payload := none, head := false, tail := false }, rp := q.rp + 1 }

/-- Steps on `DQ` alone: each batch of flits is one step, which pops as many flits as it then pushes (R343). -/
def runBatches : List (List Flit) → DelayQueue → List (Option Desc)
  | [], _ => []
  | b :: rest, q =>
    let popped := popMany b.length q
    popped.1 ++ runBatches rest (b.foldl (fun q f => dqPush f q) popped.2)

/-- `k` times `f` in a row leads from one link to another, none of them raising. -/
def repeats (f : Link → Except Cause Link) : Nat → Link → Link → Prop
  | 0, l, l' => l' = l
  | k + 1, l, l' => ∃ next, f l = .ok next ∧ repeats f k next l'

/-- The fraction of a flit a step with the rate on the ports carries on: `(ACC + RATE) mod 2^16` (R344). -/
def stepFraction (s : State) (d : Dir) : BitVec 16 :=
  BitVec.ofNat 16 (((linkOf s.block d).acc.toNat + s.ports.rate.toNat) % 2 ^ 16)

/-- `TYPE` is one the spec's general knowledge reads as carrying data (R341, Log 16). -/
abbrev carriesData (q : Desc) : Prop := q.type = .writeRequest ∨ q.type = .readReply

/-- The counters of a link agree (R357). -/
def flitCounts (p : Params) (l : Link) : Prop :=
  l.stats.flitsTotal = l.stats.flitsReal + l.stats.flitsFiller ∧ l.dq.rp = l.stats.flitsTotal ∧
    l.dq.wp = l.dq.rp + p.dqLatency

/-- Commands in a row, each with what the host drives, lead from one state to another, none of them raising. -/
def runCommands : List (Instr × Ports) → State → State → Prop
  | [], s, t => t = s
  | c :: rest, s, t => ∃ u, exec c.1 { s with ports := c.2 } = .next u ∧ live u ∧ runCommands rest u t

/-- The rate of a `LINK_STEP` on a direction. -/
def stepRate (d : Dir) (c : Instr × Ports) : Option Nat :=
  match c.1 with
  | .linkStep e _ => if e = d then some c.2.rate.toNat else none
  | .nop _ | .pred _ | .matchPat _ | .compress _ | .profRead _ | .profGlobal _ | .catRead _ | .winRead _ => none
  | .linkPush _ _ | .linkPop _ _ | .linkStat _ _ | .linkSrcstat _ _ => none

/-- The ring of `DQ` has a free slot and its cursors are in order (R301). -/
def ringRoom (q : DelayQueue) : Prop := q.rp ≤ q.wp ∧ q.wp - q.rp < q.slot.length

end Sys2Proof.Machine

open Sys2Proof Sys2Proof.Machine

/-! ## Encoding (spec 30_encoding.md) -/

/-- Decoding and encoding agree (R130 to R134): decoding the word of any command, with any `DIR` and `IDX`, gives the
command back; and a legal word is the word of the command it decodes to, so no bit of it is dropped, and the word a
fatal error latches (Log 8) is the word on `CMD`. -/
def Obligations.DecodeAndEncodeAgree : Prop :=
  (∀ i : Instr, decode (encode i) = .ok i) ∧ ∀ (w : CmdWord) (i : Instr), decode w = .ok i → encode i = w

/-- R144, whole: a word is illegal exactly by (a), (b) or (c); an illegal word raises `ILLEGAL_COMMAND`; a legal word
whose `IDX` is out of range raises `BAD_INDEX`, for `COMPRESS` `BAD_BLOCK_SIZE`. -/
def Obligations.IllegalWordsAndBadIndexes : Prop :=
  ∀ s : State, live s →
    ((∃ e, decode s.ports.cmd = .error e) ↔
      (s.ports.cmd.toNat / 2 ^ 24 ∉ [0x00, 0x01, 0x02, 0x03, 0x05, 0x06, 0x07, 0x08, 0x10, 0x11, 0x12, 0x13, 0x14] ∨
        s.ports.cmd.toNat / 2 ^ 16 % 2 ^ 7 ≠ 0 ∨
        (s.ports.cmd.toNat / 2 ^ 23 % 2 = 1 ∧
          s.ports.cmd.toNat / 2 ^ 24 ∉ [0x10, 0x11, 0x12, 0x13, 0x14]))) ∧
    (∀ e, decode s.ports.cmd = .error e → runCommand s = .next (raised .illegalCommand s.ports.cmd s)) ∧
    (∀ i, decode s.ports.cmd = .ok i → wellFormed s.params i = false →
      runCommand s =
        .next (raised (indexCause i) s.ports.cmd s))

/-- Words written out from R130 and R134 decode to the commands they stand for. -/
def Obligations.SampleWordsDecode : Prop :=
  decode 0x0000FFFF = .ok (.nop 0xFFFF) ∧ decode 0x01000003 = .ok (.pred 3) ∧
    decode 0x03000080 = .ok (.compress 128) ∧ decode 0x050040FF = .ok (.profRead 0x40FF) ∧
    decode 0x10800001 = .ok (.linkPush .dn 1) ∧ decode 0x11000000 = .ok (.linkStep .up 0) ∧
    decode 0x04000000 = .error .opcodeUnassigned ∧ decode 0x01810007 = .error .reservedNotZero ∧
    decode 0x03800080 = .error .dirOnNonLink

/-- R137 and R138: the fields of a descriptor stand where the layout puts them, a descriptor on `DESC_OUT` has zeros
above bit 193, and what `LINK_PUSH` takes from `DESC_IN` comes back on `DESC_OUT` unchanged. -/
def Obligations.DescriptorLayoutRoundTrip : Prop :=
  (∀ v : BitVec 256,
    (decodeDesc v).addr.toNat = v.toNat % 2 ^ 64 ∧ (decodeDesc v).sid.toNat = v.toNat / 2 ^ 64 % 2 ^ 64 ∧
    (decodeDesc v).tag.toNat = v.toNat / 2 ^ 128 % 2 ^ 32 ∧ (decodeDesc v).size.toNat = v.toNat / 2 ^ 160 % 2 ^ 16 ∧
    (decodeDesc v).dst.toNat = v.toNat / 2 ^ 176 % 2 ^ 16 ∧
    ((decodeDesc v).type = .readRequest ↔ v.toNat / 2 ^ 192 % 4 = 0) ∧
    ((decodeDesc v).type = .writeRequest ↔ v.toNat / 2 ^ 192 % 4 = 1) ∧
    ((decodeDesc v).type = .readReply ↔ v.toNat / 2 ^ 192 % 4 = 2) ∧
    ((decodeDesc v).type = .writeAck ↔ v.toNat / 2 ^ 192 % 4 = 3) ∧
    (encodeDesc (decodeDesc v)).toNat = v.toNat % 2 ^ 194) ∧
  ∀ p : Desc, decodeDesc (encodeDesc p) = p

/-- R41 and R431: the 32 bits of `STATUS`, and the cause codes. -/
def Obligations.StatusRegisterLayout : Prop :=
  (∀ st : Status,
    (statusWord st).toNat =
      (if st.fatal then 1 else 0) + (causeCode st.cause).toNat * 2 ^ 8 + (if st.resValid then 2 ^ 16 else 0)) ∧
  [Cause.none, .badBlockSize, .readyListFull, .longListOverflow, .rleUnrepresentable, .basePatternMissing,
    .illegalCommand, .badIndex, .dqOverrun, .streamTableFull, .completionFull, .tsqFull, .tsqEmpty,
    .badConfig].map (fun c => (causeCode c).toNat) = List.range 14

/-- R103: byte `b[8*i + j]` is bits `8*j+7 : 8*j` of `word[i]`. -/
def Obligations.BlockWordsAreLittleEndian : Prop :=
  ∀ (b : List Byte) (i j : Nat), i < 16 → j < 8 →
    ((blockWords b).getD i 0).toNat / 2 ^ (8 * j) % 2 ^ 8 = (b.getD (8 * i + j) 0).toNat

/-- R147: `LINK_TICK.d` is `LINK_STEP.d ; RATE=0x00010000`. -/
def Obligations.LinkTickIsOneFlitStep : Prop :=
  ∀ (c : CommandLine) (old : Ports), c.mnemonic = .linkTick →
    assemble c old = assemble { c with mnemonic := .linkStep, rate := some 0x00010000 } old

/-! ## Steps and the fatal state (spec 60_exceptions.md) -/

/-- A step runs the word the host's next action presents, legal or not, in the state where the ports hold what the host
drives and that action is taken from the inbox; when the word decodes to `i`, the step is `exec` of `i` there. The inbox
is the model's choice (Log 1). -/
def Obligations.StepRunsTheDecodedCommand : Prop :=
  ∀ (s : State) (p : Ports) (rest : List HostEvent), s.inbox = .command p :: rest →
    step s = runCommand { s with ports := p, inbox := rest } ∧
    ∀ i, decode p.cmd = .ok i → step s = exec i { s with ports := p, inbox := rest }

/-- The host's other actions (Log 1, Log 12): a reset latches the parameters and resets the block alone; a memory
write changes one byte alone; with no action coming the block stays as it is. -/
def Obligations.HostActionsTakeEffect : Prop :=
  ∀ s : State,
    (s.inbox = [] → step s = .next s) ∧
    (∀ p rest, s.inbox = .reset p :: rest →
      step s = .next { s with params := p, block := resetBlock p, inbox := rest }) ∧
    (∀ a b rest, s.inbox = .memWrite a b :: rest →
      ∃ m, step s = .next { s with mem := m, inbox := rest } ∧
        (memoryWf s.mem → readByte m a.toNat = b) ∧
        ∀ other, other ≠ a.toNat → readByte m other = readByte s.mem other)

/-- R423: every step of every state completes; there is no stall and no stop. -/
def Obligations.EveryStepCompletes : Prop := ∀ s : State, ∃ t, step s = .next t

/-- R434: in the fatal state a command changes no state of the block at all, and only a reset leaves the fatal
state. -/
def Obligations.FatalStateRefusesCommands : Prop :=
  ∀ s : State, s.block.status.fatal = true →
    (∀ p rest, s.inbox = .command p :: rest → step s = .next { s with ports := p, inbox := rest }) ∧
    ∀ t, step s = .next t → live t → ∃ p rest, s.inbox = .reset p :: rest

/-- R430 and R433: a command word that raises a fatal error, legal or not, leaves the state it started in, with
`STATUS.FATAL = 1`, the cause, `RES_VALID = 0` and `FATAL_CMD` the word on `CMD`, and nothing else. -/
def Obligations.FatalErrorsArePrecise : Prop :=
  ∀ s t : State, live s → runCommand s = .next t → live t ∨ ∃ c, c ≠ .none ∧ t = raised c s.ports.cmd s

/-- R432: a command raises only the causes of its row; `LINK_STEP` raises `TSQ_FULL` only if an invariant is broken,
and `TSQ_EMPTY` never. -/
def Obligations.CommandsRaiseOnlyTheirCauses : Prop :=
  ∀ (i : Instr) (s t : State), live s → exec i s = .next t → t.block.status.fatal = true →
    (t.block.status.cause ∈ causesOf i ∨ (t.block.status.cause = .tsqFull ∧ ∃ d idx, i = .linkStep d idx)) ∧
    (StateInv s → t.block.status.cause ∈ causesOf i)

/-- R61, its column of writes, for a command that raises nothing: what lies outside the block never changes, `CAT`
and `FATAL_CMD` never, `DESC_OUT` only by `LINK_POP`, `STREAMS` only by `COMPRESS`, which writes the record of stream
`A` alone, and by `LINK_STEP`, a link only by `LINK_PUSH`, which writes its ready lists alone, `LINK_POP`, which writes
its completion lists alone, and `LINK_STEP`, each on its own direction. -/
def Obligations.CommandsWriteOnlyTheirState : Prop :=
  ∀ (i : Instr) (s t : State), live s → exec i s = .next t → live t →
    t.params = s.params ∧ t.ports = s.ports ∧ t.mem = s.mem ∧ t.inbox = s.inbox ∧
    t.block.cat = s.block.cat ∧ t.block.fatalCmd = s.block.fatalCmd ∧ t.block.status.cause = s.block.status.cause ∧
    ((∀ d idx, i ≠ .linkPop d idx) → t.block.descOut = s.block.descOut) ∧
    ((∀ idx, i ≠ .compress idx) → (∀ d idx, i ≠ .linkStep d idx) → t.block.streams = s.block.streams) ∧
    (∀ d, (∀ idx, i ≠ .linkPush d idx) → (∀ idx, i ≠ .linkStep d idx) → (∀ idx, i ≠ .linkPop d idx) →
      linkOf t.block d = linkOf s.block d) ∧
    (∀ idx, i = .compress idx → ∀ sid, sid ≠ s.ports.a → mapGet t.block.streams sid = mapGet s.block.streams sid) ∧
    (∀ d idx, i = .linkPush d idx →
      linkOf t.block d = { linkOf s.block d with ready := (linkOf t.block d).ready }) ∧
    ∀ d idx, i = .linkPop d idx → linkOf t.block d = { linkOf s.block d with compl := (linkOf t.block d).compl }

/-- R420: `NOP` clears the result and changes nothing else, whatever its `IDX`; in the fatal state it is refused; a word
of its opcode with `DIR = 1` or `RSV != 0` raises `ILLEGAL_COMMAND`. -/
def Obligations.NopClearsTheResult : Prop :=
  ∀ (s : State) (idx : BitVec 16),
    encode (.nop idx) = commandWord 0x00 0 idx ∧
    (live s → exec (.nop idx) s = .next (returningNothing s)) ∧
    (s.block.status.fatal = true → exec (.nop idx) s = .next s) ∧
    (live s → s.ports.cmd.toNat / 2 ^ 24 = 0 → s.ports.cmd.toNat / 2 ^ 16 % 2 ^ 8 ≠ 0 →
      runCommand s = .next (raised .illegalCommand s.ports.cmd s))

/-! ## The classifier (spec 40_classifier.md) -/

/-- R200 to R203: `ZERO`, `ONES`, `REPBYTE` (every byte equals the lowest; `0` and `M64` satisfy it) and `ONEHOT`
(`w != 0` and `w & (w - 1) = 0`; equivalently exactly one of the 64 bits is 1). -/
def Obligations.WordPredicatesMeanTheirProperties : Prop :=
  (∀ w : Word, predHolds .zero w = true ↔ w.toNat = 0) ∧
  (∀ w : Word, predHolds .ones w = true ↔ w.toNat = 0xFFFFFFFFFFFFFFFF) ∧
  (∀ w : Word, predHolds .repByte w = true ↔
    ∀ j, 1 ≤ j → j ≤ 7 → w.toNat / 2 ^ (8 * j) % 2 ^ 8 = w.toNat % 2 ^ 8) ∧
  predHolds .repByte 0 = true ∧ predHolds .repByte m64 = true ∧
  (∀ w : Word, predHolds .oneHot w = true ↔ w ≠ 0 ∧ w &&& (w - 1) = 0) ∧
  ∀ w : Word, predHolds .oneHot w = true ↔ ∃ i < 64, w.toNat = 2 ^ i

/-- R204 (the spec marks this reading as general knowledge, Log 16): for `2 <= k <= 63`, `SE_k(w)` holds exactly when
bits 63 down to `k-1` are all 0 or all 1. -/
def Obligations.SignExtIsEqualUpperBits : Prop :=
  ∀ (k : Nat) (w : Word), 2 ≤ k → k ≤ 63 →
    (predHolds (.signExt k) w = true ↔
      w.toNat / 2 ^ (k - 1) = 0 ∨ w.toNat / 2 ^ (k - 1) = 2 ^ (65 - k) - 1)

/-- R209 and R210: a pattern of level `L > 0` matches when some set of `L` distinct window positions gives a delta its
predicate holds of; a pattern of level 0 tests the word alone; an entry's predicate is `PRED_LIST[PRED]`. -/
def Obligations.MatchIsSomeCombination : Prop :=
  (∀ (q : Predicate) (L : Nat) (win : List Word) (w : Word),
    (L = 0 → levelMatches q L win w = predHolds q w) ∧
    (L ≠ 0 → (levelMatches q L win w = true ↔
      ∃ S : Finset (Fin win.length), S.card = L ∧ predHolds q (deltaUnder win S w) = true))) ∧
  ∀ (p : Params) (e : CatEntry) (pe : PredEntry) (win : List Word) (w : Word),
    p.predList[e.pred.toNat]? = some pe → patternMatches p e win w = levelMatches pe.pred e.level.toNat win w

/-- R206 and R207, with R8 and R11 for `LB = ceil_log2(D)`, the least `r` with `2^r >= D`: the catalog of a valid
configuration holds the pattern of every predicate at every level 0 to 3
once, with its `ID`, `PRED`, `LEVEL` and `ENC`, and nothing else, in strictly ascending order of the key. -/
def Obligations.CatalogIsEveryPatternSorted : Prop :=
  ∀ p : Params, validConfig p = true →
    (∀ r, historyBits p ≤ r ↔ p.histDepth ≤ 2 ^ r) ∧
    (buildCatalog p).length = 4 * p.predList.length ∧
    (∀ q L pe, p.predList[q]? = some pe → L ≤ 3 →
      ∃ e ∈ buildCatalog p, e.id.toNat = 4 * q + L ∧ e.pred.toNat = q ∧ e.level.toNat = L ∧
        e.enc.toNat = pe.dataSize + L * historyBits p) ∧
    (buildCatalog p).Pairwise keyBefore

/-- R213: the entry charged is the first in the catalog that matches, and a word escapes exactly when none matches. As
R208 then says, in the catalog of R207 no matching entry costs less. -/
def Obligations.ClassifyIsCheapestMatch : Prop :=
  (∀ (p : Params) (cat : List CatEntry) (win : List Word) (w : Word),
    (∀ m, classify p cat win w = some m ↔
      ∃ c : Nat, cat[c]? = some m ∧ patternMatches p m win w = true ∧
        ∀ j < c, ∀ e, cat[j]? = some e → patternMatches p e win w = false) ∧
    (classify p cat win w = none ↔ ∀ e ∈ cat, patternMatches p e win w = false)) ∧
  ∀ (p : Params) (win : List Word) (w : Word) (m e : CatEntry),
    classify p (buildCatalog p) win w = some m → e ∈ buildCatalog p → patternMatches p e win w = true →
    m.enc.toNat ≤ e.enc.toNat

/-- R214: `PRED` answers whether predicate `IDX` holds of `A`; an index out of range raises `BAD_INDEX`. -/
def Obligations.PredTestsOnePredicate : Prop :=
  ∀ (s : State) (idx : BitVec 16), live s →
    encode (.pred idx) = commandWord 0x01 0 idx ∧
    (∀ pe, s.params.predList[idx.toNat]? = some pe →
      exec (.pred idx) s = .next (returning (if predHolds pe.pred s.ports.a then 1 else 0) s)) ∧
    (nPred s.params ≤ idx.toNat → exec (.pred idx) s = .next (raised .badIndex (encode (.pred idx)) s))

/-- R215: `MATCH` answers whether the pattern with `ID = IDX` matches `B` in the window of stream `A`, an absent stream
showing its initial window; an index out of range raises `BAD_INDEX`. -/
def Obligations.MatchAnswersThePattern : Prop :=
  ∀ (s : State) (idx : BitVec 16), live s →
    encode (.matchPat idx) = commandWord 0x02 0 idx ∧
    (∀ pe, validConfig s.params = true → s.block.cat = buildCatalog s.params →
      s.params.predList[idx.toNat / 4]? = some pe →
      exec (.matchPat idx) s =
        .next (returning
          (if levelMatches pe.pred (idx.toNat % 4) (windowSeen s.params s.block.streams s.ports.a) s.ports.b
            then 1 else 0) s)) ∧
    (nPat s.params ≤ idx.toNat → exec (.matchPat idx) s = .next (raised .badIndex (encode (.matchPat idx)) s))

/-- R216 and R140: `CAT_READ` answers `CAT[IDX]` in the layout of R140; an index out of range raises `BAD_INDEX`. -/
def Obligations.CatReadAnswersTheEntry : Prop :=
  ∀ (s : State) (idx : BitVec 16), live s →
    encode (.catRead idx) = commandWord 0x07 0 idx ∧
    (∀ e, idx.toNat < nPat s.params → s.block.cat[idx.toNat]? = some e →
      exec (.catRead idx) s =
        .next (returning
          (BitVec.ofNat 64
            (e.enc.toNat + e.id.toNat * 2 ^ 16 + e.level.toNat * 2 ^ 24 + e.pred.toNat * 2 ^ 32)) s)) ∧
    (nPat s.params ≤ idx.toNat → exec (.catRead idx) s = .next (raised .badIndex (encode (.catRead idx)) s))

/-! ## The stream compressor (spec 41_stream_compressor.md) -/

/-- R263: a matched word counts one hit of its pattern and costs the entry's `ENC`; an escaped word counts one escape,
one occurrence of the word, and costs 65. Either counts one word and leaves the window. -/
def Obligations.AccountChargesOneWord : Prop :=
  ∀ (p : Params) (cat : List CatEntry) (st : StreamRecord) (w : Word),
    (∀ m, classify p cat st.win w = some m → m.id.toNat < st.hits.length →
      account p cat st w =
        (m.enc.toNat,
          { st with hits := st.hits.set m.id.toNat (st.hits.getD m.id.toNat 0 + 1), words := st.words + 1 })) ∧
    (classify p cat st.win w = none →
      ∃ v, account p cat st w = (65, { st with esc := st.esc + 1, escv := v, words := st.words + 1 }) ∧
        mapGet v w = some ((mapGet st.escv w).getD 0 + 1) ∧ ∀ u, u ≠ w → mapGet v u = mapGet st.escv u)

/-- R264: after any words the window holds the last `D` raw words, the oldest first. -/
def Obligations.WindowHoldsTheLastWords : Prop :=
  ∀ (p : Params) (cat : List CatEntry) (ws : List Word) (st : StreamRecord), st.win ≠ [] →
    (compressWords p cat ws st).2.win = (st.win ++ ws).drop ws.length

/-- R262, R266, R267, R260: `COMPRESS` of a 128-byte block answers the total of the loop of R262 over its 16 words and
stores the stream's record, created with the value of R49 if absent; no other stream changes, and `B` is not read. A size that is not 128
raises `BAD_BLOCK_SIZE`, and a new stream in a full table `STREAM_TABLE_FULL`. -/
def Obligations.CompressChargesTheBlock : Prop :=
  ∀ (s : State) (idx : BitVec 16), live s →
    encode (.compress idx) = commandWord 0x03 0 idx ∧
    (∀ st, idx.toNat = 128 →
      (mapGet s.block.streams s.ports.a = some st ∨
        (mapGet s.block.streams s.ports.a = none ∧
          st = { win := 0xFFFFFFFFFFFFFFFF :: List.replicate (s.params.histDepth - 1) 0, words := 0,
                 hits := List.replicate (4 * s.params.predList.length) 0, esc := 0, escv := [] } ∧
          ∀ c, s.params.maxStreams = some c → s.block.streams.length ≠ c)) →
      ∃ m,
        exec (.compress idx) s =
          .next (withStreams m (returning
            (BitVec.ofNat 64
              (compressLoop s.params s.block.cat (blockWords s.ports.blk.toList) st).1) s)) ∧
        mapGet m s.ports.a =
          some (compressLoop s.params s.block.cat (blockWords s.ports.blk.toList) st).2 ∧
        ∀ sid, sid ≠ s.ports.a → mapGet m sid = mapGet s.block.streams sid) ∧
    (idx.toNat ≠ 128 → exec (.compress idx) s = .next (raised .badBlockSize (encode (.compress idx)) s)) ∧
    (idx.toNat = 128 → mapGet s.block.streams s.ports.a = none →
      s.params.maxStreams = some s.block.streams.length →
      exec (.compress idx) s = .next (raised .streamTableFull (encode (.compress idx)) s))

/-- R265, the spec's derived bounds. The upper bound holds of every configuration; the lower one needs the cheapest
pattern to cost no more than the escape, which R265 does not say and every default does (NOTES.md). With the default
parameters the result lies between 32 and 1040. -/
def Obligations.CompressedSizeBounds : Prop :=
  (∀ (p : Params) (m m' : WordMap StreamRecord) (sid : Word) (b : List Byte) (n : Nat),
    compressBlock p (buildCatalog p) m sid b = .ok (n, m') →
    (∀ u, 65 ≤ u → (∀ e ∈ buildCatalog p, e.enc.toNat ≤ u) → n ≤ 16 * u) ∧
    (∀ e, (buildCatalog p)[0]? = some e → e.enc.toNat ≤ 65 → 16 * e.enc.toNat ≤ n)) ∧
  ∀ (m m' : WordMap StreamRecord) (sid : Word) (b : List Byte) (n : Nat),
    compressBlock defaultParams (buildCatalog defaultParams) m sid b = .ok (n, m') → 32 ≤ n ∧ n ≤ 1040

/-- R272, the spec's derived property: when `ZERO` is predicate 0 and no predicate has a smaller `data_size`, an
all-zero block costs 16 times that size whatever the stream's window, and adds 16 to the hits of pattern 0 and to the
words, and nothing to any other counter. -/
def Obligations.ZeroBlockCostsSixteenZeros : Prop :=
  ∀ (p : Params) (n : Nat) (st : StreamRecord), validConfig p = true → p.predList[0]? = some ⟨.zero, n⟩ →
    (∀ pe ∈ p.predList, n ≤ pe.dataSize) → st.hits.length = nPat p →
    (compressWords p (buildCatalog p) (List.replicate 16 0) st).1 = 16 * n ∧
    (compressWords p (buildCatalog p) (List.replicate 16 0) st).2.hits = st.hits.set 0 (st.hits.getD 0 0 + 16) ∧
    (compressWords p (buildCatalog p) (List.replicate 16 0) st).2.words = st.words + 16 ∧
    (compressWords p (buildCatalog p) (List.replicate 16 0) st).2.esc = st.esc ∧
    (compressWords p (buildCatalog p) (List.replicate 16 0) st).2.escv = st.escv

/-- R268: `WIN_READ` answers entry `IDX` of stream `A`'s window, for an absent stream `M64` at position 0 and 0
elsewhere; an index out of range raises `BAD_INDEX`. -/
def Obligations.WinReadAnswersTheWindow : Prop :=
  ∀ (s : State) (idx : BitVec 16), live s →
    encode (.winRead idx) = commandWord 0x08 0 idx ∧
    (∀ st, idx.toNat < s.params.histDepth → mapGet s.block.streams s.ports.a = some st →
      exec (.winRead idx) s = .next (returning (st.win.getD idx.toNat 0) s)) ∧
    (idx.toNat < s.params.histDepth → mapGet s.block.streams s.ports.a = none →
      exec (.winRead idx) s = .next (returning (if idx.toNat = 0 then m64 else 0) s)) ∧
    (s.params.histDepth ≤ idx.toNat → exec (.winRead idx) s = .next (raised .badIndex (encode (.winRead idx)) s))

/-- R269 and R141: `PROF_READ` answers the selected counter of stream `A` modulo 2^64, 0 for an absent stream; a
selector out of range raises `BAD_INDEX`. -/
def Obligations.ProfReadAnswersTheCounter : Prop :=
  ∀ (s : State) (idx : BitVec 16), live s →
    encode (.profRead idx) = commandWord 0x05 0 idx ∧
    (selectorInRange s.params idx →
      exec (.profRead idx) s =
        .next (returning (BitVec.ofNat 64 (selectedCounter idx s.ports.b s.block.streams s.ports.a)) s)) ∧
    (¬ selectorInRange s.params idx →
      exec (.profRead idx) s = .next (raised .badIndex (encode (.profRead idx)) s))

/-- R270: `PROF_GLOBAL` answers, modulo 2^64, the sum over every stream whose bit 63 is that of `A` of the value R269
gives for it; a selector out of range raises `BAD_INDEX`. -/
def Obligations.ProfGlobalSumsTheClass : Prop :=
  ∀ (s : State) (idx : BitVec 16), live s →
    encode (.profGlobal idx) = commandWord 0x06 0 idx ∧
    (mapWf s.block.streams → selectorInRange s.params idx →
      exec (.profGlobal idx) s =
        .next (returning
          (BitVec.ofNat 64
            (((s.block.streams.map Prod.fst).filter
                  (fun sid => sid.toNat / 2 ^ 63 == s.ports.a.toNat / 2 ^ 63)).map
                (selectedCounter idx s.ports.b s.block.streams)).sum) s)) ∧
    (¬ selectorInRange s.params idx →
      exec (.profGlobal idx) s = .next (raised .badIndex (encode (.profGlobal idx)) s))

/-! ## The delay queues (spec 42_delay_queues.md) -/

/-- R301 and R302: while it has room, `DQ` is a FIFO of the flits in flight: a push adds the newest, a pop takes the
oldest and returns its payload if it is a tail flit. -/
def Obligations.DelayQueueIsFifo : Prop :=
  ∀ (q : DelayQueue) (f : Flit), q.rp ≤ q.wp →
    (q.wp - q.rp < q.slot.length → flitsInFlight (dqPush f q) = flitsInFlight q ++ [f]) ∧
    (q.rp < q.wp → q.wp - q.rp ≤ q.slot.length →
      ∃ g rest, flitsInFlight q = g :: rest ∧ flitsInFlight (dqPop q).2 = rest ∧
        (dqPop q).1 = if g.tail then g.payload else none)

/-- R304, the spec's derived timing law: when every step pops and then pushes the same number of flits, at most `L`,
pop number `m` returns what push number `m - L` delivers, and nothing for `m < L`. -/
def Obligations.DelayQueueTimingLaw : Prop :=
  ∀ (p : Params) (batches : List (List Flit)), 1 ≤ p.dqLatency → (∀ b ∈ batches, b.length ≤ p.dqLatency) →
    runBatches batches (dqInit p) =
      ((List.replicate p.dqLatency none) ++
        batches.flatten.map (fun f : Flit => if f.tail then f.payload else none)).take batches.flatten.length

/-- R307, R308, R310: an entry pushed on the empty holder at `NOW = t` is returned by `tsq_top` exactly from
`NOW = t + CL + 1` on. -/
def Obligations.TimestampQueueTimingLaw : Prop :=
  ∀ (d : Desc) (size src t cl now : Nat) (q : TimestampQueue), q.n = 0 → q.wp = q.rp → q.entry ≠ [] →
    ∃ q', tsqPush d size src t q = .ok q' ∧ q'.n = 1 ∧
      tsqTop cl now q' =
        if t + cl + 1 ≤ now then some { payload := d, size := size, src := src, time := t } else none

/-! ## The link (spec 43_link.md) -/

/-- R347: `first_rr` returns the first source of `ptr, ptr + 1, …, ptr - 1` that is eligible, none when none is. -/
def Obligations.RoundRobinServesTheFirst : Prop :=
  ∀ (n ptr : Nat) (ok : Nat → Bool), ptr < n →
    (∀ s, firstRr n ptr ok = some s ↔
      ∃ j < n, s = (ptr + j) % n ∧ ok s = true ∧ ∀ i < j, ok ((ptr + i) % n) = false) ∧
    (firstRr n ptr ok = none ↔ ∀ s < n, ok s = false)

/-- R345 and R302: one pop attempt takes the oldest flit in flight, makes its slot a filler flit and advances `RP`; a
tail flit's payload joins the list of its destination, and into a full list it raises `COMPLETION_FULL`; any other flit
delivers nothing. Nothing else on the link changes. -/
def Obligations.PopDeliversTailFlits : Prop :=
  ∀ (p : Params) (l : Link) (g : Flit) (rest : List Flit),
    flitsInFlight l.dq = g :: rest → l.dq.wp - l.dq.rp ≤ l.dq.slot.length →
    ((if g.tail then g.payload else none) = none →
      ∃ l', popOnce p l = .ok l' ∧ l' = { l with dq := l'.dq } ∧ l'.dq = oldestCleared l.dq ∧
        flitsInFlight l'.dq = rest) ∧
    (∀ d, g.tail = true → g.payload = some d → d.dst.toNat < l.compl.length →
      (∀ c, p.complDepth = some c → (complOf l d.dst.toNat).length ≠ c) →
      ∃ l', popOnce p l = .ok l' ∧ l' = { l with dq := l'.dq, compl := l'.compl } ∧
        l'.dq = oldestCleared l.dq ∧ flitsInFlight l'.dq = rest ∧
        complOf l' d.dst.toNat = complOf l d.dst.toNat ++ [d] ∧
        ∀ t, t ≠ d.dst.toNat → complOf l' t = complOf l t) ∧
    (∀ d, g.tail = true → g.payload = some d → p.complDepth = some (complOf l d.dst.toNat).length →
      popOnce p l = .error .completionFull)

/-- R348: a packet of `bits` payload bits has `F + bits - LEFT` bits; its flits are that rounded up, the new leftover
fills the last flit, the payload is in progress from offset 0, the packet is counted by its flits, and nothing else
changes. -/
def Obligations.PacketAccounting : Prop :=
  ∀ (d : Desc) (bits : Nat) (l : Link), l.left < 128 →
    ∃ nfl left, startPacket d bits l =
        { l with
          nfl := nfl, left := left, cur := some d, off := 0
          stats :=
            { l.stats with
              pktsSingle := l.stats.pktsSingle + (if nfl = 1 then 1 else 0)
              pktsMulti := l.stats.pktsMulti + (if nfl = 1 then 0 else 1) } } ∧
      nfl * 128 = 128 + bits - l.left + left ∧ left < 128 ∧ 1 ≤ nfl

/-- R346 (a) and R350: a payload in progress continues before anything else: the next flit carries it, is head at
offset 0 and tail at offset `NFL - 1`, after which the link is idle; nothing else on the link changes. -/
def Obligations.SlotContinuesThePayload : Prop :=
  ∀ (p : Params) (pol : Policy) (l : Link) (d : Desc), l.cur = some d → l.off < l.nfl → ringRoom l.dq →
    ∃ l', fillSlot p pol l = .ok l' ∧
      l' = { l with dq := l'.dq, stats := l'.stats, cur := l'.cur, off := l'.off, nfl := l'.nfl } ∧
      l'.dq.rp = l.dq.rp ∧ l'.dq.wp = l.dq.wp + 1 ∧
      flitsInFlight l'.dq =
        flitsInFlight l.dq ++ [{ payload := some d, head := l.off == 0, tail := l.off + 1 == l.nfl }] ∧
      l'.stats = { l.stats with flitsReal := l.stats.flitsReal + 1 } ∧
      (l.off + 1 = l.nfl → l'.cur = none ∧ l'.off = 0 ∧ l'.nfl = 0) ∧
      (l.off + 1 ≠ l.nfl → l'.cur = some d ∧ l'.off = l.off + 1 ∧ l'.nfl = l.nfl)

/-- R346 (b): an idle compressed link with no leftover sends the oldest short payload of the first source in
round-robin order that has one, in one flit, and moves `RR` past that source. -/
def Obligations.SlotSendsShortTraffic : Prop :=
  ∀ (p : Params) (pol : Policy) (l : Link) (s : Nat) (d : Desc) (rest : List Desc),
    pol ≠ .plain → l.cur = none → l.left = 0 → l.ready.length = p.nSrc → ringRoom l.dq →
    firstRr p.nSrc l.rr (fun s => !(readyOf l s).short.isEmpty) = some s → (readyOf l s).short = d :: rest →
    ∃ l', fillSlot p pol l = .ok l' ∧
      flitsInFlight l'.dq = flitsInFlight l.dq ++ [{ payload := some d, head := true, tail := true }] ∧
      l' = { l with dq := l'.dq, stats := l'.stats, nfl := 0, off := 0, ready := l'.ready,
                    rr := (s + 1) % p.nSrc } ∧
      readyOf l' s = { readyOf l s with short := rest } ∧ (∀ t, t ≠ s → readyOf l' t = readyOf l t) ∧
      l'.stats =
        { l.stats with flitsReal := l.stats.flitsReal + 1, pktsSingle := l.stats.pktsSingle + 1 }

/-- R346 (c): an idle compressed link with no eligible short payload starts the held payload once it is ready, which
empties the holder and its source's long slot. -/
def Obligations.SlotStartsTheHeldPayload : Prop :=
  ∀ (p : Params) (pol : Policy) (l : Link) (e : TsqEntry),
    pol ≠ .plain → l.cur = none → l.rr < p.nSrc → l.ready.length = p.nSrc → e.src < p.nSrc → l.left < 128 →
    ringRoom l.dq →
    (l.left ≠ 0 ∨ ∀ s < p.nSrc, (readyOf l s).short = []) →
    tsqTop p.compLatency l.now l.tsq = some e →
    ∃ l', fillSlot p pol l = .ok l' ∧
      flitsInFlight l'.dq =
        flitsInFlight l.dq ++
          [{ payload := some e.payload, head := true, tail := decide (128 + e.size - l.left ≤ 128) }] ∧
      l' = { l with dq := l'.dq, stats := l'.stats, cur := l'.cur, nfl := l'.nfl, off := l'.off, ready := l'.ready,
                    tsq := l'.tsq, left := l'.left } ∧
      l'.tsq.n = l.tsq.n - 1 ∧ l'.left = (128 - (128 + e.size - l.left) % 128) % 128 ∧
      readyOf l' e.src = { readyOf l e.src with long := .empty } ∧ (∀ t, t ≠ e.src → readyOf l' t = readyOf l t) ∧
      (128 < 128 + e.size - l.left →
        l'.cur = some e.payload ∧ l'.off = 1 ∧ l'.nfl = (128 + e.size - l.left + 127) / 128 ∧
          l'.stats = { l.stats with flitsReal := l.stats.flitsReal + 1, pktsMulti := l.stats.pktsMulti + 1 }) ∧
      (128 + e.size - l.left ≤ 128 →
        l'.cur = none ∧ l'.off = 0 ∧ l'.nfl = 0 ∧
          l'.stats = { l.stats with flitsReal := l.stats.flitsReal + 1, pktsSingle := l.stats.pktsSingle + 1 })

/-- R346 (d) and R349: an idle link with nothing ready pushes a filler flit, counts it, and discards the leftover. -/
def Obligations.SlotFillsWithFiller : Prop :=
  ∀ (p : Params) (pol : Policy) (l : Link), l.cur = none → l.rr < p.nSrc → ringRoom l.dq →
    (pol = .plain → ∀ s < p.nSrc, (readyOf l s).plain = []) →
    (pol ≠ .plain → (l.left ≠ 0 ∨ ∀ s < p.nSrc, (readyOf l s).short = []) ∧
      tsqTop p.compLatency l.now l.tsq = none) →
    ∃ l', fillSlot p pol l = .ok l' ∧
      flitsInFlight l'.dq = flitsInFlight l.dq ++ [{ payload := none, head := false, tail := false }] ∧
      l' = { l with dq := l'.dq, left := 0, stats := { l.stats with flitsFiller := l.stats.flitsFiller + 1 } }

/-- R346 and R351, the `PLAIN` policy: an idle link sends the oldest payload of the first source in round-robin order
that has one, whatever its class, in whole flits. -/
def Obligations.SlotSendsPlainTraffic : Prop :=
  ∀ (p : Params) (l : Link) (s : Nat) (d : Desc) (rest : List Desc),
    l.cur = none → l.left = 0 → l.ready.length = p.nSrc → ringRoom l.dq →
    firstRr p.nSrc l.rr (fun s => !(readyOf l s).plain.isEmpty) = some s → (readyOf l s).plain = d :: rest →
    ∃ l' bits, fillSlot p .plain l = .ok l' ∧
      bits = (if isLong d then 128 * ((d.size.toNat * 8 + 127) / 128) else 0) ∧
      flitsInFlight l'.dq =
        flitsInFlight l.dq ++ [{ payload := some d, head := true, tail := decide (bits = 0) }] ∧
      l' = { l with dq := l'.dq, stats := l'.stats, cur := l'.cur, nfl := l'.nfl, off := l'.off, ready := l'.ready,
                    rr := (s + 1) % p.nSrc } ∧
      readyOf l' s = { readyOf l s with plain := rest } ∧
      (∀ t, t ≠ s → readyOf l' t = readyOf l t) ∧
      (bits ≠ 0 →
        l'.cur = some d ∧ l'.off = 1 ∧ l'.nfl = 1 + bits / 128 ∧
          l'.stats = { l.stats with flitsReal := l.stats.flitsReal + 1, pktsMulti := l.stats.pktsMulti + 1 }) ∧
      (bits = 0 →
        l'.cur = none ∧ l'.off = 0 ∧ l'.nfl = 0 ∧
          l'.stats = { l.stats with flitsReal := l.stats.flitsReal + 1, pktsSingle := l.stats.pktsSingle + 1 })

/-- R352, R353, R354: with an empty holder, the compression phase of a compressed policy takes the first pending long
payload in the order of `CRR`; a payload of 128 bytes costs what the compressor says of its bytes in memory, any other
8 bits a byte without touching a stream; `UNPACKED` rounds up to whole flits; the entry is held at the time of the step.
With a held payload, no pending one, or the `PLAIN` policy, the phase does nothing. A full stream table is the phase's
error. -/
def Obligations.CompressionPhaseHoldsOnePayload : Prop :=
  ∀ (p : Params) (pol : Policy) (cat : List CatEntry) (mem : Memory) (m : WordMap StreamRecord) (l : Link),
    l.crr < p.nSrc → l.ready.length = p.nSrc → l.tsq.wp = l.tsq.rp + l.tsq.n → l.tsq.entry ≠ [] →
    ((pol = .plain ∨ 0 < l.tsq.n ∨ ∀ s < p.nSrc, ∀ d, (readyOf l s).long ≠ .pending d) →
      compressionPhase p pol cat mem m l = .ok (l, m)) ∧
    (∀ s d bits m', pol ≠ .plain → l.tsq.n = 0 →
      (∃ j < p.nSrc, s = (l.crr + j) % p.nSrc ∧ (readyOf l s).long = .pending d ∧
        ∀ i < j, ∀ d', (readyOf l ((l.crr + i) % p.nSrc)).long ≠ .pending d') →
      ((d.size.toNat = 128 ∧ compressBlock p cat m d.sid (memRead mem d.addr 128) = .ok (bits, m')) ∨
        (d.size.toNat ≠ 128 ∧ bits = d.size.toNat * 8 ∧ m' = m)) →
      ∃ l', compressionPhase p pol cat mem m l = .ok (l', m') ∧
        l' = { l with ready := l'.ready, tsq := l'.tsq, crr := l'.crr } ∧
        heldEntry l'.tsq =
          some { payload := d, size := if pol = .unpacked then 128 * ((bits + 127) / 128) else bits, src := s,
                 time := l.now } ∧
        l'.crr = (s + 1) % p.nSrc ∧ readyOf l' s = { readyOf l s with long := .held } ∧
        ∀ t, t ≠ s → readyOf l' t = readyOf l t) ∧
    (∀ s d c, pol ≠ .plain → l.tsq.n = 0 →
      (∃ j < p.nSrc, s = (l.crr + j) % p.nSrc ∧ (readyOf l s).long = .pending d ∧
        ∀ i < j, ∀ d', (readyOf l ((l.crr + i) % p.nSrc)).long ≠ .pending d') →
      d.size.toNat = 128 → compressBlock p cat m d.sid (memRead mem d.addr 128) = .error c →
      compressionPhase p pol cat mem m l = .error c)

/-- R342 (with R51): `LINK_PUSH` of a payload the ready list has room for appends it to the plain list, the long slot or
the short list of source `IDX`, clears the result, and changes nothing else. `POLICY_UP` governs UP and `POLICY_DN` DN
(R340); write requests and read replies are the long payloads, the spec's general knowledge, which the model presumes
(R341, Log 16). -/
def Obligations.LinkPushAdmitsThePayload : Prop :=
  (∀ p : Params, policyOf p .up = p.policyUp ∧ policyOf p .dn = p.policyDn) ∧
  (∀ q : Desc, isLong q = true ↔ carriesData q) ∧
  ∀ (s : State) (d : Dir) (idx : BitVec 16), live s → pushAllowed s d idx →
    (linkOf s.block d).ready.length = s.params.nSrc →
    ∃ l, exec (.linkPush d idx) s = .next (withLink d l (returningNothing s)) ∧
      l = { linkOf s.block d with ready := l.ready } ∧
      (∀ t, t ≠ idx.toNat → readyOf l t = readyOf (linkOf s.block d) t) ∧
      readyOf l idx.toNat =
        if (if d = .up then s.params.policyUp else s.params.policyDn) = .plain then
          { readyOf (linkOf s.block d) idx.toNat with
            plain := (readyOf (linkOf s.block d) idx.toNat).plain ++ [decodeDesc s.ports.descIn] }
        else if carriesData (decodeDesc s.ports.descIn) then
          { readyOf (linkOf s.block d) idx.toNat with long := .pending (decodeDesc s.ports.descIn) }
        else
          { readyOf (linkOf s.block d) idx.toNat with
            short := (readyOf (linkOf s.block d) idx.toNat).short ++ [decodeDesc s.ports.descIn] }

/-- R342 and R435: the fatal errors of `LINK_PUSH`, in their order: `BAD_INDEX` for the source or the destination, then
`READY_LIST_FULL` or `LONG_LIST_OVERFLOW`. -/
def Obligations.LinkPushFatalErrors : Prop :=
  ∀ (s : State) (d : Dir) (idx : BitVec 16), live s →
    encode (.linkPush d idx) = commandWord 0x10 (dirNumber d) idx ∧
    (s.params.nSrc ≤ idx.toNat ∨ s.params.nDst ≤ (decodeDesc s.ports.descIn).dst.toNat →
      exec (.linkPush d idx) s = .next (raised .badIndex (encode (.linkPush d idx)) s)) ∧
    (idx.toNat < s.params.nSrc → (decodeDesc s.ports.descIn).dst.toNat < s.params.nDst →
      (policyOf s.params d = .plain →
        (readyOf (linkOf s.block d) idx.toNat).plain.length = s.params.plainDepth →
        exec (.linkPush d idx) s = .next (raised .readyListFull (encode (.linkPush d idx)) s)) ∧
      (policyOf s.params d ≠ .plain → isLong (decodeDesc s.ports.descIn) = true →
        (readyOf (linkOf s.block d) idx.toNat).long ≠ .empty →
        exec (.linkPush d idx) s = .next (raised .longListOverflow (encode (.linkPush d idx)) s)) ∧
      (policyOf s.params d ≠ .plain → isLong (decodeDesc s.ports.descIn) = false →
        (readyOf (linkOf s.block d) idx.toNat).short.length = 4 →
        exec (.linkPush d idx) s = .next (raised .readyListFull (encode (.linkPush d idx)) s)))

/-- R343, R344, R352 to R356, with the host's obligations R476 and R479: in a state that meets the invariants, a
`LINK_STEP` whose budget `k` is at most `L` and which has room completes, with the result `k`. The next link is `k` pops,
then `k` flit slots, then `FLITS_TOTAL + k`, then the compression phase, then `NOW + 1`; `RP`, `WP` and `FLITS_TOTAL`
advance by `k` and the fraction is carried. Only the record of the stream of a 128-byte payload pending after the push
phase changes, and with no such payload no record does. -/
def Obligations.LinkStepCompletes : Prop :=
  ∀ (s : State) (d : Dir) (idx : BitVec 16), live s → StateInv s → rateAllowed s d →
    completionRoom s d → streamRoom s d →
    ∃ popped pushed held m,
      exec (.linkStep d idx) s =
        .next (withStreams m
          (withLink d { held with now := held.now + 1 } (returning (BitVec.ofNat 64 (stepBudget s d)) s))) ∧
      repeats (popOnce s.params) (stepBudget s d) { linkOf s.block d with acc := stepFraction s d } popped ∧
      repeats (fillSlot s.params (policyOf s.params d)) (stepBudget s d) popped pushed ∧
      compressionPhase s.params (policyOf s.params d) s.block.cat s.mem s.block.streams
        { pushed with stats := { pushed.stats with flitsTotal := pushed.stats.flitsTotal + stepBudget s d } } =
          .ok (held, m) ∧
      held.now = (linkOf s.block d).now ∧ held.acc = stepFraction s d ∧
      held.stats.flitsTotal = (linkOf s.block d).stats.flitsTotal + stepBudget s d ∧
      held.dq.rp = (linkOf s.block d).dq.rp + stepBudget s d ∧
      held.dq.wp = (linkOf s.block d).dq.wp + stepBudget s d ∧
      (∀ src q, pendingSource s.params (policyOf s.params d) pushed = some (src, q) → q.size.toNat = 128 →
        ∀ sid, sid ≠ q.sid → mapGet m sid = mapGet s.block.streams sid) ∧
      ((∀ src q, pendingSource s.params (policyOf s.params d) pushed = some (src, q) → q.size.toNat ≠ 128) →
        m = s.block.streams)

/-- R344 and R476: the budget is `(ACC + RATE) div 2^16` and the remainder becomes `ACC`; `LINK_STEP` raises
`DQ_OVERRUN` exactly when the budget is above `L`, and then changes nothing else, `ACC` included. -/
def Obligations.StepBudgetAndOverrun : Prop :=
  (∀ (p : Params) (acc : BitVec 16) (rate : BitVec 32) (k : Nat) (acc' : BitVec 16),
    budget p acc rate = .ok (k, acc') ↔
      (k = (acc.toNat + rate.toNat) / 2 ^ 16 ∧ k ≤ p.dqLatency ∧
        k * 2 ^ 16 + acc'.toNat = acc.toNat + rate.toNat)) ∧
  ∀ (s : State) (d : Dir) (idx : BitVec 16), live s →
    encode (.linkStep d idx) = commandWord 0x11 (dirNumber d) idx ∧
    (exec (.linkStep d idx) s = .next (raised .dqOverrun (encode (.linkStep d idx)) s) ↔ ¬ rateAllowed s d)

/-- R357, the spec's derived conservation. A step of any link whose counters agree keeps them so: it pops, pushes and
counts `k` flits, and `2^16 * FLITS_TOTAL + ACC` grows by the rate and `NOW` by 1. Over any commands in a row that raise
nothing, so the pushes, the pops and every other command leaving those counts, they grow by the rates of the steps on
the link: from 0, `FLITS_TOTAL` is `(r_1 + … + r_m) div 2^16` and `NOW` is `m`. -/
def Obligations.FlitConservation : Prop :=
  (∀ (p : Params) (pol : Policy) (cat : List CatEntry) (mem : Memory) (rate : BitVec 32)
    (m m' : WordMap StreamRecord) (l l' : Link) (k : Nat),
    flitCounts p l → stepLink p pol cat mem rate m l = .ok (k, l', m') →
    flitCounts p l' ∧ l'.stats.flitsTotal = l.stats.flitsTotal + k ∧ l'.now = l.now + 1 ∧
    2 ^ 16 * l'.stats.flitsTotal + l'.acc.toNat = 2 ^ 16 * l.stats.flitsTotal + l.acc.toNat + rate.toNat) ∧
  ∀ (cs : List (Instr × Ports)) (s t : State) (d : Dir), live s → flitCounts s.params (linkOf s.block d) →
    runCommands cs s t →
    flitCounts t.params (linkOf t.block d) ∧
    (linkOf t.block d).now = (linkOf s.block d).now + (cs.filterMap (stepRate d)).length ∧
    2 ^ 16 * (linkOf t.block d).stats.flitsTotal + (linkOf t.block d).acc.toNat =
      2 ^ 16 * (linkOf s.block d).stats.flitsTotal + (linkOf s.block d).acc.toNat +
        (cs.filterMap (stepRate d)).sum ∧
    ((linkOf s.block d).stats.flitsTotal = 0 → (linkOf s.block d).acc = 0 →
      (linkOf t.block d).stats.flitsTotal = (cs.filterMap (stepRate d)).sum / 2 ^ 16)

/-- R358: `LINK_POP` delivers the oldest payload of list `IDX` on `DESC_OUT` with `RES = 1`; on an empty list it
returns no value and `DESC_OUT` keeps its own; an index out of range raises `BAD_INDEX`. -/
def Obligations.LinkPopDeliversTheOldest : Prop :=
  ∀ (s : State) (d : Dir) (idx : BitVec 16), live s →
    encode (.linkPop d idx) = commandWord 0x12 (dirNumber d) idx ∧
    (∀ q rest, idx.toNat < s.params.nDst → complOf (linkOf s.block d) idx.toNat = q :: rest →
      ∃ l t, exec (.linkPop d idx) s = .next t ∧
        t = { withLink d l (returning 1 s) with
              block := { (withLink d l (returning 1 s)).block with descOut := encodeDesc q } } ∧
        l = { linkOf s.block d with compl := l.compl } ∧ complOf l idx.toNat = rest ∧
        ∀ u, u ≠ idx.toNat → complOf l u = complOf (linkOf s.block d) u) ∧
    (idx.toNat < s.params.nDst → complOf (linkOf s.block d) idx.toNat = [] →
      exec (.linkPop d idx) s = .next (returningNothing s)) ∧
    (s.params.nDst ≤ idx.toNat →
      exec (.linkPop d idx) s = .next (raised .badIndex (encode (.linkPop d idx)) s))

/-- R359 and R142: `LINK_STAT` answers the selected value modulo 2^64; a selector of 13 or more raises `BAD_INDEX`. -/
def Obligations.LinkStatAnswersTheSelector : Prop :=
  ∀ (s : State) (d : Dir) (idx : BitVec 16), live s →
    encode (.linkStat d idx) = commandWord 0x13 (dirNumber d) idx ∧
    (∀ v,
      [(linkOf s.block d).stats.flitsTotal, (linkOf s.block d).stats.flitsReal, (linkOf s.block d).stats.flitsFiller,
        (linkOf s.block d).stats.pktsSingle, (linkOf s.block d).stats.pktsMulti, (linkOf s.block d).now,
        (linkOf s.block d).left, (linkOf s.block d).rr, (linkOf s.block d).off, (linkOf s.block d).acc.toNat,
        (linkOf s.block d).crr, (linkOf s.block d).nfl, (linkOf s.block d).tsq.n][idx.toNat]? = some v →
      exec (.linkStat d idx) s = .next (returning (BitVec.ofNat 64 v) s)) ∧
    (13 ≤ idx.toNat → exec (.linkStat d idx) s = .next (raised .badIndex (encode (.linkStat d idx)) s))

/-- R360 and R143: `LINK_SRCSTAT` answers the occupancy of source `IDX`; an index out of range raises `BAD_INDEX`. The
lengths are those a link within its bounds has, which fit the field (R471). -/
def Obligations.LinkSrcstatAnswersTheOccupancy : Prop :=
  ∀ (s : State) (d : Dir) (idx : BitVec 16), live s →
    encode (.linkSrcstat d idx) = commandWord 0x14 (dirNumber d) idx ∧
    (idx.toNat < s.params.nSrc → policyOf s.params d = .plain →
      (readyOf (linkOf s.block d) idx.toNat).plain.length ≤ 255 →
      exec (.linkSrcstat d idx) s =
        .next (returning (BitVec.ofNat 64 (readyOf (linkOf s.block d) idx.toNat).plain.length) s)) ∧
    (idx.toNat < s.params.nSrc → policyOf s.params d ≠ .plain →
      (readyOf (linkOf s.block d) idx.toNat).short.length ≤ 4 →
      exec (.linkSrcstat d idx) s =
        .next (returning
          (BitVec.ofNat 64
            ((readyOf (linkOf s.block d) idx.toNat).short.length +
              2 ^ 8 *
                (match (readyOf (linkOf s.block d) idx.toNat).long with
                  | .empty => 0
                  | .pending _ => 1
                  | .held => 2))) s)) ∧
    (s.params.nSrc ≤ idx.toNat →
      exec (.linkSrcstat d idx) s = .next (raised .badIndex (encode (.linkSrcstat d idx)) s))

/-- R340: a link command on `d` neither changes the other direction's link nor depends on it: in a state with another
`LINK` on the other side, it does the same to everything else. -/
def Obligations.DirectionsAreIndependent : Prop :=
  ∀ (i : Instr) (d : Dir) (s : State) (l : Link), commandDir i = some d →
    ∃ t, exec i s = .next t ∧ linkOf t.block (otherDir d) = linkOf s.block (otherDir d) ∧
      exec i (withLink (otherDir d) l s) = .next (withLink (otherDir d) l t)

/-- R100, R101, R105, R106, R422: a `LINK_STEP` asks for a read exactly when, in a live state and with a budget of at
most `L`, its pops raise nothing and the payload pending after its push phase has `SIZE` 128, and then for the 128 bytes
at its `ADDR` (that the request is a function of the state before the step, shown even if the compression then raises,
is the model's choice, Log 11). Memory reaches the block only through that read, whose byte `j` is the byte at address
`a + j` modulo 2^64, whatever the alignment: two states that differ in memory alone, and agree on the bytes of that
read, are changed alike by every command; a command that is no `LINK_STEP`, or whose step reads nothing, does not see
memory at all. -/
def Obligations.MemoryIsSeenOnlyByItsRead : Prop :=
  (∀ (s : State) (d : Dir) (a : Word) (n : Nat), memRequest d s = some (a, n) ↔
    live s ∧ rateAllowed s d ∧ ∃ popped pushed src q,
      repeats (popOnce s.params) (stepBudget s d) { linkOf s.block d with acc := stepFraction s d } popped ∧
      repeats (fillSlot s.params (policyOf s.params d)) (stepBudget s d) popped pushed ∧
      pendingSource s.params (policyOf s.params d) pushed = some (src, q) ∧ q.size.toNat = 128 ∧
      a = q.addr ∧ n = 128) ∧
  (∀ (mem : Memory) (a : Word) (n : Nat), (memRead mem a n).length = n ∧
    ∀ j < n, (memRead mem a n)[j]? = some (readByte mem ((a.toNat + j) % 2 ^ 64))) ∧
  ∀ (i : Instr) (s : State) (mem : Memory),
    (∀ d idx a n, i = .linkStep d idx → memRequest d s = some (a, n) →
      ∀ j < 128, readByte mem ((a.toNat + j) % 2 ^ 64) = readByte s.mem ((a.toNat + j) % 2 ^ 64)) →
    ∃ t, exec i s = .next t ∧ exec i { s with mem := mem } = .next { t with mem := mem }

/-- R363, the spec's derived "no drop": `LINK_PUSH` adds its payload to those the link holds, a `LINK_STEP` keeps them,
each once, and `LINK_POP` takes out exactly the one it delivers. -/
def Obligations.NoPayloadIsDropped : Prop :=
  ∀ (s t : State) (d : Dir) (idx : BitVec 16), live s → StateInv s → live t →
    (exec (.linkPush d idx) s = .next t →
      (payloadsOf (linkOf t.block d)).Perm (decodeDesc s.ports.descIn :: payloadsOf (linkOf s.block d))) ∧
    (exec (.linkStep d idx) s = .next t →
      (payloadsOf (linkOf t.block d)).Perm (payloadsOf (linkOf s.block d))) ∧
    (exec (.linkPop d idx) s = .next t →
      (t.block.status.resValid = true →
        ∃ q, t.block.descOut = encodeDesc q ∧
          (payloadsOf (linkOf s.block d)).Perm (q :: payloadsOf (linkOf t.block d))) ∧
      (t.block.status.resValid = false → linkOf t.block d = linkOf s.block d))

/-! ## Reset and the invariants (spec 70_reset_and_hazards.md, 10_state.md R60) -/

/-- R471: the conditions of `valid_config()`; an entry's sign-extension boundary is one of `SE_WIDTHS` (Log 6). -/
def Obligations.ValidConfigConditions : Prop :=
  ∀ p : Params, validConfig p = true ↔
    (p.literals = { wordBits := 64, blockWords := 16, blockBytes := 128, maxLevel := 3, escapeBits := 65,
                    flitBits := 128, shortDepth := 4, longDepth := 1, rateFracBits := 16 } ∧
      1 ≤ p.histDepth ∧ p.histDepth ≤ 65535 ∧ 1 ≤ p.predList.length ∧ p.predList.length ≤ 64 ∧
      (∀ e ∈ p.predList, 1 ≤ e.dataSize ∧ e.dataSize ≤ 65535 - 3 * historyBits p ∧
        ∀ k, e.pred = .signExt k → k ∈ p.seWidths) ∧
      (∀ k ∈ p.seWidths, 2 ≤ k ∧ k ≤ 63) ∧
      1 ≤ p.nSrc ∧ p.nSrc ≤ 65535 ∧ 1 ≤ p.nDst ∧ p.nDst ≤ 65535 ∧ 1 ≤ p.dqLatency ∧ p.dqLatency ≤ 65535 ∧
      1 ≤ p.tsqCapacity ∧ 1 ≤ p.plainDepth ∧ p.plainDepth ≤ 255 ∧
      p.maxStreams ≠ some 0 ∧ p.complDepth ≠ some 0)

/-- R470, R472, R473, R217, R438: a reset with a valid configuration ends live, with every register 0, the catalog
built, no stream, and both links idle and empty with `L` filler flits in flight; the base-pattern check passes. A reset
with an invalid configuration ends in the fatal state with `BAD_CONFIG`, no catalog and `FATAL_CMD = 0`. -/
def Obligations.ResetLeavesTheInitialBlock : Prop :=
  (∀ p : Params, validConfig p = false →
    resetBlock p = { blockCleared p with status := { fatal := true, cause := .badConfig, resValid := false } } ∧
      statusWord (resetBlock p).status = 0x00000D01 ∧ (resetBlock p).fatalCmd = 0 ∧ (resetBlock p).cat = []) ∧
  ∀ p : Params, validConfig p = true →
    basePatternsPresent (buildCatalog p) = true ∧
    statusWord (resetBlock p).status = 0 ∧ (resetBlock p).fatalCmd = 0 ∧ (resetBlock p).res = 0 ∧
    (resetBlock p).descOut = 0 ∧ (resetBlock p).cat = buildCatalog p ∧ (resetBlock p).streams = [] ∧
    ∀ d, (linkOf (resetBlock p) d).acc = 0 ∧ (linkOf (resetBlock p) d).now = 0 ∧ (linkOf (resetBlock p) d).rr = 0 ∧
      (linkOf (resetBlock p) d).crr = 0 ∧ (linkOf (resetBlock p) d).nfl = 0 ∧ (linkOf (resetBlock p) d).off = 0 ∧
      (linkOf (resetBlock p) d).left = 0 ∧ (linkOf (resetBlock p) d).cur = none ∧
      payloadsOf (linkOf (resetBlock p) d) = [] ∧
      (∀ s < p.nSrc, (linkOf (resetBlock p) d).ready[s]? = some { short := [], long := .empty, plain := [] }) ∧
      (∀ t < p.nDst, (linkOf (resetBlock p) d).compl[t]? = some []) ∧
      (linkOf (resetBlock p) d).dq.rp = 0 ∧ (linkOf (resetBlock p) d).dq.wp = p.dqLatency ∧
      flitsInFlight (linkOf (resetBlock p) d).dq =
        List.replicate p.dqLatency { payload := none, head := false, tail := false } ∧
      (linkOf (resetBlock p) d).tsq.n = 0 ∧ (linkOf (resetBlock p) d).tsq.rp = 0 ∧
      (linkOf (resetBlock p) d).tsq.wp = 0 ∧
      (linkOf (resetBlock p) d).stats =
        { flitsTotal := 0, flitsReal := 0, flitsFiller := 0, pktsSingle := 0, pktsMulti := 0 }

/-- The reset state: the block R473 describes for the default parameters, written out from R8 and R205. The model's
choices: that the defaults are latched (Log 3), zeros on every port (Log 2), no byte of memory listed (Log 4), no host action coming
(Log 1). -/
def Obligations.ResetStateIsTheDefaultBlock : Prop :=
  State.reset.params =
    { literals := { wordBits := 64, blockWords := 16, blockBytes := 128, maxLevel := 3, escapeBits := 65,
                    flitBits := 128, shortDepth := 4, longDepth := 1, rateFracBits := 16 }
      histDepth := 4
      predList := [⟨.zero, 2⟩, ⟨.ones, 3⟩, ⟨.repByte, 11⟩, ⟨.oneHot, 9⟩, ⟨.signExt 8, 11⟩, ⟨.signExt 16, 19⟩,
                   ⟨.signExt 32, 35⟩]
      seWidths := [8, 16, 32], plainDepth := 4, nSrc := 2, nDst := 2, dqLatency := 4, dqCapacity := 4
      compLatency := 0, tsqCapacity := 1, policyUp := .packed, policyDn := .packed, maxStreams := none
      complDepth := none } ∧
    defaultParams = State.reset.params ∧ validConfig State.reset.params = true ∧
    State.reset.block = { resetBlock State.reset.params with cat := buildCatalog State.reset.params } ∧
    live State.reset ∧
    State.reset.ports = { cmd := 0, a := 0, b := 0, blk := Vector.replicate 128 0, descIn := 0, rate := 0 } ∧
    State.reset.mem = [] ∧ State.reset.inbox = []

/-- R60 at reset. -/
def Obligations.ResetMeetsTheInvariants : Prop := StateInv State.reset

/-- R60, R357, R41: every step, from every state that meets them, keeps the invariants: the whole of `StateInv`. -/
def Obligations.EveryStepKeepsTheInvariants : Prop :=
  ∀ s t : State, StateInv s → step s = .next t → StateInv t

/-! ## The fatal errors of a link step (spec 43_link.md R343) -/

/-- R343, R435, R479: a `LINK_STEP` whose budget is at most `L` raises `COMPLETION_FULL` when its pops deliver more to a
bounded completion list than that has room for, and, when they do not, `STREAM_TABLE_FULL` when it compresses a payload
of a new stream and the table is full. Either undoes the phases before it (R433). -/
def Obligations.LinkStepFatalErrors : Prop :=
  ∀ (s : State) (d : Dir) (idx : BitVec 16), live s → StateInv s → rateAllowed s d →
    (¬ completionRoom s d →
      exec (.linkStep d idx) s = .next (raised .completionFull (encode (.linkStep d idx)) s)) ∧
    (completionRoom s d → ¬ streamRoom s d →
      exec (.linkStep d idx) s = .next (raised .streamTableFull (encode (.linkStep d idx)) s))
end

