-- ==== Sys2Proof/Laws/Bits.lean ====
section
/-! SUPPORT. Bit fields as arithmetic: concatenation and extraction by their numbers, and the fields of an encoded
command. -/

namespace Sys2Proof

theorem toNat_append_eq_add {n m : Nat} (x : BitVec n) (y : BitVec m) :
    (x ++ y).toNat = x.toNat * 2 ^ m + y.toNat := by
  rw [BitVec.toNat_append, ← Nat.shiftLeft_add_eq_or_of_lt y.isLt, Nat.shiftLeft_eq]

theorem toNat_extractLsb'_eq {w : Nat} (x : BitVec w) (lo len : Nat) :
    (x.extractLsb' lo len).toNat = x.toNat / 2 ^ lo % 2 ^ len := by
  rw [BitVec.extractLsb'_toNat, Nat.shiftRight_eq_div_pow]

theorem getLsbD_eq_decide {w : Nat} (x : BitVec w) (i : Nat) : x.getLsbD i = decide (x.toNat / 2 ^ i % 2 = 1) := by
  simp [BitVec.getLsbD, Nat.testBit_eq_decide_div_mod_eq]

/-- A command's word as a number (R130). -/
theorem encode_toNat (i : Instr) :
    (encode i).toNat = (opcodeOf i).toNat * 2 ^ 24 + (dirBitOf i).toNat * 2 ^ 23 + (idxOf i).toNat := by
  simp only [encode, toNat_append_eq_add, BitVec.toNat_ofBool, BitVec.toNat_ofNat]
  omega

theorem opcField_encode (i : Instr) : opcField (encode i) = opcodeOf i := by
  refine BitVec.eq_of_toNat_eq ?_
  rw [opcField, toNat_extractLsb'_eq, encode_toNat]
  have := (idxOf i).isLt; have := (opcodeOf i).isLt; have := (dirBitOf i).toNat_lt
  omega

theorem rsvField_encode (i : Instr) : rsvField (encode i) = 0 := by
  refine BitVec.eq_of_toNat_eq ?_
  rw [rsvField, toNat_extractLsb'_eq, encode_toNat]
  have := (idxOf i).isLt; have := (opcodeOf i).isLt; have := (dirBitOf i).toNat_lt
  simp only [BitVec.ofNat_eq_ofNat, BitVec.toNat_ofNat]
  omega

theorem dirField_encode (i : Instr) : dirField (encode i) = dirBitOf i := by
  rw [dirField, getLsbD_eq_decide, encode_toNat]
  have := (idxOf i).isLt
  cases dirBitOf i <;> simp only [Bool.toNat_true, Bool.toNat_false, decide_eq_true_eq, decide_eq_false_iff_not] <;>
    omega

theorem idxField_encode (i : Instr) : idxField (encode i) = idxOf i := by
  refine BitVec.eq_of_toNat_eq ?_
  rw [idxField, toNat_extractLsb'_eq, encode_toNat]
  have := (idxOf i).isLt; have := (dirBitOf i).toNat_lt
  omega

/-- A word by its four fields (R130). -/
theorem toNat_eq_fields (w : CmdWord) :
    w.toNat = (opcField w).toNat * 2 ^ 24 + (dirField w).toNat * 2 ^ 23 + (rsvField w).toNat * 2 ^ 16 +
      (idxField w).toNat := by
  rw [opcField, rsvField, idxField, dirField, getLsbD_eq_decide]
  simp only [toNat_extractLsb'_eq]
  have := w.isLt
  by_cases h : w.toNat / 2 ^ 23 % 2 = 1 <;> simp only [h, decide_true, decide_false, Bool.toNat_true, Bool.toNat_false] <;>
    omega

end Sys2Proof
end

