-- ==== Sys2Proof/Laws/Storage.lean ====
section
/-! SUPPORT. The laws of finite maps and of memory: read after write, and that every operation keeps the canonical
form. -/

namespace Sys2Proof.Machine

/-! ## Finite maps -/

section Maps
variable {α : Type}

theorem mapGet_mapSet_same (m : WordMap α) (k : Word) (v : α) : mapGet (mapSet m k v) k = some v := by
  induction m with
  | nil => simp [mapSet, mapGet]
  | cons x r ih =>
    obtain ⟨k', v'⟩ := x
    simp only [mapSet]
    split
    · simp [mapGet]
    · split
      · simp [mapGet]
      · next h => simp [mapGet, ih, Ne.symm h]

theorem mapGet_mapSet_other (m : WordMap α) {k k₂ : Word} (v : α) (h : k₂ ≠ k) :
    mapGet (mapSet m k v) k₂ = mapGet m k₂ := by
  induction m with
  | nil => simp [mapSet, mapGet, Ne.symm h]
  | cons x r ih =>
    obtain ⟨k', v'⟩ := x
    simp only [mapSet]
    split
    · simp [mapGet, Ne.symm h]
    · split
      · next hk => subst hk; simp [mapGet, Ne.symm h]
      · simp only [mapGet, ih]

/-- Where an entry of `mapSet` comes from. -/
theorem mem_mapSet {m : WordMap α} {k : Word} {v : α} {x : Word × α} (h : x ∈ mapSet m k v) :
    x = (k, v) ∨ x ∈ m := by
  induction m with
  | nil => exact .inl (by simpa [mapSet] using h)
  | cons y r ih =>
    obtain ⟨k', v'⟩ := y
    simp only [mapSet] at h
    split at h
    · simpa using h
    · split at h
      · rcases List.mem_cons.1 h with h | h
        · exact .inl h
        · exact .inr (List.mem_cons_of_mem _ h)
      · rcases List.mem_cons.1 h with h | h
        · exact .inr (by simp [h])
        · exact (ih h).imp id (List.mem_cons_of_mem _)

theorem mapSet_wf {m : WordMap α} (k : Word) (v : α) (h : mapWf m) : mapWf (mapSet m k v) := by
  induction m with
  | nil => simp [mapSet, mapWf]
  | cons x r ih =>
    obtain ⟨k', v'⟩ := x
    obtain ⟨hx, hr⟩ := List.pairwise_cons.1 h
    simp only [mapSet]
    split
    · next hlt =>
      refine List.pairwise_cons.2 ⟨fun y hy => ?_, h⟩
      rcases List.mem_cons.1 hy with rfl | hy
      · exact hlt
      · exact hlt.trans (hx y hy)
    · split
      · next _ hk => subst hk; exact List.pairwise_cons.2 ⟨hx, hr⟩
      · next hlt hne =>
        refine List.pairwise_cons.2 ⟨fun y hy => ?_, ih hr⟩
        rcases mem_mapSet hy with rfl | hy
        · have : k.toNat ≠ k'.toNat := fun e => hne (BitVec.eq_of_toNat_eq e)
          simp only at hlt ⊢; omega
        · exact hx y hy

theorem mem_of_mapGet {m : WordMap α} {k : Word} {v : α} (h : mapGet m k = some v) : (k, v) ∈ m := by
  induction m with
  | nil => simp [mapGet] at h
  | cons x r ih =>
    obtain ⟨k', v'⟩ := x
    simp only [mapGet] at h
    split at h
    · next hk => subst hk; obtain rfl := Option.some.inj h; exact List.mem_cons_self
    · exact List.mem_cons_of_mem _ (ih h)

theorem mapGet_of_mem {m : WordMap α} (hw : mapWf m) {k : Word} {v : α} (h : (k, v) ∈ m) : mapGet m k = some v := by
  induction m with
  | nil => simp at h
  | cons x r ih =>
    obtain ⟨k', v'⟩ := x
    obtain ⟨hx, hr⟩ := List.pairwise_cons.1 hw
    simp only [mapGet]
    rcases List.mem_cons.1 h with h | h
    · obtain ⟨rfl, rfl⟩ := Prod.mk.inj h; simp
    · have hne : k' ≠ k := by rintro rfl; exact absurd (hx _ h) (lt_irrefl _)
      simp [hne, ih hr h]

/-- `mapSet` replaces a key that is present and adds one entry for a key that is absent. -/
theorem length_mapSet {m : WordMap α} (hw : mapWf m) (k : Word) (v : α) :
    (mapSet m k v).length = if (mapGet m k).isSome then m.length else m.length + 1 := by
  induction m with
  | nil => simp [mapSet, mapGet]
  | cons x r ih =>
    obtain ⟨k', v'⟩ := x
    obtain ⟨hx, hr⟩ := List.pairwise_cons.1 hw
    simp only [mapSet, mapGet]
    split
    · next hlt =>
      have hk : k' ≠ k := by rintro rfl; exact absurd hlt (lt_irrefl _)
      have hg : mapGet r k = none := by
        cases hg : mapGet r k with
        | none => rfl
        | some v' => have := hx _ (mem_of_mapGet hg); simp only at this; omega
      simp [hk, hg]
    · split
      · next _ hk => subst hk; simp
      · next _ hne => simp only [List.length_cons, ih hr, Ne.symm hne, if_false]; split <;> rfl

end Maps

/-! ## Memory -/

theorem readByte_of_lt {m : Memory} {addr : Nat} (h : ∀ c ∈ m, addr < c.1) : readByte m addr = unlistedByte := by
  induction m with
  | nil => rfl
  | cons x r ih =>
    obtain ⟨a, b⟩ := x
    have h1 := h _ List.mem_cons_self
    have hne : a ≠ addr := by simp only at h1; omega
    simp [readByte, hne, ih fun c hc => h c (List.mem_cons_of_mem _ hc)]

theorem readByte_writeByte_same {m : Memory} (hw : m.Pairwise (fun x y => x.1 < y.1)) (addr : Nat) (b : Byte) :
    readByte (writeByte m addr b) addr = b := by
  induction m with
  | nil =>
    simp only [writeByte]
    split
    · next h => simp [readByte, h]
    · simp [readByte]
  | cons x r ih =>
    obtain ⟨a, b'⟩ := x
    obtain ⟨hx, hr⟩ := List.pairwise_cons.1 hw
    simp only [writeByte]
    split
    · next hlt =>
      split
      · next hb =>
        rw [hb]; refine readByte_of_lt fun c hc => ?_
        rcases List.mem_cons.1 hc with rfl | hc
        · exact hlt
        · exact hlt.trans (hx c hc)
      · simp [readByte]
    · split
      · next _ ha =>
        split
        · next hb => rw [hb]; exact readByte_of_lt fun c hc => by have := hx c hc; simp only at this; omega
        · simp [readByte]
      · next _ ha => simp [readByte, Ne.symm ha, ih hr]

theorem readByte_writeByte_other {m : Memory} {addr other : Nat} (b : Byte) (h : other ≠ addr) :
    readByte (writeByte m addr b) other = readByte m other := by
  induction m with
  | nil =>
    simp only [writeByte]
    split <;> simp [readByte, Ne.symm h]
  | cons x r ih =>
    obtain ⟨a, b'⟩ := x
    simp only [writeByte]
    split
    · split <;> simp [readByte, Ne.symm h]
    · split
      · next _ ha => subst ha; split <;> simp [readByte, Ne.symm h]
      · simp only [readByte, ih]

theorem mem_writeByte {m : Memory} {addr : Nat} {b : Byte} {c : Host.Cell} (h : c ∈ writeByte m addr b) :
    (c = (addr, b) ∧ b ≠ unlistedByte) ∨ c ∈ m := by
  induction m with
  | nil =>
    simp only [writeByte] at h
    split at h
    · simp at h
    · next hb => exact .inl ⟨by simpa using h, hb⟩
  | cons x r ih =>
    obtain ⟨a, b'⟩ := x
    simp only [writeByte] at h
    split at h
    · split at h
      · exact .inr h
      · next hb =>
        rcases List.mem_cons.1 h with h | h
        · exact .inl ⟨h, hb⟩
        · exact .inr h
    · split at h
      · split at h
        · exact .inr (List.mem_cons_of_mem _ h)
        · next hb =>
          rcases List.mem_cons.1 h with h | h
          · exact .inl ⟨h, hb⟩
          · exact .inr (List.mem_cons_of_mem _ h)
      · rcases List.mem_cons.1 h with h | h
        · exact .inr (by simp [h])
        · exact (ih h).imp id (List.mem_cons_of_mem _)

/-- Every write keeps memory in canonical form. -/
theorem writeByte_wf {m : Memory} {addr : Nat} (b : Byte) (ha : addr < 2 ^ 64) (hw : memoryWf m) :
    memoryWf (writeByte m addr b) := by
  refine ⟨?_, fun c hc => ?_⟩
  · obtain ⟨hp, -⟩ := hw
    induction m with
    | nil =>
      simp only [writeByte]
      split <;> simp
    | cons x r ih =>
      obtain ⟨a, b'⟩ := x
      obtain ⟨hx, hr⟩ := List.pairwise_cons.1 hp
      simp only [writeByte]
      split
      · next hlt =>
        split
        · exact hp
        · refine List.pairwise_cons.2 ⟨fun y hy => ?_, hp⟩
          rcases List.mem_cons.1 hy with rfl | hy
          · exact hlt
          · exact hlt.trans (hx y hy)
      · split
        · next _ he =>
          subst he
          split
          · exact hr
          · exact List.pairwise_cons.2 ⟨hx, hr⟩
        · next hlt hne =>
          refine List.pairwise_cons.2 ⟨fun y hy => ?_, ih hr⟩
          rcases mem_writeByte hy with ⟨rfl, -⟩ | hy
          · simp only at hlt ⊢; omega
          · exact hx y hy
  · rcases mem_writeByte hc with ⟨rfl, hb⟩ | hc
    · exact ⟨ha, hb⟩
    · exact hw.2 c hc

theorem length_memRead (m : Memory) (addr : Word) (n : Nat) : (memRead m addr n).length = n := by simp [memRead]

theorem getD_memRead (m : Memory) (addr : Word) {n j : Nat} (h : j < n) :
    (memRead m addr n).getD j 0 = readByte m ((addr.toNat + j) % 2 ^ 64) := by
  simp [memRead, List.getD_eq_getElem?_getD, h]

@[simp] theorem length_blockWords (b : List Byte) : (blockWords b).length = blockWordCount := by simp [blockWords]

end Sys2Proof.Machine
end

