-- ==== Sys2Proof/Laws/State.lean ====
section
/-! SUPPORT. One lemma per field per update of the state's records, each true by rfl. -/

namespace Sys2Proof.Machine

/-! ## Results and the fatal error -/

@[simp] theorem answer_status (v : Word) (b : Block) : (answer v b).status = setResValid true b.status := rfl
@[simp] theorem answer_fatalCmd (v : Word) (b : Block) : (answer v b).fatalCmd = b.fatalCmd := rfl
@[simp] theorem answer_res (v : Word) (b : Block) : (answer v b).res = v := rfl
@[simp] theorem answer_descOut (v : Word) (b : Block) : (answer v b).descOut = b.descOut := rfl
@[simp] theorem answer_cat (v : Word) (b : Block) : (answer v b).cat = b.cat := rfl
@[simp] theorem answer_streams (v : Word) (b : Block) : (answer v b).streams = b.streams := rfl
@[simp] theorem answer_up (v : Word) (b : Block) : (answer v b).up = b.up := rfl
@[simp] theorem answer_dn (v : Word) (b : Block) : (answer v b).dn = b.dn := rfl
@[simp] theorem linkOf_answer (v : Word) (b : Block) (d : Dir) : linkOf (answer v b) d = linkOf b d := by cases d <;> rfl
@[simp] theorem answerNothing_status (b : Block) : (answerNothing b).status = setResValid false b.status := rfl
@[simp] theorem answerNothing_fatalCmd (b : Block) : (answerNothing b).fatalCmd = b.fatalCmd := rfl
@[simp] theorem answerNothing_res (b : Block) : (answerNothing b).res = 0 := rfl
@[simp] theorem answerNothing_descOut (b : Block) : (answerNothing b).descOut = b.descOut := rfl
@[simp] theorem answerNothing_cat (b : Block) : (answerNothing b).cat = b.cat := rfl
@[simp] theorem answerNothing_streams (b : Block) : (answerNothing b).streams = b.streams := rfl
@[simp] theorem answerNothing_up (b : Block) : (answerNothing b).up = b.up := rfl
@[simp] theorem answerNothing_dn (b : Block) : (answerNothing b).dn = b.dn := rfl
@[simp] theorem linkOf_answerNothing (b : Block) (d : Dir) : linkOf (answerNothing b) d = linkOf b d := by cases d <;> rfl
@[simp] theorem raiseFatal_status (c : Cause) (w : CmdWord) (b : Block) : (raiseFatal c w b).status = statusFatal c := rfl
@[simp] theorem raiseFatal_fatalCmd (c : Cause) (w : CmdWord) (b : Block) : (raiseFatal c w b).fatalCmd = w := rfl
@[simp] theorem raiseFatal_res (c : Cause) (w : CmdWord) (b : Block) : (raiseFatal c w b).res = b.res := rfl
@[simp] theorem raiseFatal_descOut (c : Cause) (w : CmdWord) (b : Block) : (raiseFatal c w b).descOut = b.descOut := rfl
@[simp] theorem raiseFatal_cat (c : Cause) (w : CmdWord) (b : Block) : (raiseFatal c w b).cat = b.cat := rfl
@[simp] theorem raiseFatal_streams (c : Cause) (w : CmdWord) (b : Block) : (raiseFatal c w b).streams = b.streams := rfl
@[simp] theorem raiseFatal_up (c : Cause) (w : CmdWord) (b : Block) : (raiseFatal c w b).up = b.up := rfl
@[simp] theorem raiseFatal_dn (c : Cause) (w : CmdWord) (b : Block) : (raiseFatal c w b).dn = b.dn := rfl
@[simp] theorem linkOf_raiseFatal (c : Cause) (w : CmdWord) (b : Block) (d : Dir) : linkOf (raiseFatal c w b) d = linkOf b d := by cases d <;> rfl

/-! ## Flags -/

@[simp] theorem setResValid_fatal (v : Bool) (s : Status) : (setResValid v s).fatal = s.fatal := rfl
@[simp] theorem setResValid_cause (v : Bool) (s : Status) : (setResValid v s).cause = s.cause := rfl
@[simp] theorem setResValid_resValid (v : Bool) (s : Status) : (setResValid v s).resValid = v := rfl
@[simp] theorem statusFatal_fatal (c : Cause) : (statusFatal c).fatal = true := rfl
@[simp] theorem statusFatal_cause (c : Cause) : (statusFatal c).cause = c := rfl
@[simp] theorem statusFatal_resValid (c : Cause) : (statusFatal c).resValid = false := rfl

/-! ## The links of a block -/

@[simp] theorem setLink_status (b : Block) (d : Dir) (l : Link) : (setLink b d l).status = b.status := by cases d <;> rfl
@[simp] theorem setLink_fatalCmd (b : Block) (d : Dir) (l : Link) : (setLink b d l).fatalCmd = b.fatalCmd := by cases d <;> rfl
@[simp] theorem setLink_res (b : Block) (d : Dir) (l : Link) : (setLink b d l).res = b.res := by cases d <;> rfl
@[simp] theorem setLink_descOut (b : Block) (d : Dir) (l : Link) : (setLink b d l).descOut = b.descOut := by cases d <;> rfl
@[simp] theorem setLink_cat (b : Block) (d : Dir) (l : Link) : (setLink b d l).cat = b.cat := by cases d <;> rfl
@[simp] theorem setLink_streams (b : Block) (d : Dir) (l : Link) : (setLink b d l).streams = b.streams := by cases d <;> rfl
@[simp] theorem linkOf_setLink (b : Block) (d : Dir) (l : Link) : linkOf (setLink b d l) d = l := by cases d <;> rfl
theorem linkOf_setLink_of_ne (b : Block) {d e : Dir} (l : Link) (h : e ≠ d) : linkOf (setLink b d l) e = linkOf b e := by
  cases d <;> cases e <;> first | rfl | exact absurd rfl h
theorem linkOf_setLink_eq (b : Block) (d e : Dir) (l : Link) :
    linkOf (setLink b d l) e = if e = d then l else linkOf b e := by
  cases d <;> cases e <;> rfl
@[simp] theorem linkOf_with_streams (b : Block) (m : WordMap StreamRecord) (d : Dir) :
    linkOf { b with streams := m } d = linkOf b d := by cases d <;> rfl
@[simp] theorem linkOf_with_descOut (b : Block) (v : BitVec 256) (d : Dir) :
    linkOf { b with descOut := v } d = linkOf b d := by cases d <;> rfl

/-! ## The ready lists of a link -/

@[simp] theorem modifyReady_acc (s : Nat) (f : ReadyLists → ReadyLists) (l : Link) : (modifyReady s f l).acc = l.acc := rfl
@[simp] theorem modifyReady_now (s : Nat) (f : ReadyLists → ReadyLists) (l : Link) : (modifyReady s f l).now = l.now := rfl
@[simp] theorem modifyReady_rr (s : Nat) (f : ReadyLists → ReadyLists) (l : Link) : (modifyReady s f l).rr = l.rr := rfl
@[simp] theorem modifyReady_crr (s : Nat) (f : ReadyLists → ReadyLists) (l : Link) : (modifyReady s f l).crr = l.crr := rfl
@[simp] theorem modifyReady_cur (s : Nat) (f : ReadyLists → ReadyLists) (l : Link) : (modifyReady s f l).cur = l.cur := rfl
@[simp] theorem modifyReady_nfl (s : Nat) (f : ReadyLists → ReadyLists) (l : Link) : (modifyReady s f l).nfl = l.nfl := rfl
@[simp] theorem modifyReady_off (s : Nat) (f : ReadyLists → ReadyLists) (l : Link) : (modifyReady s f l).off = l.off := rfl
@[simp] theorem modifyReady_left (s : Nat) (f : ReadyLists → ReadyLists) (l : Link) : (modifyReady s f l).left = l.left := rfl
@[simp] theorem modifyReady_dq (s : Nat) (f : ReadyLists → ReadyLists) (l : Link) : (modifyReady s f l).dq = l.dq := rfl
@[simp] theorem modifyReady_tsq (s : Nat) (f : ReadyLists → ReadyLists) (l : Link) : (modifyReady s f l).tsq = l.tsq := rfl
@[simp] theorem modifyReady_compl (s : Nat) (f : ReadyLists → ReadyLists) (l : Link) : (modifyReady s f l).compl = l.compl := rfl
@[simp] theorem modifyReady_stats (s : Nat) (f : ReadyLists → ReadyLists) (l : Link) : (modifyReady s f l).stats = l.stats := rfl
@[simp] theorem modifyReady_ready (s : Nat) (f : ReadyLists → ReadyLists) (l : Link) :
    (modifyReady s f l).ready = l.ready.modify s f := rfl

theorem readyOf_modifyReady_same {l : Link} {s : Nat} {f : ReadyLists → ReadyLists} (h : s < l.ready.length) :
    readyOf (modifyReady s f l) s = f (readyOf l s) := by
  simp [readyOf, modifyReady, List.getD_eq_getElem?_getD, h]

theorem readyOf_modifyReady_other {l : Link} {s t : Nat} {f : ReadyLists → ReadyLists} (h : t ≠ s) :
    readyOf (modifyReady s f l) t = readyOf l t := by
  simp [readyOf, modifyReady, List.getD_eq_getElem?_getD, Ne.symm h]

/-! ## The host's actions -/

@[simp] theorem presentPorts_params (p : Ports) (s : State) : (presentPorts p s).params = s.params := rfl
@[simp] theorem presentPorts_block (p : Ports) (s : State) : (presentPorts p s).block = s.block := rfl
@[simp] theorem presentPorts_ports (p : Ports) (s : State) : (presentPorts p s).ports = p := rfl
@[simp] theorem presentPorts_mem (p : Ports) (s : State) : (presentPorts p s).mem = s.mem := rfl
@[simp] theorem presentPorts_inbox (p : Ports) (s : State) : (presentPorts p s).inbox = s.inbox := rfl
@[simp] theorem assertReset_params (p : Params) (s : State) : (assertReset p s).params = p := rfl
@[simp] theorem assertReset_block (p : Params) (s : State) : (assertReset p s).block = resetBlock p := rfl
@[simp] theorem assertReset_ports (p : Params) (s : State) : (assertReset p s).ports = s.ports := rfl
@[simp] theorem assertReset_mem (p : Params) (s : State) : (assertReset p s).mem = s.mem := rfl
@[simp] theorem assertReset_inbox (p : Params) (s : State) : (assertReset p s).inbox = s.inbox := rfl
@[simp] theorem hostWrite_params (addr : Word) (byte : Byte) (s : State) : (hostWrite addr byte s).params = s.params := rfl
@[simp] theorem hostWrite_block (addr : Word) (byte : Byte) (s : State) : (hostWrite addr byte s).block = s.block := rfl
@[simp] theorem hostWrite_ports (addr : Word) (byte : Byte) (s : State) : (hostWrite addr byte s).ports = s.ports := rfl
@[simp] theorem hostWrite_mem (addr : Word) (byte : Byte) (s : State) : (hostWrite addr byte s).mem = writeByte s.mem addr.toNat byte := rfl
@[simp] theorem hostWrite_inbox (addr : Word) (byte : Byte) (s : State) : (hostWrite addr byte s).inbox = s.inbox := rfl
@[simp] theorem queueCommand_params (w : CmdWord) (s : State) : (queueCommand w s).params = s.params := rfl
@[simp] theorem queueCommand_block (w : CmdWord) (s : State) : (queueCommand w s).block = s.block := rfl
@[simp] theorem queueCommand_ports (w : CmdWord) (s : State) : (queueCommand w s).ports = s.ports := rfl
@[simp] theorem queueCommand_mem (w : CmdWord) (s : State) : (queueCommand w s).mem = s.mem := rfl
@[simp] theorem queueCommand_inbox (w : CmdWord) (s : State) : (queueCommand w s).inbox = .command { s.ports with cmd := w } :: s.inbox := rfl

/-! ## The canonical form of memory -/

theorem reset_memoryWf : memoryWf State.reset.mem := ⟨List.Pairwise.nil, fun _ h => nomatch h⟩

/-- The one action that writes memory keeps its canonical form. -/
theorem hostWrite_memoryWf {addr : Word} {byte : Byte} {s : State} (h : memoryWf s.mem) :
    memoryWf (hostWrite addr byte s).mem := writeByte_wf byte addr.isLt h

end Sys2Proof.Machine
end

