-- ==== Sys2Proof/Laws/Ops.lean ====
section
/-! SUPPORT. How a command takes effect: everything `issue` and `exec` can do. -/

namespace Sys2Proof.Machine

theorem issue_fatal {w : CmdWord} {r : Except Cause Block} {s : State} (h : s.block.status.fatal = true) :
    issue w r s = .next s := by simp [issue, h]

theorem issue_ok {w : CmdWord} {b : Block} {s : State} (h : s.block.status.fatal = false) :
    issue w (.ok b) s = .next { s with block := b } := by simp [issue, h]

theorem issue_error {w : CmdWord} {c : Cause} {s : State} (h : s.block.status.fatal = false) :
    issue w (.error c) s = .next { s with block := raiseFatal c w s.block } := by simp [issue, h]

/-- Everything `issue` can do. -/
theorem issue_cases {w : CmdWord} {r : Except Cause Block} {s t : State} (h : issue w r s = .next t) :
    (s.block.status.fatal = true ∧ t = s) ∨
      (s.block.status.fatal = false ∧ ∃ b, r = .ok b ∧ t = { s with block := b }) ∨
      (s.block.status.fatal = false ∧ ∃ c, r = .error c ∧ t = { s with block := raiseFatal c w s.block }) := by
  cases hf : s.block.status.fatal with
  | true => rw [issue_fatal hf] at h; exact .inl ⟨rfl, (Host.Outcome.next.inj h).symm⟩
  | false =>
    cases r with
    | ok b => rw [issue_ok hf] at h; exact .inr (.inl ⟨rfl, b, rfl, (Host.Outcome.next.inj h).symm⟩)
    | error c => rw [issue_error hf] at h; exact .inr (.inr ⟨rfl, c, rfl, (Host.Outcome.next.inj h).symm⟩)

/-- What the command's rule gives in a state: the block it leaves, or the cause it raises. -/
def ruleOf (i : Instr) (s : State) : Except Cause Block :=
  match i with
  | .nop _ => nopRule s
  | .pred idx => predRule idx s
  | .matchPat idx => matchRule idx s
  | .compress idx => compressRule idx s
  | .profRead idx => profReadRule idx s
  | .profGlobal idx => profGlobalRule idx s
  | .catRead idx => catReadRule idx s
  | .winRead idx => winReadRule idx s
  | .linkPush d idx => linkPushRule d idx s
  | .linkStep d _ => linkStepRule d s
  | .linkPop d idx => linkPopRule d idx s
  | .linkStat d idx => linkStatRule d idx s
  | .linkSrcstat d idx => linkSrcstatRule d idx s

/-- Every command is its rule, issued under its own word (R130, R430). -/
theorem exec_eq_issue (i : Instr) (s : State) : exec i s = issue (encode i) (ruleOf i s) s := by
  cases i <;> rfl

theorem exec_fatal {i : Instr} {s : State} (h : s.block.status.fatal = true) : exec i s = .next s := by
  rw [exec_eq_issue, issue_fatal h]

theorem exec_of_rule_ok {i : Instr} {s : State} {b : Block} (h : s.block.status.fatal = false)
    (hr : ruleOf i s = .ok b) : exec i s = .next { s with block := b } := by
  rw [exec_eq_issue, hr, issue_ok h]

theorem exec_of_rule_error {i : Instr} {s : State} {c : Cause} (h : s.block.status.fatal = false)
    (hr : ruleOf i s = .error c) : exec i s = .next { s with block := raiseFatal c (encode i) s.block } := by
  rw [exec_eq_issue, hr, issue_error h]

/-- Everything a command can do in a live state. -/
theorem exec_live_cases {i : Instr} {s t : State} (hl : s.block.status.fatal = false) (h : exec i s = .next t) :
    (∃ b, ruleOf i s = .ok b ∧ t = { s with block := b }) ∨
      ∃ c, ruleOf i s = .error c ∧ t = { s with block := raiseFatal c (encode i) s.block } := by
  rw [exec_eq_issue] at h
  rcases issue_cases h with ⟨hf, _⟩ | ⟨_, b, hb, ht⟩ | ⟨_, c, hc, ht⟩
  · rw [hl] at hf; cases hf
  · exact .inl ⟨b, hb, ht⟩
  · exact .inr ⟨c, hc, ht⟩

/-- A command answers a next state that differs from the present one in the block alone. -/
theorem exec_next (i : Instr) (s : State) : ∃ b, exec i s = .next { s with block := b } := by
  cases hf : s.block.status.fatal with
  | true => exact ⟨s.block, exec_fatal hf⟩
  | false =>
    cases hr : ruleOf i s with
    | ok b => exact ⟨b, exec_of_rule_ok hf hr⟩
    | error c => exact ⟨_, exec_of_rule_error hf hr⟩

end Sys2Proof.Machine
end

