-- ==== Sys2Proof/Laws/PerInstr.lean ====
section
/-! SUPPORT. Statements made per instruction: `EncodedFields`, what stands in each field of a command's word. -/

namespace Sys2Proof.Laws

/-- The four fields of the command's word: its opcode, its direction bit, a reserved field of zeros, its index
(spec 30_encoding.md R130 to R134). -/
def EncodedFields.Statement (i : Instr) : Prop :=
  opcField (encode i) = opcodeOf i ∧ dirField (encode i) = dirBitOf i ∧ rsvField (encode i) = 0 ∧
    idxField (encode i) = idxOf i

theorem encodedFields (i : Instr) : EncodedFields.Statement i :=
  ⟨opcField_encode i, dirField_encode i, rsvField_encode i, idxField_encode i⟩

theorem EncodedFields.nop (idx : BitVec 16) : EncodedFields.Statement (.nop idx) := encodedFields _
theorem EncodedFields.pred (idx : BitVec 16) : EncodedFields.Statement (.pred idx) := encodedFields _
theorem EncodedFields.matchPat (idx : BitVec 16) : EncodedFields.Statement (.matchPat idx) := encodedFields _
theorem EncodedFields.compress (idx : BitVec 16) : EncodedFields.Statement (.compress idx) := encodedFields _
theorem EncodedFields.profRead (idx : BitVec 16) : EncodedFields.Statement (.profRead idx) := encodedFields _
theorem EncodedFields.profGlobal (idx : BitVec 16) : EncodedFields.Statement (.profGlobal idx) := encodedFields _
theorem EncodedFields.catRead (idx : BitVec 16) : EncodedFields.Statement (.catRead idx) := encodedFields _
theorem EncodedFields.winRead (idx : BitVec 16) : EncodedFields.Statement (.winRead idx) := encodedFields _
theorem EncodedFields.linkPush (d : Dir) (idx : BitVec 16) : EncodedFields.Statement (.linkPush d idx) := encodedFields _
theorem EncodedFields.linkStep (d : Dir) (idx : BitVec 16) : EncodedFields.Statement (.linkStep d idx) := encodedFields _
theorem EncodedFields.linkPop (d : Dir) (idx : BitVec 16) : EncodedFields.Statement (.linkPop d idx) := encodedFields _
theorem EncodedFields.linkStat (d : Dir) (idx : BitVec 16) : EncodedFields.Statement (.linkStat d idx) := encodedFields _
theorem EncodedFields.linkSrcstat (d : Dir) (idx : BitVec 16) : EncodedFields.Statement (.linkSrcstat d idx) :=
  encodedFields _

end Sys2Proof.Laws
end

