-- ==== Sys2Proof/Laws/Scheduler.lean ====
section
/-! SUPPORT. Everything each operation of the compressor, the queues and the link scheduler can do, said once. -/

namespace Sys2Proof.Machine

/-! ## The stream compressor -/

theorem lookupOrCreate_ok {p : Params} {m : WordMap StreamRecord} {sid : Word} {st : StreamRecord}
    (h : lookupOrCreate p m sid = .ok st) :
    mapGet m sid = some st ∨
      (mapGet m sid = none ∧ atCapacity m.length p.maxStreams = false ∧ st = streamInit p) := by
  unfold lookupOrCreate at h
  split at h
  · next hg => exact .inl (by rw [hg, Except.ok.inj h])
  · next hg =>
    split at h
    · cases h
    · next hc => exact .inr ⟨hg, by simpa using hc, (Except.ok.inj h).symm⟩

theorem lookupOrCreate_error {p : Params} {m : WordMap StreamRecord} {sid : Word} {c : Cause}
    (h : lookupOrCreate p m sid = .error c) :
    c = .streamTableFull ∧ mapGet m sid = none ∧ atCapacity m.length p.maxStreams = true := by
  unfold lookupOrCreate at h
  split at h
  · cases h
  · next hg =>
    split at h
    · next hc => exact ⟨(Except.error.inj h).symm, hg, hc⟩
    · cases h

theorem compressBlock_ok {p : Params} {cat : List CatEntry} {m m' : WordMap StreamRecord} {sid : Word}
    {b : List Byte} {n : Nat} (h : compressBlock p cat m sid b = .ok (n, m')) :
    ∃ st, lookupOrCreate p m sid = .ok st ∧ n = (compressWords p cat (blockWords b) st).1 ∧
      m' = mapSet m sid (compressWords p cat (blockWords b) st).2 := by
  unfold compressBlock at h
  split at h
  · cases h
  · next st hl =>
    obtain ⟨h1, h2⟩ := Prod.mk.inj (Except.ok.inj h)
    exact ⟨st, hl, h1.symm, h2.symm⟩

theorem compressBlock_error {p : Params} {cat : List CatEntry} {m : WordMap StreamRecord} {sid : Word}
    {b : List Byte} {c : Cause} (h : compressBlock p cat m sid b = .error c) :
    lookupOrCreate p m sid = .error c := by
  unfold compressBlock at h
  split at h
  · next _ hl => rw [hl, Except.error.inj h]
  · cases h

/-! ## The delay queues -/

theorem tsqPush_ok {d : Desc} {size src now : Nat} {q q' : TimestampQueue} (h : tsqPush d size src now q = .ok q') :
    q.n ≠ q.entry.length ∧
      q' = { q with
        entry := q.entry.set (q.wp % q.entry.length) (some { payload := d, size := size, src := src, time := now })
        wp := q.wp + 1
        n := q.n + 1 } := by
  unfold tsqPush at h
  split at h
  · cases h
  · next hn => exact ⟨hn, (Except.ok.inj h).symm⟩

theorem tsqPush_error {d : Desc} {size src now : Nat} {q : TimestampQueue} {c : Cause}
    (h : tsqPush d size src now q = .error c) : c = .tsqFull ∧ q.n = q.entry.length := by
  unfold tsqPush at h
  split at h
  · next hn => exact ⟨(Except.error.inj h).symm, hn⟩
  · cases h

theorem tsqTop_some {cl now : Nat} {q : TimestampQueue} {e : TsqEntry} (h : tsqTop cl now q = some e) :
    0 < q.n ∧ e.time + cl < now ∧ q.entry.getD (q.rp % q.entry.length) none = some e := by
  unfold tsqTop at h
  split at h
  · next e' he =>
    split at h
    · next hc => obtain rfl := Option.some.inj h; exact ⟨hc.1, hc.2, he⟩
    · cases h
  · cases h

theorem tsqPop_ok {q q' : TimestampQueue} (h : tsqPop q = .ok q') :
    q.n ≠ 0 ∧
      q' = { q with entry := q.entry.set (q.rp % q.entry.length) none, rp := q.rp + 1, n := q.n - 1 } := by
  unfold tsqPop at h
  split at h
  · cases h
  · next hn => exact ⟨hn, (Except.ok.inj h).symm⟩

theorem tsqPop_error {q : TimestampQueue} {c : Cause} (h : tsqPop q = .error c) : c = .tsqEmpty ∧ q.n = 0 := by
  unfold tsqPop at h
  split at h
  · next hn => exact ⟨(Except.error.inj h).symm, hn⟩
  · cases h

/-! ## The scheduler -/

theorem budget_ok {p : Params} {acc acc' : BitVec 16} {rate : BitVec 32} {k : Nat}
    (h : budget p acc rate = .ok (k, acc')) :
    k = (acc.toNat + rate.toNat) / 2 ^ 16 ∧ k ≤ p.dqLatency ∧
      acc'.toNat = (acc.toNat + rate.toNat) % 2 ^ 16 := by
  unfold budget at h
  simp only at h
  split at h
  · cases h
  · next hk =>
    obtain ⟨h1, h2⟩ := Prod.mk.inj (Except.ok.inj h)
    subst h1 h2
    exact ⟨rfl, by omega, by simp [rateFracBits]⟩

theorem budget_error {p : Params} {acc : BitVec 16} {rate : BitVec 32} {c : Cause}
    (h : budget p acc rate = .error c) : c = .dqOverrun ∧ p.dqLatency < (acc.toNat + rate.toNat) / 2 ^ 16 := by
  unfold budget at h
  simp only at h
  split at h
  · next hk => exact ⟨(Except.error.inj h).symm, hk⟩
  · cases h

theorem popOnce_ok {p : Params} {l l' : Link} (h : popOnce p l = .ok l') :
    ((dqPop l.dq).1 = none ∧ l' = { l with dq := (dqPop l.dq).2 }) ∨
      ∃ d, (dqPop l.dq).1 = some d ∧ atCapacity (complOf l d.dst.toNat).length p.complDepth = false ∧
        l' = { l with dq := (dqPop l.dq).2, compl := l.compl.modify d.dst.toNat (· ++ [d]) } := by
  unfold popOnce at h
  simp only at h
  split at h
  · next hp => exact .inl ⟨hp, (Except.ok.inj h).symm⟩
  · next d hp =>
    split at h
    · cases h
    · next hc => exact .inr ⟨d, hp, by simpa using hc, (Except.ok.inj h).symm⟩

theorem popOnce_error {p : Params} {l : Link} {c : Cause} (h : popOnce p l = .error c) :
    c = .completionFull ∧
      ∃ d, (dqPop l.dq).1 = some d ∧ atCapacity (complOf l d.dst.toNat).length p.complDepth = true := by
  unfold popOnce at h
  simp only at h
  split at h
  · cases h
  · next d hp =>
    split at h
    · next hc => exact ⟨(Except.error.inj h).symm, d, hp, hc⟩
    · cases h

theorem firstRr_some {n ptr s : Nat} {ok : Nat → Bool} (h : firstRr n ptr ok = some s) : s < n ∧ ok s = true := by
  unfold firstRr at h
  obtain ⟨j, hj, rfl⟩ := List.mem_map.1 (List.mem_of_find?_eq_some h)
  have hn : 0 < n := by have := List.mem_range.1 hj; omega
  exact ⟨Nat.mod_lt _ hn, List.find?_some h⟩

theorem firstRr_none {n ptr : Nat} {ok : Nat → Bool} (hptr : ptr < n) (h : firstRr n ptr ok = none) :
    ∀ s < n, ok s = false := by
  intro s hs
  unfold firstRr at h
  rw [List.find?_eq_none] at h
  have := h s (List.mem_map.2 ⟨(s + n - ptr) % n, List.mem_range.2 (Nat.mod_lt _ (by omega)), by
    rw [Nat.add_mod_mod, show ptr + (s + n - ptr) = s + n by omega, Nat.add_mod_right, Nat.mod_eq_of_lt hs]⟩)
  simpa using this

theorem shortSource_some {p : Params} {l : Link} {s : Nat} {d : Desc} (h : shortSource p l = some (s, d)) :
    l.left = 0 ∧ s < p.nSrc ∧ ∃ rest, (readyOf l s).short = d :: rest := by
  unfold shortSource at h
  split at h
  · cases h
  · next hl =>
    split at h
    · cases h
    · next s' hs =>
      rw [Option.map_eq_some_iff] at h
      obtain ⟨d', hd, he⟩ := h
      obtain ⟨rfl, rfl⟩ := Prod.mk.inj he
      exact ⟨by omega, (firstRr_some hs).1, List.head?_eq_some_iff.1 hd⟩

theorem plainSource_some {p : Params} {l : Link} {s : Nat} {d : Desc} (h : plainSource p l = some (s, d)) :
    s < p.nSrc ∧ ∃ rest, (readyOf l s).plain = d :: rest := by
  unfold plainSource at h
  split at h
  · cases h
  · next s' hs =>
    rw [Option.map_eq_some_iff] at h
    obtain ⟨d', hd, he⟩ := h
    obtain ⟨rfl, rfl⟩ := Prod.mk.inj he
    exact ⟨(firstRr_some hs).1, List.head?_eq_some_iff.1 hd⟩

theorem pendingSource_some {p : Params} {pol : Policy} {l : Link} {s : Nat} {d : Desc}
    (h : pendingSource p pol l = some (s, d)) :
    pol ≠ .plain ∧ l.tsq.n = 0 ∧ s < p.nSrc ∧ (readyOf l s).long = .pending d := by
  unfold pendingSource at h
  split at h
  · cases h
  · next hc =>
    rw [not_or] at hc
    split at h
    · cases h
    · next s' hs =>
      rw [Option.map_eq_some_iff] at h
      obtain ⟨d', hd, he⟩ := h
      obtain ⟨rfl, rfl⟩ := Prod.mk.inj he
      refine ⟨hc.1, by omega, (firstRr_some hs).1, ?_⟩
      cases hl : (readyOf l s').long <;> rw [hl] at hd <;> simp [pendingSource.pendingDesc] at hd
      rw [hd]

theorem sendHeld_ok {e : TsqEntry} {l l' : Link} (h : sendHeld e l = .ok l') :
    ∃ q, tsqPop l.tsq = .ok q ∧
      l' = emitFlit (startPacket e.payload e.size
        { modifyReady e.src (fun r => { r with long := .empty }) l with tsq := q }) := by
  unfold sendHeld at h
  split at h
  · cases h
  · next q hq => exact ⟨q, hq, (Except.ok.inj h).symm⟩

/-- Everything one flit slot can do (R346): continue the payload in progress, start a plain, a short or the held
payload, or push a filler. -/
theorem fillSlot_ok {p : Params} {pol : Policy} {l l' : Link} (h : fillSlot p pol l = .ok l') :
    (l.cur ≠ none ∧ l' = emitFlit l) ∨
      (l.cur = none ∧ pol = .plain ∧ ∃ s d, plainSource p l = some (s, d) ∧ l' = sendPlain p s d l) ∨
      (l.cur = none ∧ pol = .plain ∧ plainSource p l = none ∧ l' = pushFiller l) ∨
      (l.cur = none ∧ pol ≠ .plain ∧ ∃ s d, shortSource p l = some (s, d) ∧ l' = sendShort p s d l) ∨
      (l.cur = none ∧ pol ≠ .plain ∧ shortSource p l = none ∧
        ∃ e, tsqTop p.compLatency l.now l.tsq = some e ∧ sendHeld e l = .ok l') ∨
      (l.cur = none ∧ pol ≠ .plain ∧ shortSource p l = none ∧
        tsqTop p.compLatency l.now l.tsq = none ∧ l' = pushFiller l) := by
  have compressed : ∀ l', fillSlot.fillCompressed p l = .ok l' →
      (∃ s d, shortSource p l = some (s, d) ∧ l' = sendShort p s d l) ∨
      (shortSource p l = none ∧ ∃ e, tsqTop p.compLatency l.now l.tsq = some e ∧ sendHeld e l = .ok l') ∨
      (shortSource p l = none ∧ tsqTop p.compLatency l.now l.tsq = none ∧ l' = pushFiller l) := by
    intro l' h
    unfold fillSlot.fillCompressed at h
    split at h
    · next s d hs => exact .inl ⟨s, d, hs, (Except.ok.inj h).symm⟩
    · next hs =>
      split at h
      · next e he => exact .inr (.inl ⟨hs, e, he, h⟩)
      · next he => exact .inr (.inr ⟨hs, he, (Except.ok.inj h).symm⟩)
  unfold fillSlot at h
  split at h
  · next hc => exact .inl ⟨fun h' => by simp [h'] at hc, (Except.ok.inj h).symm⟩
  · next hc =>
    have hc : l.cur = none := by simpa using hc
    split at h
    · split at h
      · next s d hs => exact .inr (.inl ⟨hc, rfl, s, d, hs, (Except.ok.inj h).symm⟩)
      · next hs => exact .inr (.inr (.inl ⟨hc, rfl, hs, (Except.ok.inj h).symm⟩))
    all_goals
      rcases compressed l' h with h | ⟨h, h'⟩ | ⟨h, h'⟩
      · exact .inr (.inr (.inr (.inl ⟨hc, by simp, h⟩)))
      · exact .inr (.inr (.inr (.inr (.inl ⟨hc, by simp, h, h'⟩))))
      · exact .inr (.inr (.inr (.inr (.inr ⟨hc, by simp, h, h'⟩))))

/-- A flit slot raises nothing: the holder is popped only when it holds an entry (R309). -/
theorem fillSlot_ne_error (p : Params) (pol : Policy) (l : Link) (c : Cause) : fillSlot p pol l ≠ .error c := by
  have compressed : fillSlot.fillCompressed p l ≠ .error c := by
    unfold fillSlot.fillCompressed
    split
    · simp
    · split
      · next e he =>
        unfold sendHeld
        split
        · next c' hq => have := (tsqPop_error hq).2; have := (tsqTop_some he).1; omega
        · simp
      · simp
  unfold fillSlot
  split
  · simp
  · split
    · split <;> simp
    all_goals exact compressed

theorem pushPhase_ne_error (p : Params) (pol : Policy) (k : Nat) (l : Link) (c : Cause) :
    pushPhase p pol k l ≠ .error c := by
  induction k generalizing l with
  | zero => simp [pushPhase]
  | succ k ih =>
    unfold pushPhase
    split
    · next c' hf => exact absurd hf (fillSlot_ne_error p pol l c')
    · exact ih _

theorem popPhase_error {p : Params} {k : Nat} {l : Link} {c : Cause} (h : popPhase p k l = .error c) :
    c = .completionFull := by
  induction k generalizing l with
  | zero => simp [popPhase] at h
  | succ k ih =>
    unfold popPhase at h
    split at h
    · next c' hp => rw [← Except.error.inj h]; exact (popOnce_error hp).1
    · exact ih h

theorem payloadBits_ok {p : Params} {cat : List CatEntry} {mem : Memory} {m m' : WordMap StreamRecord} {d : Desc}
    {bits : Nat} (h : payloadBits p cat mem m d = .ok (bits, m')) :
    (d.size.toNat = blockBytes ∧ compressBlock p cat m d.sid (memRead mem d.addr blockBytes) = .ok (bits, m')) ∨
      (d.size.toNat ≠ blockBytes ∧ bits = d.size.toNat * 8 ∧ m' = m) := by
  unfold payloadBits at h
  split at h
  · next hs => exact .inl ⟨hs, h⟩
  · next hs =>
    obtain ⟨h1, h2⟩ := Prod.mk.inj (Except.ok.inj h)
    exact .inr ⟨hs, h1.symm, h2.symm⟩

/-- Everything the compression phase can do when it raises nothing (R352). -/
theorem compressionPhase_ok {p : Params} {pol : Policy} {cat : List CatEntry} {mem : Memory}
    {m m' : WordMap StreamRecord} {l l' : Link} (h : compressionPhase p pol cat mem m l = .ok (l', m')) :
    (pendingSource p pol l = none ∧ l' = l ∧ m' = m) ∨
      ∃ s d bits q, pendingSource p pol l = some (s, d) ∧ payloadBits p cat mem m d = .ok (bits, m') ∧
        tsqPush d (heldBits pol bits) s l.now l.tsq = .ok q ∧
        l' = { modifyReady s (fun r => { r with long := .held }) l with tsq := q, crr := (s + 1) % p.nSrc } := by
  unfold compressionPhase at h
  split at h
  · next hs =>
    obtain ⟨h1, h2⟩ := Prod.mk.inj (Except.ok.inj h)
    exact .inl ⟨hs, h1.symm, h2.symm⟩
  · next s d hs =>
    split at h
    · cases h
    · next bits m₂ hb =>
      split at h
      · cases h
      · next q hq =>
        obtain ⟨h1, h2⟩ := Prod.mk.inj (Except.ok.inj h)
        subst h1 h2
        exact .inr ⟨s, d, bits, q, hs, hb, hq, rfl⟩

theorem compressionPhase_error {p : Params} {pol : Policy} {cat : List CatEntry} {mem : Memory}
    {m : WordMap StreamRecord} {l : Link} {c : Cause} (h : compressionPhase p pol cat mem m l = .error c) :
    ∃ s d, pendingSource p pol l = some (s, d) ∧
      ((c = .streamTableFull ∧ lookupOrCreate p m d.sid = .error c) ∨
        (c = .tsqFull ∧ l.tsq.entry.length = 0)) := by
  unfold compressionPhase at h
  split at h
  · cases h
  · next s d hs =>
    refine ⟨s, d, hs, ?_⟩
    split at h
    · next c' hb =>
      obtain rfl := Except.error.inj h
      unfold payloadBits at hb
      split at hb
      · have := compressBlock_error hb
        exact .inl ⟨(lookupOrCreate_error this).1, this⟩
      · cases hb
    · split at h
      · next c' hq =>
        obtain rfl := Except.error.inj h
        obtain ⟨h1, h2⟩ := tsqPush_error hq
        exact .inr ⟨h1, by rw [← h2]; exact (pendingSource_some hs).2.1⟩
      · cases h

/-- The phases of a step that raises nothing (R343). -/
theorem stepLink_ok {p : Params} {pol : Policy} {cat : List CatEntry} {mem : Memory} {rate : BitVec 32}
    {m m' : WordMap StreamRecord} {l l' : Link} {k : Nat}
    (h : stepLink p pol cat mem rate m l = .ok (k, l', m')) :
    ∃ acc popped pushed held,
      budget p l.acc rate = .ok (k, acc) ∧ popPhase p k { l with acc := acc } = .ok popped ∧
      pushPhase p pol k popped = .ok pushed ∧
      compressionPhase p pol cat mem m
        { pushed with stats := { pushed.stats with flitsTotal := pushed.stats.flitsTotal + k } } = .ok (held, m') ∧
      l' = { held with now := held.now + 1 } := by
  unfold stepLink at h
  split at h
  · cases h
  · next k' acc hb =>
    split at h
    · cases h
    · next popped hp =>
      split at h
      · cases h
      · next pushed hq =>
        split at h
        · cases h
        · next held m₂ hc =>
          obtain ⟨h1, h2⟩ := Prod.mk.inj (Except.ok.inj h)
          obtain ⟨h3, h4⟩ := Prod.mk.inj h2
          subst h1 h3 h4
          exact ⟨acc, popped, pushed, held, hb, hp, hq, hc, rfl⟩

theorem stepLink_error {p : Params} {pol : Policy} {cat : List CatEntry} {mem : Memory} {rate : BitVec 32}
    {m : WordMap StreamRecord} {l : Link} {c : Cause} (h : stepLink p pol cat mem rate m l = .error c) :
    c = .dqOverrun ∨ c = .completionFull ∨ c = .streamTableFull ∨ c = .tsqFull := by
  unfold stepLink at h
  split at h
  · next c' hb => rw [← Except.error.inj h]; exact .inl (budget_error hb).1
  · split at h
    · next c' hp => rw [← Except.error.inj h]; exact .inr (.inl (popPhase_error hp))
    · split at h
      · next c' hq => exact absurd hq (pushPhase_ne_error _ _ _ _ _)
      · split at h
        · next c' hc =>
          rw [← Except.error.inj h]
          obtain ⟨s, d, -, h | h⟩ := compressionPhase_error hc
          · exact .inr (.inr (.inl h.1))
          · exact .inr (.inr (.inr h.1))
        · cases h

/-- Everything an admission can do (R342). -/
theorem acceptPayload_ok {p : Params} {pol : Policy} {s : Nat} {d : Desc} {l l' : Link} (h : acceptPayload p pol s d l = .ok l') :
    (pol = .plain ∧ (readyOf l s).plain.length ≠ p.plainDepth ∧
        l' = modifyReady s (fun r => { r with plain := r.plain ++ [d] }) l) ∨
      (pol ≠ .plain ∧ isLong d = true ∧ (readyOf l s).long = .empty ∧
        l' = modifyReady s (fun r => { r with long := .pending d }) l) ∨
      (pol ≠ .plain ∧ isLong d = false ∧ (readyOf l s).short.length ≠ shortDepth ∧
        l' = modifyReady s (fun r => { r with short := r.short ++ [d] }) l) := by
  have byClass : ∀ l', acceptPayload.acceptByClass s d l = .ok l' →
      (isLong d = true ∧ (readyOf l s).long = .empty ∧
        l' = modifyReady s (fun r => { r with long := .pending d }) l) ∨
      (isLong d = false ∧ (readyOf l s).short.length ≠ shortDepth ∧
        l' = modifyReady s (fun r => { r with short := r.short ++ [d] }) l) := by
    intro l' h
    unfold acceptPayload.acceptByClass at h
    split at h
    · next hd =>
      split at h
      · cases h
      · next he => exact .inl ⟨hd, by simpa using he, (Except.ok.inj h).symm⟩
    · next hd =>
      split at h
      · cases h
      · next he => exact .inr ⟨by simpa using hd, he, (Except.ok.inj h).symm⟩
  unfold acceptPayload at h
  split at h
  · split at h
    · cases h
    · next he => exact .inl ⟨rfl, he, (Except.ok.inj h).symm⟩
  all_goals
    rcases byClass l' h with h | h
    · exact .inr (.inl ⟨by simp, h⟩)
    · exact .inr (.inr ⟨by simp, h⟩)

theorem acceptPayload_error {p : Params} {pol : Policy} {s : Nat} {d : Desc} {l : Link} {c : Cause}
    (h : acceptPayload p pol s d l = .error c) : c = .readyListFull ∨ c = .longListOverflow := by
  have byClass : acceptPayload.acceptByClass s d l = .error c → c = .readyListFull ∨ c = .longListOverflow := by
    intro h
    unfold acceptPayload.acceptByClass at h
    split at h <;> split at h
    · exact .inr (Except.error.inj h).symm
    · cases h
    · exact .inl (Except.error.inj h).symm
    · cases h
  unfold acceptPayload at h
  split at h
  · split at h
    · exact .inl (Except.error.inj h).symm
    · cases h
  all_goals exact byClass h

@[simp] theorem emitFlit_ready (l : Link) : (emitFlit l).ready = l.ready := by unfold emitFlit; simp only; split <;> rfl
@[simp] theorem emitFlit_tsq (l : Link) : (emitFlit l).tsq = l.tsq := by unfold emitFlit; simp only; split <;> rfl
@[simp] theorem emitFlit_compl (l : Link) : (emitFlit l).compl = l.compl := by unfold emitFlit; simp only; split <;> rfl
@[simp] theorem emitFlit_left (l : Link) : (emitFlit l).left = l.left := by unfold emitFlit; simp only; split <;> rfl
@[simp] theorem emitFlit_rr (l : Link) : (emitFlit l).rr = l.rr := by unfold emitFlit; simp only; split <;> rfl
@[simp] theorem emitFlit_crr (l : Link) : (emitFlit l).crr = l.crr := by unfold emitFlit; simp only; split <;> rfl
@[simp] theorem emitFlit_now (l : Link) : (emitFlit l).now = l.now := by unfold emitFlit; simp only; split <;> rfl
@[simp] theorem emitFlit_acc (l : Link) : (emitFlit l).acc = l.acc := by unfold emitFlit; simp only; split <;> rfl

theorem emitFlit_counters (l : Link) :
    (emitFlit l).dq.rp = l.dq.rp ∧ (emitFlit l).dq.wp = l.dq.wp + 1 ∧
      (emitFlit l).stats = { l.stats with flitsReal := l.stats.flitsReal + 1 } := by
  unfold emitFlit
  simp only
  split <;> exact ⟨rfl, rfl, rfl⟩

theorem startPacket_counters (d : Desc) (bits : Nat) (l : Link) :
    (startPacket d bits l).stats.flitsTotal = l.stats.flitsTotal ∧
      (startPacket d bits l).stats.flitsReal = l.stats.flitsReal ∧
      (startPacket d bits l).stats.flitsFiller = l.stats.flitsFiller := by
  unfold startPacket
  simp only
  split <;> simp

/-! ## The counters through the phases (R357) -/

/-- The pop phase moves the read cursor by `k` and leaves the write cursor, the counters, `ACC` and `NOW`. -/
theorem popPhase_counters {p : Params} {k : Nat} {l l' : Link} (h : popPhase p k l = .ok l') :
    l'.dq.rp = l.dq.rp + k ∧ l'.dq.wp = l.dq.wp ∧ l'.stats = l.stats ∧ l'.acc = l.acc ∧ l'.now = l.now := by
  induction k generalizing l with
  | zero => obtain rfl := Except.ok.inj h; exact ⟨rfl, rfl, rfl, rfl, rfl⟩
  | succ k ih =>
    unfold popPhase at h
    split at h
    · cases h
    · next n hn =>
      have first : n.dq.rp = l.dq.rp + 1 ∧ n.dq.wp = l.dq.wp ∧ n.stats = l.stats ∧ n.acc = l.acc ∧ n.now = l.now := by
        rcases popOnce_ok hn with ⟨_, rfl⟩ | ⟨d, _, _, rfl⟩ <;> exact ⟨rfl, rfl, rfl, rfl, rfl⟩
      obtain ⟨h1, h2, h3, h4, h5⟩ := ih h
      obtain ⟨g1, g2, g3, g4, g5⟩ := first
      exact ⟨by omega, by omega, h3.trans g3, h4.trans g4, by omega⟩

/-- A flit slot moves the write cursor by one, counts one flit as real or filler, and leaves the read cursor, `ACC`,
`NOW` and `FLITS_TOTAL`. -/
theorem fillSlot_counters {p : Params} {pol : Policy} {l l' : Link} (h : fillSlot p pol l = .ok l') :
    l'.dq.rp = l.dq.rp ∧ l'.dq.wp = l.dq.wp + 1 ∧ l'.stats.flitsTotal = l.stats.flitsTotal ∧
      l'.stats.flitsReal + l'.stats.flitsFiller = l.stats.flitsReal + l.stats.flitsFiller + 1 ∧
      l'.acc = l.acc ∧ l'.now = l.now := by
  have send : ∀ (d : Desc) (bits : Nat) (n : Link), n.dq = l.dq → n.stats = l.stats → n.acc = l.acc → n.now = l.now →
      ∀ l', l' = emitFlit (startPacket d bits n) →
        l'.dq.rp = l.dq.rp ∧ l'.dq.wp = l.dq.wp + 1 ∧ l'.stats.flitsTotal = l.stats.flitsTotal ∧
          l'.stats.flitsReal + l'.stats.flitsFiller = l.stats.flitsReal + l.stats.flitsFiller + 1 ∧
          l'.acc = l.acc ∧ l'.now = l.now := by
    rintro d bits n hq hs ha hn _ rfl
    obtain ⟨e1, e2, e3⟩ := emitFlit_counters (startPacket d bits n)
    obtain ⟨t1, t2, t3⟩ := startPacket_counters d bits n
    rw [e1, e2, e3, emitFlit_acc, emitFlit_now, ← hs]
    exact ⟨congrArg DelayQueue.rp hq, congrArg (fun q => q.wp + 1) hq, t1, by simp only [t2, t3]; omega, ha, hn⟩
  rcases fillSlot_ok h with ⟨_, rfl⟩ | ⟨_, _, s, d, _, rfl⟩ | ⟨_, _, _, rfl⟩ | ⟨_, _, s, d, _, rfl⟩ |
    ⟨_, _, _, e, _, h⟩ | ⟨_, _, _, _, rfl⟩
  · obtain ⟨e1, e2, e3⟩ := emitFlit_counters l
    rw [e1, e2, e3, emitFlit_acc, emitFlit_now]
    exact ⟨rfl, rfl, rfl, by simp only; omega, rfl, rfl⟩
  · refine send d (plainBits d) _ ?_ ?_ ?_ ?_ _ rfl <;> rfl
  · exact ⟨rfl, rfl, rfl, rfl, rfl, rfl⟩
  · refine send d 0 _ ?_ ?_ ?_ ?_ _ rfl <;> rfl
  · obtain ⟨q, _, hl⟩ := sendHeld_ok h
    refine send _ _ _ ?_ ?_ ?_ ?_ _ hl <;> rfl
  · exact ⟨rfl, rfl, rfl, rfl, rfl, rfl⟩

/-- The push phase moves the write cursor by `k` and counts `k` flits as real or filler. -/
theorem pushPhase_counters {p : Params} {pol : Policy} {k : Nat} {l l' : Link} (h : pushPhase p pol k l = .ok l') :
    l'.dq.rp = l.dq.rp ∧ l'.dq.wp = l.dq.wp + k ∧ l'.stats.flitsTotal = l.stats.flitsTotal ∧
      l'.stats.flitsReal + l'.stats.flitsFiller = l.stats.flitsReal + l.stats.flitsFiller + k ∧
      l'.acc = l.acc ∧ l'.now = l.now := by
  induction k generalizing l with
  | zero => obtain rfl := Except.ok.inj h; exact ⟨rfl, rfl, rfl, rfl, rfl, rfl⟩
  | succ k ih =>
    unfold pushPhase at h
    split at h
    · cases h
    · next n hn =>
      obtain ⟨h1, h2, h3, h4, h5, h6⟩ := ih h
      obtain ⟨g1, g2, g3, g4, g5, g6⟩ := fillSlot_counters hn
      exact ⟨by omega, by omega, by omega, by omega, h5.trans g5, by omega⟩

/-- The compression phase leaves the flits, the counters, `ACC` and `NOW`. -/
theorem compressionPhase_counters {p : Params} {pol : Policy} {cat : List CatEntry} {mem : Memory}
    {m m' : WordMap StreamRecord} {l l' : Link} (h : compressionPhase p pol cat mem m l = .ok (l', m')) :
    l'.dq = l.dq ∧ l'.stats = l.stats ∧ l'.acc = l.acc ∧ l'.now = l.now := by
  rcases compressionPhase_ok h with ⟨_, rfl, _⟩ | ⟨_, _, _, _, _, _, _, rfl⟩ <;> exact ⟨rfl, rfl, rfl, rfl⟩

end Sys2Proof.Machine
end

