-- ==== Sys2Proof/Tests/Slice0.lean ====
section
/-! SUPPORT. The package's own tests. The expected values are those of spec 95_examples.md, by its vector names, or are
written out from the rule named; the witnesses show states that meet the hypotheses of the obligations. -/

namespace Sys2Proof.Machine

set_option Elab.async false

/-! ## Helpers -/

/-- The state an outcome goes on in. -/
def after (o : Host.Outcome State Fault Refusal) : State :=
  match o with
  | .next t => t
  | .fault f => nomatch f
  | .refused _ => State.reset

theorem exec_after (i : Instr) (s : State) : exec i s = .next (after (exec i s)) := by
  obtain ⟨b, hb⟩ := exec_next i s
  rw [hb]
  rfl

/-- The reset state with the host driving these ports. -/
def driving (p : Ports) : State := presentPorts p State.reset

/-- One step, presenting the word `w` with `A` and `B`, in a state. -/
def issueWord (w : CmdWord) (a b : Word) (s : State) : State :=
  after (step { s with inbox := [.command { s.ports with cmd := w, a := a, b := b }] })

/-- `STATUS` and `RES` after that step. -/
def seen (w : CmdWord) (a b : Word) (s : State) : BitVec 32 × Word :=
  (statusPort (issueWord w a b s), resPort (issueWord w a b s))

/-- The payload of LV2: tag 7, a read reply of 128 bytes. -/
def longPayload : Desc := { tag := 7, type := .readReply, size := 128, addr := 0x1000, dst := 0, sid := 5 }

/-- The payload of LV1: tag 1, a read request. -/
def shortPayload : Desc := { tag := 1, type := .readRequest, size := 0, addr := 0, dst := 1, sid := 0 }

/-- Stream 5 after V1 and V2: the words and window of V2, `HITS[0]` and `HITS[1]`, one escape. -/
def streamFive : StreamRecord :=
  { win := List.replicate 4 0x123456789ABCDEF0, words := 32, hits := 16 :: 15 :: List.replicate 26 0, esc := 1,
    escv := [(0x123456789ABCDEF0, 1)] }

/-- The state after V1 and V2. -/
def afterV2 : State := { State.reset with block := { State.reset.block with streams := [(5, streamFive)] } }

/-- LV2 after its step 0: the payload compressed to 32 bits and held, one filler flit sent, `NOW = 1`. -/
def heldLink : Link :=
  { linkInit defaultParams with
    now := 1
    crr := 1
    ready := [{ readyInit with long := .held }, readyInit]
    dq := { (linkInit defaultParams).dq with rp := 1, wp := 5 }
    tsq := { entry := [some { payload := longPayload, size := 32, src := 0, time := 0 }], rp := 0, wp := 1, n := 1 }
    stats := { statsInit with flitsTotal := 1, flitsFiller := 1 } }

/-- The state of LV2 after its step 0, with the stream of V1 and V2 in place of LV2's, and a short payload on `DESC_IN`. -/
def busy : State :=
  { afterV2 with
    block := { afterV2.block with up := heldLink }
    ports := { portsIdle with cmd := 0x11000000, descIn := encodeDesc shortPayload, rate := 0x00010000, a := 5 } }

/-- A state in the fatal state. -/
def stuck : State := { State.reset with block := raiseFatal .badIndex 0x01000007 State.reset.block }

/-! ## Words written out from R130 and R134: opcode, `DIR`, `RSV`, `IDX` -/

theorem test_decode_nop : decode 0b00000000000000000001001000110100#32 = .ok (.nop 0x1234) := by decide
theorem test_decode_pred : decode 0b00000001000000000000000000000110#32 = .ok (.pred 6) := by decide
theorem test_decode_match : decode 0b00000010000000000000000000001101#32 = .ok (.matchPat 13) := by decide
theorem test_decode_compress : decode 0b00000011000000000000000010000000#32 = .ok (.compress 128) := by decide
theorem test_decode_prof_read : decode 0b00000101000000001100000000000000#32 = .ok (.profRead 0xC000) := by decide
theorem test_decode_prof_global : decode 0b00000110000000000100000000000000#32 = .ok (.profGlobal 0x4000) := by decide
theorem test_decode_cat_read : decode 0b00000111000000000000000000011011#32 = .ok (.catRead 27) := by decide
theorem test_decode_win_read : decode 0b00001000000000000000000000000011#32 = .ok (.winRead 3) := by decide
theorem test_decode_link_push : decode 0b00010000100000000000000000000001#32 = .ok (.linkPush .dn 1) := by decide
theorem test_decode_link_step : decode 0b00010001000000000000000000000000#32 = .ok (.linkStep .up 0) := by decide
theorem test_decode_link_pop : decode 0b00010010100000000000000000000001#32 = .ok (.linkPop .dn 1) := by decide
theorem test_decode_link_stat : decode 0b00010011000000000000000000001100#32 = .ok (.linkStat .up 12) := by decide
theorem test_decode_link_srcstat : decode 0b00010100100000000000000000000001#32 = .ok (.linkSrcstat .dn 1) := by decide

/-- R144 (a), (b), (c), each alone. -/
theorem test_decode_illegal :
    decode 0x04000000 = .error .opcodeUnassigned ∧ decode 0x09000000 = .error .opcodeUnassigned ∧
      decode 0x15000000 = .error .opcodeUnassigned ∧ decode 0xFF000000 = .error .opcodeUnassigned ∧
      decode 0x01010000 = .error .reservedNotZero ∧ decode 0x11400000 = .error .reservedNotZero ∧
      decode 0x01800000 = .error .dirOnNonLink := by decide

theorem test_encode :
    encode (.compress 128) = 0x03000080 ∧ encode (.profRead 0x40FF) = 0x050040FF ∧
      encode (.linkPush .dn 1) = 0x10800001 ∧ encode (.linkPop .up 1) = 0x12000001 := by decide

/-! ## Well-formedness: an index one past the range of each command is refused -/

theorem test_wellFormed_smoke :
    (wellFormed defaultParams (.pred 6) = true ∧ wellFormed defaultParams (.pred 7) = false) ∧
      (wellFormed defaultParams (.matchPat 27) = true ∧ wellFormed defaultParams (.matchPat 28) = false) ∧
      (wellFormed defaultParams (.compress 128) = true ∧ wellFormed defaultParams (.compress 127) = false) ∧
      (wellFormed defaultParams (.profRead 27) = true ∧ wellFormed defaultParams (.profRead 28) = false) ∧
      (wellFormed defaultParams (.profRead 0x40FF) = true ∧ wellFormed defaultParams (.profRead 0x4100) = false) ∧
      (wellFormed defaultParams (.profGlobal 27) = true ∧ wellFormed defaultParams (.profGlobal 28) = false) ∧
      (wellFormed defaultParams (.catRead 27) = true ∧ wellFormed defaultParams (.catRead 28) = false) ∧
      (wellFormed defaultParams (.winRead 3) = true ∧ wellFormed defaultParams (.winRead 4) = false) := by
  decide +kernel

theorem test_wellFormed_smoke_link :
    (wellFormed defaultParams (.linkPush .up 1) = true ∧ wellFormed defaultParams (.linkPush .up 2) = false) ∧
      (wellFormed defaultParams (.linkPop .dn 1) = true ∧ wellFormed defaultParams (.linkPop .dn 2) = false) ∧
      (wellFormed defaultParams (.linkStat .up 12) = true ∧ wellFormed defaultParams (.linkStat .up 13) = false) ∧
      (wellFormed defaultParams (.linkSrcstat .dn 1) = true ∧ wellFormed defaultParams (.linkSrcstat .dn 2) = false) ∧
      wellFormed defaultParams (.nop 0xFFFF) = true ∧ wellFormed defaultParams (.linkStep .up 0xFFFF) = true := by
  decide +kernel

/-! ## One step of each command -/

/-- R420. -/
theorem test_nop : seen 0x00001234 0 0 afterV2 = (0, 0) := by decide +kernel
/-- T12 and T16: two bits are not one-hot, and bit 7 alone clear is no sign extension. -/
theorem test_pred : seen 0x01000003 3 0 State.reset = (0x00010000, 0) ∧
    seen 0x01000004 0xFFFFFFFFFFFFFF7F 0 State.reset = (0x00010000, 0) := by decide +kernel
/-- T19c: the index one past the list. -/
theorem test_pred_bad_index : seen 0x01000007 3 0 State.reset = (0x00000701, 0) ∧
    fatalCmdPort (issueWord 0x01000007 3 0 State.reset) = 0x01000007 := by decide +kernel
/-- T24 and T25. -/
theorem test_match : seen 0x0200000D 0x99 0xFFFFFFFFFFFFFFFE State.reset = (0x00010000, 1) ∧
    seen 0x0200000D 0x99 0 State.reset = (0x00010000, 0) := by decide +kernel
/-- T23 and T27: level 0 tests the word alone, and level 3 takes three distinct positions. -/
theorem test_match_levels : seen 0x02000000 0x99 m64 State.reset = (0x00010000, 0) ∧
    seen 0x02000003 0x99 0 State.reset = (0x00010000, 1) := by decide +kernel
/-- T31a and T31b: `ONES` L3 and `ONEHOT` L1. -/
theorem test_cat_read : seen 0x07000008 0 0 State.reset = (0x00010000, 0x0000000103070009) ∧
    seen 0x0700000B 0 0 State.reset = (0x00010000, 0x00000003010D000B) := by decide +kernel
/-- V1: an all-zero block. -/
theorem test_compress : seen 0x03000080 6 0 State.reset = (0x00010000, 32) := by decide +kernel
/-- T48. -/
theorem test_compress_bad_size : seen 0x03000040 6 0 State.reset = (0x00000101, 0) := by decide +kernel
/-- T33 and T35. -/
theorem test_win_read : seen 0x08000003 5 0 afterV2 = (0x00010000, 0x123456789ABCDEF0) ∧
    seen 0x08000000 0x77 0 afterV2 = (0x00010000, m64) := by decide +kernel
/-- T37 and T41. -/
theorem test_prof_read : seen 0x05000001 5 0 afterV2 = (0x00010000, 15) ∧
    seen 0x0500C000 5 0 afterV2 = (0x00010000, 0) := by decide +kernel
/-- T42 and T44: `PID` is ignored for `WORDS`, and bits 13:8 must be 0. -/
theorem test_prof_read_selector : seen 0x050040FF 5 0 afterV2 = (0x00010000, 32) ∧
    seen 0x05000100 5 0 afterV2 = (0x00000701, 0) := by decide +kernel
/-- T45 and T46: the class is bit 63 of `A`. -/
theorem test_prof_global : seen 0x06004000 0 0 afterV2 = (0x00010000, 32) ∧
    seen 0x06004000 0x8000000000000000 0 afterV2 = (0x00010000, 0) := by decide +kernel
/-- R342 and R143: the pushed short payload shows in source 1 of the downlink, the long one of R341 not among the short. -/
theorem test_link_push :
    readyOf (issueWord 0x10800001 0 0 busy).block.dn 1 = { short := [shortPayload], long := .empty, plain := [] } ∧
      (issueWord 0x10800001 0 0 busy).block.up = heldLink := by decide +kernel
/-- R342: a source with a held payload admits no other long one. -/
theorem test_link_push_overflow :
    statusPort (issueWord 0x10000000 0 0
      { busy with ports := { portsIdle with descIn := encodeDesc longPayload } }) = 0x00000301 := by decide +kernel
/-- LV2, step 1: `pk = 160`, so two flits and 96 bits left; the head flit goes to the queue. -/
theorem test_link_step :
    (issueWord 0x11000000 0 0 busy).block.up.left = 96 ∧ (issueWord 0x11000000 0 0 busy).block.up.nfl = 2 ∧
      (issueWord 0x11000000 0 0 busy).block.up.cur = some longPayload ∧
      (issueWord 0x11000000 0 0 busy).block.up.dq.slot[5]? =
        some { payload := some longPayload, head := true, tail := false } ∧
      seen 0x11000000 0 0 busy = (0x00010000, 1) := by decide +kernel
/-- LV2, step 0: the pending payload is compressed to 32 bits in stream 5 and held at time 0, its source `HELD`. -/
theorem test_link_step_compresses :
    ((issueWord 0x11000000 0 0
        { busy with block := { State.reset.block with up :=
          { linkInit defaultParams with ready := [{ readyInit with long := .pending longPayload }, readyInit] } } }).block.up
      = { heldLink with dq := { heldLink.dq with slot := List.replicate 8 fillerFlit } }) := by decide +kernel
/-- R358: an empty list answers 0 with `RES_VALID = 0`. -/
theorem test_link_pop_empty : seen 0x12000001 0 0 busy = (0x00000000, 0) := by decide +kernel
/-- R358: the oldest of two is delivered, the other stays. -/
theorem test_link_pop :
    descOutPort (issueWord 0x12000000 0 0
        { busy with block := { busy.block with up := { heldLink with compl := [[longPayload, shortPayload], []] } } }) =
        0x00000000000000020000008000000007000000000000000500000000_00001000 ∧
      (issueWord 0x12000000 0 0
        { busy with block := { busy.block with up := { heldLink with compl := [[longPayload, shortPayload], []] } } }).block.up.compl
        = [[shortPayload], []] := by decide +kernel
/-- R142: `NOW`, `CRR`, and the selector one past the table. -/
theorem test_link_stat : seen 0x13000005 0 0 busy = (0x00010000, 1) ∧ seen 0x1300000A 0 0 busy = (0x00010000, 1) ∧
    seen 0x1300000D 0 0 busy = (0x00000701, 0) := by decide +kernel
/-- LV2: a held payload reads as `0x200`. -/
theorem test_link_srcstat : seen 0x14000000 0 0 busy = (0x00010000, 0x200) ∧
    seen 0x14000002 0 0 busy = (0x00000701, 0) := by decide +kernel
/-- R144, R430: an illegal word is latched whole. -/
theorem test_illegal : statusPort (issueWord 0x01810007 0 0 busy) = 0x00000601 ∧
    fatalCmdPort (issueWord 0x01810007 0 0 busy) = 0x01810007 := by decide +kernel
/-- R434: the fatal state refuses a command. -/
theorem test_fatal_refuses : (issueWord 0x00000000 0 0 stuck).block = stuck.block := by decide +kernel
/-- R472: a zero latency is no valid configuration. -/
theorem test_reset_bad_config :
    statusWord (resetBlock { defaultParams with dqLatency := 0 }).status = 0x00000D01 := by decide +kernel
/-- R101: in LV2's step 0 the read is of 128 bytes at the payload's address. -/
theorem test_mem_request :
    memRequest .up { busy with block := { State.reset.block with up :=
          { linkInit defaultParams with ready := [{ readyInit with long := .pending longPayload }, readyInit] } } } =
      some (0x1000, 128) := by decide +kernel
/-- R147 and R146: a tick without a suffix is an uplink step at one flit. -/
theorem test_assemble_tick :
    (assemble { mnemonic := .linkTick, suffix := none, idx := none, a := none, b := none, blk := none, desc := none,
                rate := none } portsIdle).map (fun p => (p.cmd, p.rate)) = some (0x11000000, 0x00010000) := by
  decide +kernel
/-- R146: `PROF_READ HITS,0 ; A=0x5`, and `BLK=rep(w)` of V2, whose first byte is the low one. -/
theorem test_assemble_tokens :
    ((assemble { mnemonic := .profRead, suffix := none, idx := some (.hits 1), a := some 5, b := none, blk := none,
                 desc := none, rate := none } portsIdle).map fun p => (p.cmd, p.a)) = some (0x05000001, 5) ∧
      ((blkBytes (.rep 0x123456789ABCDEF0)).toList.take 2) = [0xF0, 0xDE] := by decide +kernel
/-- The host's questions: the word runs as the first command after reset. -/
theorem test_withFetchWord :
    decodeTableWord 32 0x01000000 = some (.pred 0) ∧
      resPort (after (step (State.reset.withFetchWord 32 0x01000000))) = 1 := by decide +kernel

/-! ## Witnesses: states and operands that meet the hypotheses of each obligation, at the ends of the ranges -/

/-- The ready lists of a source with nothing ready, and of one whose long payload is held or pending. -/
theorem witness_ready {r : ReadyLists}
    (h : r = readyInit ∨ r = { readyInit with long := .held } ∨ r = { readyInit with long := .pending longPayload }) :
    ReadyInv defaultParams .packed r := by
  rcases h with rfl | rfl | rfl <;>
    exact
      { short_le := by decide, plain_le := by decide, plain_unused := fun _ => rfl, compressed_unused := nofun
        short_class := nofun, pending_class := by rintro _ ⟨⟩ <;> rfl, payload_dst := by decide }

theorem witness_heldLink : LinkInv defaultParams .packed heldLink where
  ready_length := by decide +kernel
  compl_length := by decide +kernel
  slot_length := by decide +kernel
  entry_length := by decide +kernel
  rr_lt := by decide +kernel
  crr_lt := by decide +kernel
  left_lt := by decide +kernel
  ready_inv := by
    intro r hr
    simp only [heldLink, List.mem_cons, List.not_mem_nil, or_false] at hr
    rcases hr with rfl | rfl
    · exact witness_ready (.inr (.inl rfl))
    · exact witness_ready (.inl rfl)
  idle_off := by decide +kernel
  busy_off := by decide +kernel
  dq_latency := by decide +kernel
  holder_le := by decide +kernel
  tsq_cursors := by decide +kernel
  holder_entry := fun _ => ⟨_, rfl, rfl⟩
  held_entry := by
    intro s hs h
    have : s = 0 ∨ s = 1 := by have : s < 2 := hs; omega
    rcases this with rfl | rfl
    · exact ⟨_, rfl, rfl⟩
    · exact absurd h (by decide +kernel)
  held_time := by decide +kernel
  held_aligned := by decide +kernel
  left_zero := by decide +kernel
  payload_dst := by decide +kernel
  compl_le := by intro c hc; cases hc
  flits_total := by decide +kernel
  dq_pops := by decide +kernel

theorem witness_idleLink : LinkInv defaultParams .packed (linkInit defaultParams) where
  ready_length := by decide +kernel
  compl_length := by decide +kernel
  slot_length := by decide +kernel
  entry_length := by decide +kernel
  rr_lt := by decide +kernel
  crr_lt := by decide +kernel
  left_lt := by decide +kernel
  ready_inv := by
    intro r hr
    rcases List.mem_replicate.1 hr with ⟨_, rfl⟩
    exact witness_ready (.inl rfl)
  idle_off := by decide +kernel
  busy_off := by decide +kernel
  dq_latency := by decide +kernel
  holder_le := by decide +kernel
  tsq_cursors := by decide +kernel
  holder_entry := by intro h; cases h
  held_entry := by
    intro s hs h
    have : s = 0 ∨ s = 1 := by have : s < 2 := hs; omega
    rcases this with rfl | rfl <;> exact absurd h (by decide +kernel)
  held_time := by decide +kernel
  held_aligned := by decide +kernel
  left_zero := by decide +kernel
  payload_dst := by decide +kernel
  compl_le := by intro c hc; cases hc
  flits_total := by decide +kernel
  dq_pops := by decide +kernel

theorem witness_streamFive : StreamInv defaultParams streamFive where
  win_length := by decide +kernel
  hits_length := by decide +kernel
  words_split := by decide +kernel
  escv_wf := by decide +kernel
  escv_pos := by decide +kernel
  escv_sum := by decide +kernel

/-- `busy` is live and meets the invariants: for `EveryStepKeepsTheInvariants`, `NoPayloadIsDropped`,
`CommandsRaiseOnlyTheirCauses` and `LinkStepCompletes`. -/
theorem witness_stateInv : StateInv busy where
  cause_iff := by decide +kernel
  fatal_no_result := by decide +kernel
  mem_wf := by decide +kernel
  block := fun _ =>
    { config := by decide +kernel
      cat := by decide +kernel
      streams_wf := by decide +kernel
      streams_le := by intro m hm; cases hm
      streams := by
        intro e he
        simp only [busy, afterV2, List.mem_cons, List.not_mem_nil, or_false] at he
        subst he
        exact witness_streamFive
      link := fun d => by cases d; exacts [witness_heldLink, witness_idleLink] }

/-- For `StepBudgetAndOverrun`: the rate at the top of its range, `L` flits and a fraction, and the next above it. -/
theorem witness_overrun :
    live busy ∧ rateAllowed { busy with ports := { busy.ports with rate := 0x0004FFFF } } .up ∧
      ¬ rateAllowed { busy with ports := { busy.ports with rate := 0x00050000 } } .up := by
  simp only [live, rateAllowed]; decide +kernel

/-- For `LinkStepCompletes`. -/
theorem witness_linkStepCompletes :
    live busy ∧ StateInv busy ∧ rateAllowed busy .up ∧ completionRoom busy .up ∧ streamRoom busy .up :=
  ⟨rfl, witness_stateInv, by simp only [rateAllowed]; decide +kernel, fun _ hc => (nomatch hc),
    fun _ _ hm => (nomatch hm)⟩

/-- A link with a pending payload of stream `sid`, the tail flit of a short payload oldest in flight, and some
payloads delivered to that one's destination. -/
def boundedLink (sid : Word) (delivered : List Desc) : Link :=
  { linkInit defaultParams with
    ready := [{ readyInit with long := .pending { longPayload with sid := sid } }, readyInit]
    dq := { (linkInit defaultParams).dq with
            slot := (linkInit defaultParams).dq.slot.set 0 { payload := some shortPayload, head := true, tail := true } }
    compl := [[], delivered] }

/-- A state with such a link, whose stream table has room for one stream and holds stream 5, and whose completion lists
have room for one payload. -/
def bounded (sid : Word) (delivered : List Desc) : State :=
  { busy with
    params := { defaultParams with maxStreams := some 1, complDepth := some 1 }
    block := { busy.block with up := boundedLink sid delivered } }

/-- The bounds on the table and the lists concern nothing of a link but its completion lists. -/
theorem linkInv_bounds {p : Params} {pol : Policy} {l : Link} (h : LinkInv p pol l) (m c : Option Nat)
    (hc : ∀ n, c = some n → ∀ q ∈ l.compl, q.length ≤ n) :
    LinkInv { p with maxStreams := m, complDepth := c } pol l :=
  { h with compl_le := hc, ready_inv := fun r hr => { h.ready_inv r hr with } }

theorem witness_boundedLink (sid : Word) (delivered : List Desc) (hsid : sid = 5 ∨ sid = 6)
    (hd : delivered = [] ∨ delivered = [shortPayload]) :
    LinkInv defaultParams .packed (boundedLink sid delivered) where
  ready_length := rfl
  compl_length := rfl
  slot_length := rfl
  entry_length := rfl
  rr_lt := Nat.zero_lt_two
  crr_lt := Nat.zero_lt_two
  left_lt := Nat.zero_lt_succ 127
  ready_inv := by
    intro r hr
    simp only [boundedLink, List.mem_cons, List.not_mem_nil, or_false] at hr
    rcases hr with rfl | rfl
    · exact { short_le := Nat.zero_le _, plain_le := Nat.zero_le _, plain_unused := fun _ => rfl, compressed_unused := nofun
              short_class := nofun, pending_class := by rintro _ ⟨⟩; rfl
              payload_dst := by rintro _ (_ | ⟨_, ⟨⟩⟩); exact Nat.zero_lt_two }
    · exact witness_ready (.inl rfl)
  idle_off := fun _ => ⟨rfl, rfl⟩
  busy_off := fun h => absurd rfl h
  dq_latency := rfl
  holder_le := Nat.zero_le _
  tsq_cursors := rfl
  holder_entry := nofun
  held_entry := by
    intro s hs h
    have : s = 0 ∨ s = 1 := by have : s < 2 := hs; omega
    rcases this with rfl | rfl <;> cases h
  held_time := nofun
  held_aligned := nofun
  left_zero := fun _ => rfl
  payload_dst := by
    rcases hsid with rfl | rfl <;> rcases hd with rfl | rfl <;> decide +kernel
  compl_le := by intro c hc; cases hc
  flits_total := rfl
  dq_pops := rfl

theorem witness_bounded (sid : Word) (delivered : List Desc) (hsid : sid = 5 ∨ sid = 6)
    (hd : delivered = [] ∨ delivered = [shortPayload]) : StateInv (bounded sid delivered) where
  cause_iff := witness_stateInv.cause_iff
  fatal_no_result := nofun
  mem_wf := witness_stateInv.mem_wf
  block := fun _ =>
    { config := show validConfig { defaultParams with maxStreams := some 1, complDepth := some 1 } = true by decide +kernel
      cat := (witness_stateInv.block rfl).cat
      streams_wf := (witness_stateInv.block rfl).streams_wf
      streams_le := by intro m hm; cases hm; exact Nat.le_refl 1
      streams := fun e he => { (witness_stateInv.block rfl).streams e he with }
      link := fun d => by
        cases d
        · refine linkInv_bounds (witness_boundedLink sid delivered hsid hd) _ _ ?_
          rintro n ⟨⟩
          rcases hsid with rfl | rfl <;> rcases hd with rfl | rfl <;> decide
        · refine linkInv_bounds witness_idleLink _ _ ?_
          rintro n ⟨⟩
          decide }

/-- For `LinkStepCompletes`: a delivery that fills its list, and a payload whose stream is in the full table. -/
theorem witness_linkStepCompletes_full :
    live (bounded 5 []) ∧ StateInv (bounded 5 []) ∧ rateAllowed (bounded 5 []) .up ∧
      completionRoom (bounded 5 []) .up ∧ streamRoom (bounded 5 []) .up ∧ deliveries (bounded 5 []) .up = [shortPayload] ∧
      stepCompresses (bounded 5 []).params .packed (bounded 5 []).ports.rate (bounded 5 []).block.up =
        some longPayload := by
  refine ⟨rfl, witness_bounded 5 [] (.inl rfl) (.inl rfl), by simp only [rateAllowed]; decide +kernel, ?_, ?_,
    by decide +kernel, by decide +kernel⟩
  · rintro c ⟨⟩
    decide +kernel
  · intro m q _ hq hn
    obtain rfl : longPayload = q := by
      rw [show stepCompresses _ _ _ _ = some longPayload by decide +kernel] at hq
      exact Option.some.inj hq
    exact absurd hn (by decide +kernel)

/-- For `LinkStepFatalErrors`: a full list, and with room for the delivery a payload of a new stream and a full table. -/
theorem witness_linkStepFatal :
    (live (bounded 5 [shortPayload]) ∧ StateInv (bounded 5 [shortPayload]) ∧ rateAllowed (bounded 5 [shortPayload]) .up ∧
      ¬ completionRoom (bounded 5 [shortPayload]) .up) ∧
      live (bounded 6 []) ∧ StateInv (bounded 6 []) ∧ rateAllowed (bounded 6 []) .up ∧
      completionRoom (bounded 6 []) .up ∧ ¬ streamRoom (bounded 6 []) .up := by
  refine ⟨⟨rfl, witness_bounded 5 _ (.inl rfl) (.inr rfl), by simp only [rateAllowed]; decide +kernel, fun h => ?_⟩,
    rfl, witness_bounded 6 _ (.inr rfl) (.inl rfl), by simp only [rateAllowed]; decide +kernel, ?_, fun h => ?_⟩
  · exact absurd (h 1 rfl 1 (by decide)) (by decide +kernel)
  · rintro c ⟨⟩
    decide +kernel
  · exact absurd (h 1 { longPayload with sid := 6 } rfl (by decide +kernel) (by decide +kernel)) (by decide)

/-- For `IllegalWordsAndBadIndexes`. -/
theorem witness_illegal :
    live (driving { portsIdle with cmd := 0x01810007 }) ∧
      decode (driving { portsIdle with cmd := 0x01810007 }).ports.cmd = .error .reservedNotZero ∧
      decode (driving { portsIdle with cmd := 0x03000081 }).ports.cmd = .ok (.compress 129) ∧
      wellFormed State.reset.params (.compress 129) = false := by decide +kernel

/-- For `LinkTickIsOneFlitStep`. -/
theorem witness_tick :
    ({ mnemonic := .linkTick, suffix := some .dn, idx := none, a := none, b := none, blk := none, desc := none,
       rate := some 3 } : CommandLine).mnemonic = .linkTick := rfl

/-- For `StepRunsTheDecodedCommand`: an illegal word presented to a live state takes it to the fatal state. -/
theorem witness_inbox_illegal :
    ({ busy with inbox := [.command { portsIdle with cmd := 0x04000000 }] } : State).inbox =
        .command { portsIdle with cmd := 0x04000000 } :: [] ∧
      seen 0x04000000 0 0 busy = (0x00000601, 0) := by decide +kernel

/-- For `StepRunsTheDecodedCommand` and `HostActionsTakeEffect`. -/
theorem witness_inbox :
    ({ busy with inbox := [.command { portsIdle with cmd := 0x08000003 }] } : State).inbox =
        .command { portsIdle with cmd := 0x08000003 } :: [] ∧
      decode 0x08000003 = .ok (.winRead 3) ∧ State.reset.inbox = [] ∧
      ({ busy with inbox := [.reset defaultParams] } : State).inbox = .reset defaultParams :: [] ∧
      ({ busy with inbox := [.memWrite m64 7] } : State).inbox = .memWrite m64 7 :: [] ∧ memoryWf busy.mem := by
  decide +kernel

/-- For `FatalStateRefusesCommands`: a command is coming; a reset coming leads to a live state. -/
theorem witness_fatal :
    stuck.block.status.fatal = true ∧
      ({ stuck with inbox := [.command portsIdle] } : State).inbox = .command portsIdle :: [] ∧
      live (after (step { stuck with inbox := [.reset defaultParams] })) := by decide +kernel

/-- For `CommandsWriteOnlyTheirState`: `COMPRESS` and `LINK_PUSH` go on live from `busy` too. -/
theorem witness_write :
    exec (.compress 128) busy = .next (after (exec (.compress 128) busy)) ∧
      live (after (exec (.compress 128) busy)) ∧
      exec (.linkPush .up 1) busy = .next (after (exec (.linkPush .up 1) busy)) ∧
      live (after (exec (.linkPush .up 1) busy)) :=
  ⟨exec_after _ _, by decide +kernel, exec_after _ _, by decide +kernel⟩

/-- For `FatalErrorsArePrecise`, `CommandsRaiseOnlyTheirCauses` and `CommandsWriteOnlyTheirState`: from a live state that
meets the invariants, one command that raises and one that does not. -/
theorem witness_raise :
    live busy ∧ StateInv busy ∧ exec (.linkPop .up 2) busy = .next (after (exec (.linkPop .up 2) busy)) ∧
      (after (exec (.linkPop .up 2) busy)).block.status.fatal = true ∧
      exec (.linkPop .up 1) busy = .next (after (exec (.linkPop .up 1) busy)) ∧
      live (after (exec (.linkPop .up 1) busy)) :=
  ⟨rfl, witness_stateInv, exec_after _ _, by decide +kernel, exec_after _ _, by decide +kernel⟩

/-- For `BlockWordsAreLittleEndian` and `SignExtIsEqualUpperBits`. -/
theorem witness_ranges : 15 < 16 ∧ 7 < 8 ∧ (2 ≤ 2 ∧ 2 ≤ 63) ∧ (2 ≤ 63 ∧ 63 ≤ 63) := by decide

/-- For `CatalogIsEveryPatternSorted`, `ResetLeavesTheInitialBlock` and the commands on the catalog: the default
parameters are valid, their last predicate is 6, and `busy` holds their catalog. -/
theorem witness_config :
    validConfig defaultParams = true ∧ defaultParams.predList[6]? = some ⟨.signExt 32, 35⟩ ∧ 3 ≤ 3 ∧
      validConfig { defaultParams with tsqCapacity := 0 } = false ∧ busy.params = defaultParams ∧
      busy.block.cat = buildCatalog busy.params := by decide +kernel

/-- For `ClassifyIsCheapestMatch` and `AccountChargesOneWord`: V2's word escapes from an initial window and then
matches pattern 1. -/
theorem witness_classify :
    classify defaultParams (buildCatalog defaultParams) (streamInit defaultParams).win 0x123456789ABCDEF0 = none ∧
      (classify defaultParams (buildCatalog defaultParams) streamFive.win 0x123456789ABCDEF0).map (fun e => e.id) =
        some 1 ∧
      (1 : BitVec 8).toNat < streamFive.hits.length := by decide +kernel

/-- For `PredTestsOnePredicate`, `MatchAnswersThePattern` and `CatReadAnswersTheEntry`: the last index in range and the
first out of it. -/
theorem witness_indexes :
    live busy ∧ busy.params.predList[(6 : BitVec 16).toNat]? = some ⟨.signExt 32, 35⟩ ∧
      nPred busy.params ≤ (7 : BitVec 16).toNat ∧ validConfig busy.params = true ∧
      busy.block.cat = buildCatalog busy.params ∧
      busy.params.predList[(27 : BitVec 16).toNat / 4]? = some ⟨.signExt 32, 35⟩ ∧
      nPat busy.params ≤ (28 : BitVec 16).toNat ∧ (27 : BitVec 16).toNat < nPat busy.params ∧
      busy.block.cat[(27 : BitVec 16).toNat]? = some { id := 27, pred := 6, level := 3, enc := 41 } := by
  decide +kernel

/-- For `WindowHoldsTheLastWords`. -/
theorem witness_window : streamFive.win ≠ [] := by decide

/-- For `CompressChargesTheBlock`: a stream that exists, one that does not, a size that is not 128, a full table. -/
theorem witness_compress :
    live busy ∧ (128 : BitVec 16).toNat = 128 ∧ mapGet busy.block.streams busy.ports.a = some streamFive ∧
      mapGet State.reset.block.streams State.reset.ports.a = none ∧
      (∀ c, State.reset.params.maxStreams = some c → State.reset.block.streams.length ≠ c) ∧
      (127 : BitVec 16).toNat ≠ 128 ∧
      live { busy with params := { defaultParams with maxStreams := some 1 }, ports := { busy.ports with a := 6 } } ∧
      mapGet busy.block.streams 6 = none ∧ some busy.block.streams.length = some 1 :=
  ⟨rfl, rfl, by decide +kernel, by decide +kernel, fun _ h => (nomatch h), by decide, rfl, by decide +kernel, rfl⟩

/-- For `CompressedSizeBounds`: V1's result, and an upper and a lower bound. -/
theorem witness_bounds :
    (compressBlock defaultParams (buildCatalog defaultParams) [] 5 (List.replicate 128 0)).toOption.map Prod.fst =
        some 32 ∧
      65 ≤ 65 ∧ (∀ e ∈ buildCatalog defaultParams, e.enc.toNat ≤ 65) ∧
      (buildCatalog defaultParams)[0]? = some { id := 0, pred := 0, level := 0, enc := 2 } := by decide +kernel

/-- For `ZeroBlockCostsSixteenZeros`. -/
theorem witness_zero_block :
    validConfig defaultParams = true ∧ defaultParams.predList[0]? = some ⟨.zero, 2⟩ ∧
      (∀ pe ∈ defaultParams.predList, 2 ≤ pe.dataSize) ∧ streamFive.hits.length = nPat defaultParams := by
  decide +kernel

/-- For `WinReadAnswersTheWindow`: the last position, of a stream that exists and of one that does not, and position
`D`. -/
theorem witness_winRead :
    live busy ∧ (3 : BitVec 16).toNat < busy.params.histDepth ∧
      mapGet busy.block.streams busy.ports.a = some streamFive ∧ live State.reset ∧
      (3 : BitVec 16).toNat < State.reset.params.histDepth ∧
      mapGet State.reset.block.streams State.reset.ports.a = none ∧
      busy.params.histDepth ≤ (4 : BitVec 16).toNat := by decide +kernel

/-- For `ProfReadAnswersTheCounter` and `ProfGlobalSumsTheClass`: the last pattern and a selector that ignores `PID`,
and selectors out of range both ways. -/
theorem witness_selectors :
    live busy ∧ selectorInRange busy.params 0x001B ∧ selectorInRange busy.params 0xC0FF ∧
      ¬ selectorInRange busy.params 0x001C ∧ ¬ selectorInRange busy.params 0xE000 ∧ mapWf busy.block.streams := by
  simp only [selectorInRange]; decide +kernel

/-- For `DelayQueueIsFifo`: at reset `L` flits are in flight and a slot is free. -/
theorem witness_dq :
    (dqInit defaultParams).rp < (dqInit defaultParams).wp ∧
      (dqInit defaultParams).wp - (dqInit defaultParams).rp < (dqInit defaultParams).slot.length := by decide +kernel

/-- For `DelayQueueTimingLaw`: a batch of `L` flits and an empty one. -/
theorem witness_batches :
    1 ≤ defaultParams.dqLatency ∧
      ∀ b ∈ [List.replicate 4 fillerFlit, []], b.length ≤ defaultParams.dqLatency := by decide

/-- For `TimestampQueueTimingLaw`. -/
theorem witness_tsq :
    (tsqInit defaultParams).n = 0 ∧ (tsqInit defaultParams).wp = (tsqInit defaultParams).rp ∧
      (tsqInit defaultParams).entry ≠ [] := by decide

/-- For `RoundRobinServesTheFirst` and `PacketAccounting`. -/
theorem witness_pointers : 1 < 2 ∧ { heldLink with left := 127 }.left < 128 := by decide

/-- For `PopDeliversTailFlits`: a filler flit. -/
theorem witness_pop_filler :
    flitsInFlight heldLink.dq = fillerFlit :: List.replicate 3 fillerFlit ∧
      heldLink.dq.wp - heldLink.dq.rp ≤ heldLink.dq.slot.length ∧
      (if fillerFlit.tail then fillerFlit.payload else none) = none := by decide +kernel

/-- A link whose oldest flit in flight is the tail of the short payload, and whose list for it holds one payload. -/
def tailLink : Link :=
  { heldLink with
    dq := { heldLink.dq with slot := heldLink.dq.slot.set 1 { payload := some shortPayload, head := true, tail := true } }
    compl := [[], [shortPayload]] }

/-- For `PopDeliversTailFlits`: a tail flit with room for its payload, and with none. -/
theorem witness_pop_tail :
    flitsInFlight tailLink.dq =
        { payload := some shortPayload, head := true, tail := true } :: List.replicate 3 fillerFlit ∧
      tailLink.dq.wp - tailLink.dq.rp ≤ tailLink.dq.slot.length ∧ shortPayload.dst.toNat < tailLink.compl.length ∧
      (∀ c, ({ defaultParams with complDepth := some 2 } : Params).complDepth = some c →
        (complOf tailLink shortPayload.dst.toNat).length ≠ c) ∧
      ({ defaultParams with complDepth := some 1 } : Params).complDepth =
        some (complOf tailLink shortPayload.dst.toNat).length := by
  refine ⟨by decide +kernel, by decide +kernel, by decide, ?_, by decide +kernel⟩
  rintro c hc
  cases hc
  decide +kernel

/-- A link sending flit `off` of `nfl` of the long payload. -/
def sendingLink (off nfl : Nat) : Link := { heldLink with cur := some longPayload, off := off, nfl := nfl }

/-- For `SlotContinuesThePayload`: the last flit of a payload, and one before it. -/
theorem witness_slot_continue :
    (sendingLink 1 2).cur = some longPayload ∧ (sendingLink 1 2).off < (sendingLink 1 2).nfl ∧
      (sendingLink 1 2).off + 1 = (sendingLink 1 2).nfl ∧ ringRoom (sendingLink 1 2).dq ∧
      (sendingLink 1 3).cur = some longPayload ∧ (sendingLink 1 3).off < (sendingLink 1 3).nfl ∧
      (sendingLink 1 3).off + 1 ≠ (sendingLink 1 3).nfl ∧ ringRoom (sendingLink 1 3).dq := by
  simp only [ringRoom]; decide +kernel

/-- A link whose source 1 has two short payloads, its source 0 none. -/
def shortLink : Link :=
  { heldLink with ready := [readyInit, { readyInit with short := [shortPayload, shortPayload] }] }

/-- For `SlotSendsShortTraffic`. -/
theorem witness_slot_short :
    Policy.packed ≠ .plain ∧ shortLink.cur = none ∧ shortLink.left = 0 ∧
      shortLink.ready.length = defaultParams.nSrc ∧ ringRoom shortLink.dq ∧
      firstRr defaultParams.nSrc shortLink.rr (fun s => !(readyOf shortLink s).short.isEmpty) = some 1 ∧
      (readyOf shortLink 1).short = shortPayload :: [shortPayload] := by simp only [ringRoom]; decide +kernel

/-- For `SlotStartsTheHeldPayload`: the held entry is ready at `NOW = 1`; once with no short payload, once with a
leftover at the top of its range. -/
theorem witness_slot_held :
    Policy.packed ≠ .plain ∧ heldLink.cur = none ∧ heldLink.rr < defaultParams.nSrc ∧
      heldLink.ready.length = defaultParams.nSrc ∧ 0 < defaultParams.nSrc ∧ heldLink.left < 128 ∧
      ringRoom heldLink.dq ∧ (∀ s < defaultParams.nSrc, (readyOf heldLink s).short = []) ∧
      { heldLink with left := 127 }.left < 128 ∧ { heldLink with left := 127 }.left ≠ 0 ∧
      tsqTop defaultParams.compLatency heldLink.now heldLink.tsq =
        some { payload := longPayload, size := 32, src := 0, time := 0 } := by
  simp only [ringRoom]; decide +kernel

/-- For `SlotFillsWithFiller`: a compressed link whose held entry is not ready at `NOW = 0`, and a plain link. -/
theorem witness_slot_filler :
    heldLink.cur = none ∧ heldLink.rr < defaultParams.nSrc ∧ ringRoom heldLink.dq ∧
      (∀ s < defaultParams.nSrc, (readyOf heldLink s).short = []) ∧
      tsqTop defaultParams.compLatency 0 { heldLink with now := 0 }.tsq = none ∧
      (linkInit defaultParams).cur = none ∧ (linkInit defaultParams).rr < defaultParams.nSrc ∧
      ringRoom (linkInit defaultParams).dq ∧
      (∀ s < defaultParams.nSrc, (readyOf (linkInit defaultParams) s).plain = []) := by
  simp only [ringRoom]; decide +kernel

/-- A plain link whose source 0 has a long payload. -/
def plainLink : Link :=
  { linkInit defaultParams with ready := [{ readyInit with plain := [longPayload] }, readyInit], rr := 1 }

/-- For `SlotSendsPlainTraffic`. -/
theorem witness_slot_plain :
    plainLink.cur = none ∧ plainLink.left = 0 ∧ plainLink.ready.length = defaultParams.nSrc ∧ ringRoom plainLink.dq ∧
      firstRr defaultParams.nSrc plainLink.rr (fun s => !(readyOf plainLink s).plain.isEmpty) = some 0 ∧
      (readyOf plainLink 0).plain = longPayload :: [] := by simp only [ringRoom]; decide +kernel

/-- A link whose source 1 has a pending long payload. -/
def pendingLink (d : Desc) : Link :=
  { linkInit defaultParams with ready := [readyInit, { readyInit with long := .pending d }] }

/-- For `CompressionPhaseHoldsOnePayload`: `CRR = 0`, so source 1 is found at `j = 1`; its payload is of 128 bytes and
compresses. -/
theorem witness_compression :
    (pendingLink longPayload).crr < defaultParams.nSrc ∧
      (pendingLink longPayload).ready.length = defaultParams.nSrc ∧
      (pendingLink longPayload).tsq.wp = (pendingLink longPayload).tsq.rp + (pendingLink longPayload).tsq.n ∧
      (pendingLink longPayload).tsq.entry ≠ [] ∧ Policy.unpacked ≠ .plain ∧ (pendingLink longPayload).tsq.n = 0 ∧
      (∃ j < defaultParams.nSrc, 1 = ((pendingLink longPayload).crr + j) % defaultParams.nSrc ∧
        (readyOf (pendingLink longPayload) 1).long = .pending longPayload ∧
        ∀ i < j, ∀ d',
          (readyOf (pendingLink longPayload) (((pendingLink longPayload).crr + i) % defaultParams.nSrc)).long ≠
            .pending d') ∧
      longPayload.size.toNat = 128 ∧
      (compressBlock defaultParams (buildCatalog defaultParams) [] longPayload.sid
        (memRead [] longPayload.addr 128)).toOption.map Prod.fst = some 32 := by
  refine ⟨by decide, rfl, rfl, by decide, by decide, rfl, ⟨1, by decide, rfl, rfl, ?_⟩, rfl, by decide +kernel⟩
  intro i hi d' h
  obtain rfl : i = 0 := by omega
  cases h

/-- For `CompressionPhaseHoldsOnePayload`: a payload of another size, a holder in use, and nothing pending. -/
theorem witness_compression_other :
    { longPayload with size := 127 }.size.toNat ≠ 128 ∧
      (readyOf (pendingLink { longPayload with size := 127 }) 1).long = .pending { longPayload with size := 127 } ∧
      heldLink.crr < defaultParams.nSrc ∧ heldLink.ready.length = defaultParams.nSrc ∧
      heldLink.tsq.wp = heldLink.tsq.rp + heldLink.tsq.n ∧ heldLink.tsq.entry ≠ [] ∧ 0 < heldLink.tsq.n ∧
      (∀ s < defaultParams.nSrc, (readyOf (linkInit defaultParams) s).long = .empty) := by decide +kernel

/-- For `LinkPushAdmitsThePayload`: a short payload, a long one, and one under the `PLAIN` policy, each with room. -/
theorem witness_push :
    live busy ∧ pushAllowed busy .up 1 ∧
      pushAllowed { busy with ports := { busy.ports with descIn := encodeDesc longPayload } } .up 1 ∧
      pushAllowed { busy with params := { defaultParams with policyUp := .plain } } .up 1 ∧
      (linkOf busy.block .up).ready.length = busy.params.nSrc := by
  simp only [pushAllowed]; decide +kernel

/-- For `LinkPushFatalErrors`: a source and a destination one past their range. -/
theorem witness_push_index :
    live busy ∧ busy.params.nSrc ≤ (2 : BitVec 16).toNat ∧
      busy.params.nDst ≤ (decodeDesc (encodeDesc { shortPayload with dst := 2 })).dst.toNat := by decide +kernel

/-- For `LinkPushFatalErrors`: indexes in range and a full plain list, a full long slot, a full short list. -/
theorem witness_push_full :
    (0 : BitVec 16).toNat < defaultParams.nSrc ∧ (decodeDesc busy.ports.descIn).dst.toNat < busy.params.nDst ∧
      (policyOf { defaultParams with policyUp := .plain } .up = .plain ∧
        (readyOf { heldLink with ready := [{ readyInit with plain := List.replicate 4 shortPayload }, readyInit] }
          0).plain.length = ({ defaultParams with policyUp := .plain } : Params).plainDepth) ∧
      (policyOf busy.params .up ≠ .plain ∧ isLong (decodeDesc (encodeDesc longPayload)) = true ∧
        (decodeDesc (encodeDesc longPayload)).dst.toNat < busy.params.nDst ∧
        (readyOf (linkOf busy.block .up) 0).long ≠ .empty) ∧
      (isLong (decodeDesc busy.ports.descIn) = false ∧
        (readyOf { heldLink with ready := [{ readyInit with short := List.replicate 4 shortPayload }, readyInit] }
          0).short.length = 4) := by decide +kernel

/-- For `FlitConservation`: a step of a link with a held payload, which sends a real flit. -/
theorem witness_counts :
    flitCounts defaultParams heldLink ∧
      (stepLink defaultParams .packed (buildCatalog defaultParams) [] 0x00010000 [] heldLink).toOption.map
        (fun r => (r.1, r.2.1.stats.flitsReal)) = some (1, 1) := by
  simp only [flitCounts]; decide +kernel

/-- For `FlitConservation`: from `busy`, a step at a flit and a half, a push and a pop. -/
theorem witness_run :
    live busy ∧ flitCounts busy.params (linkOf busy.block .up) ∧
      ∃ t, runCommands
        [(.linkStep .up 0, { busy.ports with rate := 0x00018000 }), (.linkPush .up 1, busy.ports),
          (.linkPop .up 1, busy.ports)] busy t :=
  ⟨rfl, by simp only [flitCounts]; decide +kernel, _, _, exec_after _ _, by decide +kernel, _, exec_after _ _,
    by decide +kernel, _, exec_after _ _, by decide +kernel, rfl⟩

/-- For `LinkPopDeliversTheOldest`: a list with two payloads, an empty one, an index one past the range. -/
theorem witness_pop_command :
    live busy ∧ (1 : BitVec 16).toNat < busy.params.nDst ∧
      complOf { heldLink with compl := [[], [longPayload, shortPayload]] } (1 : BitVec 16).toNat =
        longPayload :: [shortPayload] ∧
      complOf (linkOf busy.block .up) (1 : BitVec 16).toNat = [] ∧ busy.params.nDst ≤ (2 : BitVec 16).toNat := by
  decide +kernel

/-- For `LinkStatAnswersTheSelector`: the last selector, which reads `TSQ.N = 1`, and the first out of range. -/
theorem witness_stat :
    live busy ∧ (linkOf busy.block .up).tsq.n = 1 ∧ (12 : BitVec 16).toNat < 13 ∧ 13 ≤ (13 : BitVec 16).toNat := by
  decide +kernel

/-- For `LinkSrcstatAnswersTheOccupancy`: each policy, and an index one past the range. -/
theorem witness_srcstat :
    live busy ∧ (1 : BitVec 16).toNat < busy.params.nSrc ∧ policyOf busy.params .up ≠ .plain ∧
      policyOf { busy.params with policyUp := .plain } .up = .plain ∧
      (readyOf (linkOf busy.block .up) 1).plain.length ≤ 255 ∧ (readyOf (linkOf busy.block .up) 1).short.length ≤ 4 ∧
      busy.params.nSrc ≤ (2 : BitVec 16).toNat := by decide +kernel

/-- `busy` with the payload of LV2 pending on its uplink. -/
def requesting : State := { busy with block := { busy.block with up := pendingLink longPayload } }

/-- For `MemoryIsSeenOnlyByItsRead`: the phases of the next step lead to a pending payload of 128 bytes. -/
theorem witness_request :
    live requesting ∧ rateAllowed requesting .up ∧
      ∃ popped pushed,
        repeats (popOnce requesting.params) (stepBudget requesting .up)
          { linkOf requesting.block .up with acc := stepFraction requesting .up } popped ∧
        repeats (fillSlot requesting.params (policyOf requesting.params .up)) (stepBudget requesting .up) popped pushed ∧
        pendingSource requesting.params (policyOf requesting.params .up) pushed = some (1, longPayload) ∧
        longPayload.size.toNat = 128 := by
  rw [show stepBudget requesting .up = 1 by decide +kernel]
  exact ⟨rfl, by simp only [rateAllowed]; decide +kernel, _, _, ⟨_, rfl, rfl⟩, ⟨_, rfl, rfl⟩, by decide +kernel, rfl⟩

/-- For `DirectionsAreIndependent` and `MemoryIsSeenOnlyByItsRead`: `busy` reads nothing in its next step; LV2's step 0
reads 128 bytes, which a byte just beyond them does not change. -/
theorem witness_independence :
    commandDir (.linkStep .up 0) = some .up ∧ memRequest .up busy = none ∧
      memRequest .up requesting = some (0x1000, 128) ∧
      ∀ j < 128, readByte [(0x1080, 1)] (((0x1000 : Word).toNat + j) % 2 ^ 64) =
        readByte [] (((0x1000 : Word).toNat + j) % 2 ^ 64) := by decide +kernel

/-- For `NoPayloadIsDropped`: each command goes on live from `busy`, which is live and meets the invariants. -/
theorem witness_noDrop :
    live busy ∧ StateInv busy ∧
      (live (after (exec (.linkPush .up 1) busy)) ∧
        exec (.linkPush .up 1) busy = .next (after (exec (.linkPush .up 1) busy))) ∧
      (live (after (exec (.linkStep .up 1) busy)) ∧
        exec (.linkStep .up 1) busy = .next (after (exec (.linkStep .up 1) busy))) ∧
      (live (after (exec (.linkPop .up 1) busy)) ∧
        exec (.linkPop .up 1) busy = .next (after (exec (.linkPop .up 1) busy))) :=
  ⟨rfl, witness_stateInv, ⟨by decide +kernel, exec_after _ _⟩, ⟨by decide +kernel, exec_after _ _⟩,
    ⟨by decide +kernel, exec_after _ _⟩⟩

/-- For `EveryStepKeepsTheInvariants`: the idle step of `busy`. -/
theorem witness_step : StateInv busy ∧ step busy = .next busy := ⟨witness_stateInv, rfl⟩

/-- `busy` with another word on `CMD`. -/
def busyWith (w : CmdWord) : State := { busy with ports := { busy.ports with cmd := w } }

/-- For `FatalErrorsArePrecise`: a word that raises, one that does not, and an illegal one. -/
theorem witness_precise :
    live (busyWith 0x12000002) ∧ runCommand (busyWith 0x12000002) = .next (after (runCommand (busyWith 0x12000002))) ∧
      ¬ live (after (runCommand (busyWith 0x12000002))) ∧
      runCommand (busyWith 0x12000001) = .next (after (runCommand (busyWith 0x12000001))) ∧
      live (after (runCommand (busyWith 0x12000001))) ∧ ¬ live (after (runCommand (busyWith 0x12010001))) :=
  ⟨rfl, exec_after (.linkPop .up 2) _, by decide +kernel, exec_after (.linkPop .up 1) _, by decide +kernel,
    by decide +kernel⟩

/-- For `NopClearsTheResult`: a live state, a fatal one, and words of the opcode with `DIR = 1` and with a reserved bit. -/
theorem witness_nop :
    live (busyWith 0x00800000) ∧ (busyWith 0x00800000).ports.cmd.toNat / 2 ^ 24 = 0 ∧
      (busyWith 0x00800000).ports.cmd.toNat / 2 ^ 16 % 2 ^ 8 ≠ 0 ∧ live (busyWith 0x00010000) ∧
      (busyWith 0x00010000).ports.cmd.toNat / 2 ^ 24 = 0 ∧
      (busyWith 0x00010000).ports.cmd.toNat / 2 ^ 16 % 2 ^ 8 ≠ 0 ∧ stuck.block.status.fatal = true := by decide +kernel

/-- For `CompressionPhaseHoldsOnePayload`: a table with no room for the payload's stream. -/
theorem witness_compression_full :
    compressBlock { defaultParams with maxStreams := some 1 } (buildCatalog defaultParams) [(9, streamFive)]
      longPayload.sid (memRead [] longPayload.addr 128) = .error .streamTableFull := by rfl

end Sys2Proof.Machine
end

/-! # The STATUS register, and what a command's rule can do: raise a cause of its row, or write the state of its row -/

section
namespace Sys2Proof.Machine

/-! ## STATUS (R41, R431) -/

/-- The 32 bits of `STATUS` as a number: each field weighted by the position of its lowest bit (R41). -/
theorem statusWord_toNat (st : Status) :
    (statusWord st).toNat =
      st.fatal.toNat + (causeCode st.cause).toNat * 2 ^ 8 + st.resValid.toNat * 2 ^ 16 := by
  simp only [statusWord, toNat_append_eq_add, BitVec.toNat_ofBool, BitVec.toNat_ofNat]
  omega

/-- The fourteen cause codes, in the order of R431. -/
theorem causeCodes_in_order :
    [Cause.none, .badBlockSize, .readyListFull, .longListOverflow, .rleUnrepresentable, .basePatternMissing,
      .illegalCommand, .badIndex, .dqOverrun, .streamTableFull, .completionFull, .tsqFull, .tsqEmpty,
      .badConfig].map (fun c => (causeCode c).toNat) = List.range 14 := by decide

/-- Settles O5, from the register's fields as numbers and the list of the codes. -/
theorem statusRegisterLayout : Obligations.StatusRegisterLayout := by
  unfold Obligations.StatusRegisterLayout
  refine ⟨fun st => ?_, causeCodes_in_order⟩
  rw [statusWord_toNat]
  cases st.fatal <;> cases st.resValid <;> simp

/-! ## What a rule raises (R432) -/

/-- A rule raises a cause of the command's row of R432; `LINK_STEP` also `TSQ_FULL`, on a holder of no slots. -/
theorem ruleOf_error {i : Instr} {s : State} {c : Cause} (h : ruleOf i s = .error c) :
    c ∈ causesOf i ∨ (c = .tsqFull ∧ ∃ d idx, i = .linkStep d idx) := by
  cases i with
  | nop idx => cases h
  | pred idx | matchPat idx | catRead idx | winRead idx | profRead idx | profGlobal idx | linkStat d idx
  | linkSrcstat d idx =>
    simp only [ruleOf, predRule, matchRule, catReadRule, winReadRule, profReadRule, profGlobalRule, linkStatRule,
      linkSrcstatRule] at h
    split at h <;> cases h
    simp [causesOf]
  | compress idx =>
    simp only [ruleOf, compressRule] at h
    split at h
    · cases h; simp [causesOf]
    · split at h
      · next hb =>
        cases h
        simp [causesOf, (lookupOrCreate_error (compressBlock_error hb)).1]
      · cases h
  | linkPush d idx =>
    simp only [ruleOf, linkPushRule] at h
    split at h
    · cases h; simp [causesOf]
    · split at h
      · next hp =>
        cases h
        rcases acceptPayload_error hp with rfl | rfl <;> simp [causesOf]
      · cases h
  | linkStep d idx =>
    simp only [ruleOf, linkStepRule] at h
    split at h
    · next hl =>
      cases h
      rcases stepLink_error hl with rfl | rfl | rfl | rfl <;> simp [causesOf]
    · cases h
  | linkPop d idx =>
    simp only [ruleOf, linkPopRule] at h
    split at h
    · cases h; simp [causesOf]
    · split at h <;> cases h

theorem none_notMem_causesOf (i : Instr) : Cause.none ∉ causesOf i := by cases i <;> simp [causesOf]

/-- No rule raises the code that stands for no error. -/
theorem ruleOf_error_ne_none {i : Instr} {s : State} {c : Cause} (h : ruleOf i s = .error c) : c ≠ .none := by
  rintro rfl
  rcases ruleOf_error h with h | ⟨h, -⟩
  · exact none_notMem_causesOf i h
  · cases h

/-! ## What a rule writes (R61) -/

/-- The writes of a command that raises nothing, its result in `RES` and `RES_VALID` left aside: `Writes s i b` says
that `i`, issued in `s`, can leave the block `b`. -/
inductive Writes (s : State) : Instr → Block → Prop
  /-- The command writes its result alone. -/
  | resultOnly (i : Instr) : Writes s i s.block
  | compress {idx : BitVec 16} {bits : Nat} {m : WordMap StreamRecord}
      (h : compressBlock s.params s.block.cat s.block.streams s.ports.a s.ports.blk.toList = .ok (bits, m)) :
      Writes s (.compress idx) { s.block with streams := m }
  | linkPush {d : Dir} {idx : BitVec 16} {l : Link} (hidx : idx.toNat < s.params.nSrc)
      (hdst : (decodeDesc s.ports.descIn).dst.toNat < s.params.nDst)
      (h : acceptPayload s.params (policyOf s.params d) idx.toNat (decodeDesc s.ports.descIn) (linkOf s.block d) =
        .ok l) :
      Writes s (.linkPush d idx) (setLink s.block d l)
  | linkStep {d : Dir} {idx : BitVec 16} {k : Nat} {l : Link} {m : WordMap StreamRecord}
      (h : stepLink s.params (policyOf s.params d) s.block.cat s.mem s.ports.rate s.block.streams (linkOf s.block d) =
        .ok (k, l, m)) :
      Writes s (.linkStep d idx) { setLink s.block d l with streams := m }
  | linkPop (d : Dir) (idx : BitVec 16) (q : Desc) :
      Writes s (.linkPop d idx)
        { setLink s.block d
            { linkOf s.block d with compl := (linkOf s.block d).compl.modify idx.toNat (List.drop 1) } with
          descOut := encodeDesc q }

/-- A rule that raises nothing makes the command's writes, then gives its result. -/
theorem ruleOf_ok {i : Instr} {s : State} {b : Block} (h : ruleOf i s = .ok b) :
    ∃ b', Writes s i b' ∧ (b = answerNothing b' ∨ ∃ v, b = answer v b') := by
  cases i with
  | nop idx => cases h; exact ⟨_, .resultOnly _, .inl rfl⟩
  | pred idx | matchPat idx | catRead idx | winRead idx | profRead idx | profGlobal idx | linkStat d idx
  | linkSrcstat d idx =>
    simp only [ruleOf, predRule, matchRule, catReadRule, winReadRule, profReadRule, profGlobalRule, linkStatRule,
      linkSrcstatRule] at h
    split at h <;> cases h
    exact ⟨_, .resultOnly _, .inr ⟨_, rfl⟩⟩
  | compress idx =>
    simp only [ruleOf, compressRule] at h
    split at h
    · cases h
    · split at h
      · cases h
      · next hb => cases h; exact ⟨_, .compress hb, .inr ⟨_, rfl⟩⟩
  | linkPush d idx =>
    simp only [ruleOf, linkPushRule] at h
    split at h
    · cases h
    · next hr =>
      rw [not_or, not_le, not_le] at hr
      split at h
      · cases h
      · next hp => cases h; exact ⟨_, .linkPush hr.1 hr.2 hp, .inl rfl⟩
  | linkStep d idx =>
    simp only [ruleOf, linkStepRule] at h
    split at h
    · cases h
    · next hl => cases h; exact ⟨_, .linkStep hl, .inr ⟨_, rfl⟩⟩
  | linkPop d idx =>
    simp only [ruleOf, linkPopRule] at h
    split at h
    · cases h
    · split at h <;> cases h
      · exact ⟨_, .resultOnly _, .inl rfl⟩
      · exact ⟨_, .linkPop d idx _, .inr ⟨_, rfl⟩⟩

/-- An admission writes the ready lists alone. -/
theorem acceptPayload_ready {p : Params} {pol : Policy} {src : Nat} {d : Desc} {l l' : Link}
    (h : acceptPayload p pol src d l = .ok l') : l' = { l with ready := l'.ready } := by
  rcases acceptPayload_ok h with ⟨-, -, rfl⟩ | ⟨-, -, -, rfl⟩ | ⟨-, -, -, rfl⟩ <;> rfl

section WritesFrame
variable {s : State} {i : Instr} {b : Block}

theorem Writes.cat (h : Writes s i b) : b.cat = s.block.cat := by cases h <;> simp

theorem Writes.fatalCmd (h : Writes s i b) : b.fatalCmd = s.block.fatalCmd := by cases h <;> simp

theorem Writes.status (h : Writes s i b) : b.status = s.block.status := by cases h <;> simp

/-- `DESC_OUT` is written by `LINK_POP` alone. -/
theorem Writes.descOut (h : Writes s i b) (hi : ∀ d idx, i ≠ .linkPop d idx) : b.descOut = s.block.descOut := by
  cases h with
  | linkPop d idx => exact absurd rfl (hi d idx)
  | resultOnly => rfl
  | compress => rfl
  | linkPush => simp
  | linkStep => simp

/-- `STREAMS` is written by `COMPRESS` and `LINK_STEP` alone. -/
theorem Writes.streams (h : Writes s i b) (hc : ∀ idx, i ≠ .compress idx) (hs : ∀ d idx, i ≠ .linkStep d idx) :
    b.streams = s.block.streams := by
  cases h with
  | compress => exact absurd rfl (hc _)
  | linkStep => exact absurd rfl (hs _ _)
  | resultOnly => rfl
  | linkPush => simp
  | linkPop => simp

/-- `LINK[d]` is written by `LINK_PUSH`, `LINK_STEP` and `LINK_POP` on `d` alone. -/
theorem Writes.link (h : Writes s i b) {d : Dir} (hp : ∀ idx, i ≠ .linkPush d idx)
    (hs : ∀ idx, i ≠ .linkStep d idx) (ho : ∀ idx, i ≠ .linkPop d idx) : linkOf b d = linkOf s.block d := by
  cases h with
  | resultOnly => rfl
  | compress => simp
  | @linkPush e idx =>
    have hne : d ≠ e := by rintro rfl; exact hp idx rfl
    exact linkOf_setLink_of_ne _ _ hne
  | @linkStep e idx =>
    have hne : d ≠ e := by rintro rfl; exact hs idx rfl
    rw [linkOf_with_streams, linkOf_setLink_of_ne _ _ hne]
  | linkPop e idx =>
    have hne : d ≠ e := by rintro rfl; exact ho idx rfl
    rw [linkOf_with_descOut, linkOf_setLink_of_ne _ _ hne]

/-- `COMPRESS` writes the record of stream `A` alone. -/
theorem Writes.compress_streams {idx : BitVec 16} (h : Writes s (.compress idx) b) {sid : Word}
    (hne : sid ≠ s.ports.a) : mapGet b.streams sid = mapGet s.block.streams sid := by
  cases h with
  | resultOnly => rfl
  | compress hb =>
    obtain ⟨st, -, -, rfl⟩ := compressBlock_ok hb
    exact mapGet_mapSet_other _ _ hne

/-- `LINK_PUSH` writes its link's ready lists alone. -/
theorem Writes.linkPush_link {d : Dir} {idx : BitVec 16} (h : Writes s (.linkPush d idx) b) :
    linkOf b d = { linkOf s.block d with ready := (linkOf b d).ready } := by
  cases h with
  | resultOnly => rfl
  | linkPush _ _ ha =>
    rw [linkOf_setLink]
    exact acceptPayload_ready ha

/-- `LINK_POP` writes its link's completion lists alone. -/
theorem Writes.linkPop_link {d : Dir} {idx : BitVec 16} (h : Writes s (.linkPop d idx) b) :
    linkOf b d = { linkOf s.block d with compl := (linkOf b d).compl } := by
  cases h with
  | resultOnly => rfl
  | linkPop => rw [linkOf_with_descOut, linkOf_setLink]

end WritesFrame

/-- A command that goes on live from a live state made its writes and gave its result. -/
theorem exec_live_writes {i : Instr} {s t : State} (hs : live s) (h : exec i s = .next t) (ht : live t) :
    ∃ b b', Writes s i b' ∧ (b = answerNothing b' ∨ ∃ v, b = answer v b') ∧ t = { s with block := b } := by
  rcases exec_live_cases hs h with ⟨b, hb, rfl⟩ | ⟨c, -, rfl⟩
  · obtain ⟨b', hw, hr⟩ := ruleOf_ok hb
    exact ⟨b, b', hw, hr, rfl⟩
  · cases ht

/-- Settles O14: the command made the writes of its rule, whose frames are said field by field above, and giving a
result touches none of these fields. -/
theorem commandsWriteOnlyTheirState : Obligations.CommandsWriteOnlyTheirState := by
  unfold Obligations.CommandsWriteOnlyTheirState
  intro i s t hs h ht
  obtain ⟨b, b', hw, hr, rfl⟩ := exec_live_writes hs h ht
  have result : b.cat = b'.cat ∧ b.fatalCmd = b'.fatalCmd ∧ b.status.cause = b'.status.cause ∧
      b.descOut = b'.descOut ∧ b.streams = b'.streams ∧ ∀ d, linkOf b d = linkOf b' d := by
    rcases hr with rfl | ⟨v, rfl⟩ <;> simp
  obtain ⟨hcat, hcmd, hcause, hdesc, hstreams, hlink⟩ := result
  simp only [hcat, hcmd, hcause, hdesc, hstreams, hlink]
  refine ⟨trivial, trivial, trivial, trivial, hw.cat, hw.fatalCmd, by rw [hw.status], hw.descOut, hw.streams,
    fun d => hw.link, ?_, ?_, ?_⟩
  · rintro idx rfl sid hne
    exact hw.compress_streams hne
  · rintro d idx rfl
    exact hw.linkPush_link
  · rintro d idx rfl
    exact hw.linkPop_link

end Sys2Proof.Machine
end

/-! # The stream table keeps its invariants (R48, R60 (f) and (g), R260 to R264) -/

section
namespace Sys2Proof.Machine

/-- What holds of every element holds after one element is changed, if the change keeps it. -/
theorem forall_mem_modify {α : Type} {P : α → Prop} {xs : List α} {i : Nat} {f : α → α} (h : ∀ x ∈ xs, P x)
    (hf : ∀ x, xs[i]? = some x → P (f x)) : ∀ x ∈ xs.modify i f, P x := by
  intro x hx
  obtain ⟨j, hj, rfl⟩ := List.mem_iff_getElem.1 hx
  rw [List.getElem_modify]
  split
  · next he => subst he; exact hf _ (List.getElem?_eq_getElem _)
  · exact h _ (List.getElem_mem _)

/-- Counting up one element of a list of counters counts up their sum. -/
theorem sum_modify_succ {xs : List Nat} {i : Nat} (h : i < xs.length) :
    (xs.modify i (· + 1)).sum = xs.sum + 1 := by
  induction xs generalizing i with
  | nil => simp at h
  | cons x xs ih =>
    cases i with
    | zero => simp; omega
    | succ i =>
      have hi : i < xs.length := by simpa using h
      rw [List.modify_succ_cons, List.sum_cons, List.sum_cons, ih hi]
      omega

/-- What holds of every value of a map holds after a set, if it holds of the value set. -/
theorem forall_mem_mapSet {α : Type} {P : α → Prop} {m : WordMap α} {k : Word} {v : α} (h : ∀ e ∈ m, P e.2)
    (hv : P v) : ∀ e ∈ mapSet m k v, P e.2 := by
  intro e he
  rcases mem_mapSet he with rfl | he
  · exact hv
  · exact h e he

/-- Setting a key adds the new value to the sum of a map's values and takes the old one away. -/
theorem sum_mapSet {m : WordMap Nat} (hw : mapWf m) (k : Word) (v : Nat) :
    ((mapSet m k v).map fun e => e.2).sum + (mapGet m k).getD 0 = (m.map fun e => e.2).sum + v := by
  induction m with
  | nil => simp [mapSet, mapGet]
  | cons x r ih =>
    obtain ⟨k', v'⟩ := x
    obtain ⟨hx, hr⟩ := List.pairwise_cons.1 hw
    simp only [mapSet]
    split
    · next hlt =>
      have absent : mapGet ((k', v') :: r) k = none := by
        cases hg : mapGet ((k', v') :: r) k with
        | none => rfl
        | some u =>
          rcases List.mem_cons.1 (mem_of_mapGet hg) with he | he
          · obtain ⟨rfl, rfl⟩ := Prod.mk.inj he; omega
          · have := hx _ he; simp only at this; omega
      rw [absent]
      simp only [List.map_cons, List.sum_cons, Option.getD_none]
      omega
    · split
      · next _ hk => subst hk; simp [mapGet]; omega
      · next _ hne =>
        have := ih hr
        simp only [mapGet, Ne.symm hne, if_false, List.map_cons, List.sum_cons]
        omega

/-! ## A valid configuration and its catalog -/

/-- The bounds of R471 that the invariants rest on. -/
theorem validConfig_bounds {p : Params} (h : validConfig p = true) :
    1 ≤ p.histDepth ∧ 1 ≤ p.nSrc ∧ 1 ≤ p.nDst ∧ 1 ≤ p.dqLatency ∧ 1 ≤ p.tsqCapacity := by
  simp only [validConfig, Bool.and_eq_true, decide_eq_true_eq] at h
  omega

/-- Every entry of the catalog counts in a counter of its own (R206). -/
theorem buildCatalog_id_lt {p : Params} {e : CatEntry} (h : e ∈ buildCatalog p) : e.id.toNat < nPat p := by
  rw [buildCatalog, List.mem_insertionSort, patterns, List.mem_flatMap] at h
  obtain ⟨⟨pe, q⟩, hq, he⟩ := h
  obtain ⟨level, hlevel, rfl⟩ := List.mem_map.1 he
  have hq : q < p.predList.length := (List.getElem?_eq_some_iff.1 (List.mem_zipIdx_iff_getElem?.1 hq)).1
  have hlevel : level < 4 := List.mem_range.1 hlevel
  have hmod := Nat.mod_le (4 * q + level) (2 ^ 8)
  simp only [patternOf, BitVec.toNat_ofNat, nPat, nPred]
  omega

theorem classify_id_lt {p : Params} {win : List Word} {w : Word} {e : CatEntry}
    (h : classify p (buildCatalog p) win w = some e) : e.id.toNat < nPat p :=
  buildCatalog_id_lt (List.mem_of_find?_eq_some h)

/-! ## One record -/

theorem streamInit_inv {p : Params} (hp : validConfig p = true) : StreamInv p (streamInit p) where
  win_length := by
    obtain ⟨hd, -⟩ := validConfig_bounds hp
    simp only [streamInit, List.length_cons, List.length_replicate]
    omega
  hits_length := by simp [streamInit]
  words_split := by simp [streamInit]
  escv_wf := List.Pairwise.nil
  escv_pos := fun _ h => nomatch h
  escv_sum := rfl

/-- Charging a word counts it once, in `HITS` or as an escape (R263). -/
theorem account_inv {p : Params} {st : StreamRecord} (w : Word) (h : StreamInv p st) :
    StreamInv p (account p (buildCatalog p) st w).2 := by
  unfold account
  split
  · next e he =>
    have hid : e.id.toNat < st.hits.length := h.hits_length ▸ classify_id_lt he
    exact { h with
      hits_length := by rw [List.length_modify]; exact h.hits_length
      words_split := by
        have := h.words_split
        simp only [sum_modify_succ hid]
        omega }
  · have hsum := sum_mapSet h.escv_wf w ((mapGet st.escv w).getD 0 + 1)
    have hesc := h.escv_sum
    exact { h with
      words_split := by
        have := h.words_split
        simp only
        omega
      escv_wf := mapSet_wf _ _ h.escv_wf
      escv_pos := forall_mem_mapSet h.escv_pos (Nat.succ_pos _)
      escv_sum := by
        simp only
        omega }

/-- The window keeps its length: one word leaves, one enters (R264). -/
theorem pushHistory_inv {p : Params} {st : StreamRecord} (hp : validConfig p = true) (w : Word) (h : StreamInv p st) :
    StreamInv p (pushHistory w st) :=
  { h with
    win_length := by
      obtain ⟨hd, -⟩ := validConfig_bounds hp
      have := h.win_length
      simp only [pushHistory, List.length_append, List.length_drop, List.length_singleton]
      omega }

theorem compressWords_inv {p : Params} {ws : List Word} {st : StreamRecord} (hp : validConfig p = true)
    (h : StreamInv p st) : StreamInv p (compressWords p (buildCatalog p) ws st).2 := by
  induction ws generalizing st with
  | nil => exact h
  | cons w ws ih => exact ih (pushHistory_inv hp w (account_inv w h))

/-! ## The table -/

/-- The part of `BlockInv` about the stream table. -/
structure StreamTableInv (p : Params) (m : WordMap StreamRecord) : Prop where
  wf : mapWf m
  le : ∀ c, p.maxStreams = some c → m.length ≤ c
  records : ∀ e ∈ m, StreamInv p e.2

theorem BlockInv.streamTable {p : Params} {b : Block} (h : BlockInv p b) : StreamTableInv p b.streams :=
  ⟨h.streams_wf, h.streams_le, h.streams⟩

/-- The record `lookup_or_create` gives is in order, and there is room for it (R260). -/
theorem lookupOrCreate_inv {p : Params} {m : WordMap StreamRecord} {sid : Word} {st : StreamRecord}
    (hp : validConfig p = true) (hm : StreamTableInv p m) (h : lookupOrCreate p m sid = .ok st) :
    StreamInv p st ∧ ∀ c, p.maxStreams = some c → mapGet m sid = none → m.length < c := by
  rcases lookupOrCreate_ok h with hg | ⟨hg, hroom, rfl⟩
  · exact ⟨hm.records _ (mem_of_mapGet hg), fun c _ hn => by rw [hn] at hg; cases hg⟩
  · refine ⟨streamInit_inv hp, fun c hc _ => ?_⟩
    have hle := hm.le c hc
    have hne : m.length ≠ c := by simpa [hc, atCapacity] using hroom
    omega

/-- Compressing a block keeps the stream table in order (R262). -/
theorem compressBlock_inv {p : Params} {m m' : WordMap StreamRecord} {sid : Word} {b : List Byte} {n : Nat}
    (hp : validConfig p = true) (hm : StreamTableInv p m)
    (h : compressBlock p (buildCatalog p) m sid b = .ok (n, m')) : StreamTableInv p m' := by
  obtain ⟨st, hl, -, rfl⟩ := compressBlock_ok h
  obtain ⟨hst, hroom⟩ := lookupOrCreate_inv hp hm hl
  refine ⟨mapSet_wf _ _ hm.wf, fun c hc => ?_, forall_mem_mapSet hm.records (compressWords_inv hp hst)⟩
  rw [length_mapSet hm.wf]
  split
  · exact hm.le c hc
  · next hg => exact hroom c hc (by simpa using hg)

theorem payloadBits_inv {p : Params} {mem : Memory} {m m' : WordMap StreamRecord} {d : Desc} {bits : Nat}
    (hp : validConfig p = true) (hm : StreamTableInv p m)
    (h : payloadBits p (buildCatalog p) mem m d = .ok (bits, m')) : StreamTableInv p m' := by
  rcases payloadBits_ok h with ⟨-, hc⟩ | ⟨-, -, rfl⟩
  · exact compressBlock_inv hp hm hc
  · exact hm

end Sys2Proof.Machine
end

/-! # Every phase of a link step, every push and every pop keeps the invariants of its link (R50 to R55, R60, R343) -/

section
namespace Sys2Proof.Machine

/-! ## The parts of a link's invariant

`LinkInv` cut by what it speaks of, each part said of the fields it reads, so that an operation on other fields keeps
it as it stands. -/

/-- R60 (a) and (e): the payload in progress and the leftover. -/
structure PacketInv (pol : Policy) (cur : Option Desc) (off nfl left : Nat) : Prop where
  left_lt : left < flitBits
  left_zero : pol ≠ .packed → left = 0
  idle_off : cur = none → off = 0 ∧ nfl = 0
  busy_off : cur ≠ none → 0 < off ∧ off < nfl

/-- R60 (c) and (d): the holder and the sources' long slots. -/
structure HolderInv (p : Params) (pol : Policy) (ready : List ReadyLists) (q : TimestampQueue) (now : Nat) : Prop where
  holder_le : q.n ≤ 1
  cursors : q.wp = q.rp + q.n
  holder_entry : q.n = 1 → ∃ e ∈ heldEntry q, (ready.getD e.src readyInit).long = .held
  held_entry : ∀ s < p.nSrc, (ready.getD s readyInit).long = .held → ∃ e ∈ heldEntry q, e.src = s
  held_time : ∀ e ∈ heldEntry q, e.time < now
  held_aligned : pol = .unpacked → ∀ e ∈ heldEntry q, e.size % flitBits = 0
  held_dst : ∀ e ∈ heldEntry q, e.payload.dst.toNat < p.nDst

/-- The lists, the queues and the pointers of a link: what holds of it at every moment of a step, the payload in
progress left aside. -/
structure LinkLists (p : Params) (pol : Policy) (l : Link) : Prop where
  ready_length : l.ready.length = p.nSrc
  compl_length : l.compl.length = p.nDst
  slot_length : l.dq.slot.length = dqSlots p
  entry_length : l.tsq.entry.length = tsqSlots p
  rr_lt : l.rr < p.nSrc
  crr_lt : l.crr < p.nSrc
  ready_inv : ∀ r ∈ l.ready, ReadyInv p pol r
  holder : HolderInv p pol l.ready l.tsq l.now
  cur_dst : ∀ d, l.cur = some d → d.dst.toNat < p.nDst
  flight_dst : ∀ f ∈ flitsInFlight l.dq, ∀ d, flitDelivers f = some d → d.dst.toNat < p.nDst
  compl_dst : ∀ q ∈ l.compl, ∀ d ∈ q, d.dst.toNat < p.nDst
  compl_le : ∀ c, p.complDepth = some c → ∀ q ∈ l.compl, q.length ≤ c

/-- `LinkInv` without the cursors of `DQ` and the flit counters, which the pop phase takes apart and the push phase
brings together again: what every phase of a step keeps (R343). -/
structure LinkCore (p : Params) (pol : Policy) (l : Link) : Prop extends LinkLists p pol l where
  packet : PacketInv pol l.cur l.off l.nfl l.left

theorem mem_readyPayloads {r : ReadyLists} {d : Desc} :
    d ∈ readyPayloads r ↔ d ∈ r.short ∨ d ∈ r.plain ∨ r.long = .pending d := by
  cases h : r.long <;> simp [readyPayloads, h, eq_comm]

/-- Where a payload the link has admitted and not yet delivered can be (R363). -/
theorem mem_payloadsOf {l : Link} {d : Desc} :
    d ∈ payloadsOf l ↔
      (∃ r ∈ l.ready, d ∈ readyPayloads r) ∨ (∃ e ∈ heldEntry l.tsq, e.payload = d) ∨ l.cur = some d ∨
        (∃ f ∈ flitsInFlight l.dq, flitDelivers f = some d) ∨ ∃ q ∈ l.compl, d ∈ q := by
  simp only [payloadsOf, List.mem_append, List.mem_flatMap, Option.mem_toList, Option.map_eq_some_iff,
    List.mem_filterMap, List.mem_flatten, or_assoc, Option.mem_def]

/-- `LinkInv` is the part every phase keeps, and the agreement of `DQ`'s cursors and the counters (R60 (b), R357). -/
theorem linkInv_iff {p : Params} {pol : Policy} {l : Link} : LinkInv p pol l ↔ LinkCore p pol l ∧ flitCounts p l := by
  constructor
  · intro h
    have hdst : ∀ {d}, d ∈ payloadsOf l → d.dst.toNat < p.nDst := fun hd => h.payload_dst _ hd
    exact
      ⟨{ h with
          packet := { h with }
          holder :=
            { h with
              cursors := h.tsq_cursors
              held_dst := fun e he => hdst (mem_payloadsOf.2 (.inr (.inl ⟨e, he, rfl⟩))) }
          cur_dst := fun d hd => hdst (mem_payloadsOf.2 (.inr (.inr (.inl hd))))
          flight_dst := fun f hf d hd => hdst (mem_payloadsOf.2 (.inr (.inr (.inr (.inl ⟨f, hf, hd⟩)))))
          compl_dst := fun q hq d hd => hdst (mem_payloadsOf.2 (.inr (.inr (.inr (.inr ⟨q, hq, hd⟩))))) },
        h.flits_total, h.dq_pops, h.dq_latency⟩
  · rintro ⟨h, htotal, hpops, hlatency⟩
    exact
      { h, h.packet, h.holder with
        tsq_cursors := h.holder.cursors
        dq_latency := hlatency
        flits_total := htotal
        dq_pops := hpops
        payload_dst := by
          intro d hd
          rcases mem_payloadsOf.1 hd with ⟨r, hr, hd⟩ | ⟨e, he, rfl⟩ | hd | ⟨f, hf, hd⟩ | ⟨q, hq, hd⟩
          · exact (h.ready_inv r hr).payload_dst d hd
          · exact h.holder.held_dst e he
          · exact h.cur_dst d hd
          · exact h.flight_dst f hf d hd
          · exact h.compl_dst q hq d hd }

/-! ## The ready lists of one source (R51, R342) -/

theorem readyInit_inv (p : Params) (pol : Policy) : ReadyInv p pol readyInit where
  short_le := Nat.zero_le _
  plain_le := Nat.zero_le _
  plain_unused := fun _ => rfl
  compressed_unused := fun _ => ⟨rfl, rfl⟩
  short_class := fun _ h => nomatch h
  pending_class := fun _ h => nomatch h
  payload_dst := fun _ h => nomatch h

section ReadyInv
variable {p : Params} {pol : Policy} {r : ReadyLists}

/-- Dropping payloads and rewriting the long slot to one with no payload keeps the lists in order. -/
theorem ReadyInv.shrink {r' : ReadyLists} (h : ReadyInv p pol r) (hshort : r'.short.Sublist r.short)
    (hplain : r'.plain.Sublist r.plain) (hlong : r'.long = r.long ∨ (pol ≠ .plain ∧ ∀ d, r'.long ≠ .pending d)) :
    ReadyInv p pol r' where
  short_le := hshort.length_le.trans h.short_le
  plain_le := hplain.length_le.trans h.plain_le
  plain_unused := fun hp => List.sublist_nil.1 (h.plain_unused hp ▸ hplain)
  compressed_unused := by
    intro hp
    obtain ⟨hs, hl⟩ := h.compressed_unused hp
    refine ⟨List.sublist_nil.1 (hs ▸ hshort), ?_⟩
    rcases hlong with he | ⟨hne, -⟩
    · rw [he, hl]
    · exact absurd hp hne
  short_class := fun d hd => h.short_class d (hshort.subset hd)
  pending_class := by
    intro d hd
    rcases hlong with he | ⟨-, hne⟩
    · exact h.pending_class d (he ▸ hd)
    · exact absurd hd (hne d)
  payload_dst := by
    intro d hd
    apply h.payload_dst d
    rw [mem_readyPayloads] at hd ⊢
    rcases hd with hd | hd | hd
    · exact .inl (hshort.subset hd)
    · exact .inr (.inl (hplain.subset hd))
    · rcases hlong with he | ⟨-, hne⟩
      · exact .inr (.inr (he ▸ hd))
      · exact absurd hd (hne d)

variable {d : Desc}

theorem ReadyInv.push_plain (h : ReadyInv p pol r) (hp : pol = .plain) (hfull : r.plain.length ≠ p.plainDepth)
    (hd : d.dst.toNat < p.nDst) : ReadyInv p pol { r with plain := r.plain ++ [d] } :=
  { h with
    plain_le := by
      have := h.plain_le
      simp only [List.length_append, List.length_singleton]
      omega
    plain_unused := fun hne => absurd hp hne
    payload_dst := by
      intro q hq
      simp only [mem_readyPayloads, List.mem_append, List.mem_singleton] at hq
      rcases hq with hq | (hq | rfl) | hq
      · exact h.payload_dst q (mem_readyPayloads.2 (.inl hq))
      · exact h.payload_dst q (mem_readyPayloads.2 (.inr (.inl hq)))
      · exact hd
      · exact h.payload_dst q (mem_readyPayloads.2 (.inr (.inr hq))) }

theorem ReadyInv.push_pending (h : ReadyInv p pol r) (hp : pol ≠ .plain) (hlong : isLong d = true)
    (hd : d.dst.toNat < p.nDst) : ReadyInv p pol { r with long := .pending d } :=
  { h with
    compressed_unused := fun he => absurd he hp
    pending_class := by rintro q ⟨⟩; exact hlong
    payload_dst := by
      intro q hq
      simp only [mem_readyPayloads, LongSlot.pending.injEq] at hq
      rcases hq with hq | hq | rfl
      · exact h.payload_dst q (mem_readyPayloads.2 (.inl hq))
      · exact h.payload_dst q (mem_readyPayloads.2 (.inr (.inl hq)))
      · exact hd }

theorem ReadyInv.push_short (h : ReadyInv p pol r) (hp : pol ≠ .plain) (hshort : isLong d = false)
    (hfull : r.short.length ≠ shortDepth) (hd : d.dst.toNat < p.nDst) :
    ReadyInv p pol { r with short := r.short ++ [d] } :=
  { h with
    short_le := by
      have := h.short_le
      simp only [List.length_append, List.length_singleton]
      omega
    compressed_unused := fun he => absurd he hp
    short_class := by
      intro q hq
      rcases List.mem_append.1 hq with hq | hq
      · exact h.short_class q hq
      · rw [List.mem_singleton.1 hq]; exact hshort
    payload_dst := by
      intro q hq
      simp only [mem_readyPayloads, List.mem_append, List.mem_singleton] at hq
      rcases hq with (hq | rfl) | hq | hq
      · exact h.payload_dst q (mem_readyPayloads.2 (.inl hq))
      · exact hd
      · exact h.payload_dst q (mem_readyPayloads.2 (.inr (.inl hq)))
      · exact h.payload_dst q (mem_readyPayloads.2 (.inr (.inr hq))) }

end ReadyInv

/-! ## The holder (R53, R307 to R309) -/

theorem heldEntry_of_empty {q : TimestampQueue} (h : q.n = 0) : heldEntry q = none := by simp [heldEntry, h]

theorem heldEntry_tsqPush {d : Desc} {size src now : Nat} {q q' : TimestampQueue} (hn : q.n = 0) (hc : q.wp = q.rp)
    (h : tsqPush d size src now q = .ok q') :
    heldEntry q' = some { payload := d, size := size, src := src, time := now } := by
  obtain ⟨hne, rfl⟩ := tsqPush_ok h
  have hpos : 0 < q.entry.length := by omega
  simp [heldEntry, hc, List.getD_eq_getElem?_getD, Nat.mod_lt _ hpos]

/-- What is on top of the holder is the entry it keeps. -/
theorem heldEntry_of_tsqTop {cl now : Nat} {q : TimestampQueue} {e : TsqEntry} (h : tsqTop cl now q = some e) :
    heldEntry q = some e := by
  obtain ⟨hn, -, he⟩ := tsqTop_some h
  simp only [heldEntry, Nat.ne_of_gt hn, if_false, he]

section Holder
variable {p : Params} {pol : Policy} {ready ready' : List ReadyLists} {q q' : TimestampQueue} {now : Nat}

/-- The holder reads of the sources only which of them are `HELD`. -/
theorem HolderInv.of_held_iff (h : HolderInv p pol ready q now)
    (hr : ∀ s, (ready'.getD s readyInit).long = .held ↔ (ready.getD s readyInit).long = .held) :
    HolderInv p pol ready' q now :=
  { h with
    holder_entry := by
      intro hn
      obtain ⟨e, he, hl⟩ := h.holder_entry hn
      exact ⟨e, he, (hr _).2 hl⟩
    held_entry := fun s hs hl => h.held_entry s hs ((hr s).1 hl) }

theorem HolderInv.later (h : HolderInv p pol ready q now) : HolderInv p pol ready q (now + 1) :=
  { h with held_time := fun e he => (h.held_time e he).trans (Nat.lt_succ_self _) }

/-- Popping the entry of a source and emptying that source's slot leaves no source held. -/
theorem HolderInv.pop {e : TsqEntry} (h : HolderInv p pol ready q now) (hlen : ready.length = p.nSrc)
    (he : heldEntry q = some e) (hq : tsqPop q = .ok q') :
    HolderInv p pol (ready.modify e.src fun r => { r with long := .empty }) q' now := by
  obtain ⟨hn, rfl⟩ := tsqPop_ok hq
  have hle := h.holder_le
  have hcursors := h.cursors
  have hn0 : q.n - 1 = 0 := by omega
  have empty : ∀ e', e' ∉ heldEntry
      { q with entry := q.entry.set (q.rp % q.entry.length) none, rp := q.rp + 1, n := q.n - 1 } := by
    intro e' he'
    rw [heldEntry_of_empty hn0] at he'
    cases he'
  exact
    { holder_le := by simp only; omega
      cursors := by simp only; omega
      holder_entry := fun h1 => by simp only at h1; omega
      held_entry := by
        intro s hs hl
        by_cases hse : s = e.src
        · subst hse
          simp [List.getD_eq_getElem?_getD, hlen, hs] at hl
        · have hl : (ready.getD s readyInit).long = .held := by
            simpa [List.getD_eq_getElem?_getD, Ne.symm hse] using hl
          obtain ⟨e', he', hs'⟩ := h.held_entry s hs hl
          rw [he] at he'
          obtain rfl := Option.some.inj he'
          exact absurd hs'.symm hse
      held_time := fun e' he' => absurd he' (empty e')
      held_aligned := fun _ e' he' => absurd he' (empty e')
      held_dst := fun e' he' => absurd he' (empty e') }

/-- Holding the payload of a source keeps the order; its time is the present, so it is past from the next step on. -/
theorem HolderInv.push {d : Desc} {bits s : Nat} (h : HolderInv p pol ready q now) (hlen : ready.length = p.nSrc)
    (hn : q.n = 0) (hs : s < p.nSrc) (halign : pol = .unpacked → bits % flitBits = 0) (hd : d.dst.toNat < p.nDst)
    (hq : tsqPush d bits s now q = .ok q') :
    HolderInv p pol (ready.modify s fun r => { r with long := .held }) q' (now + 1) := by
  have hcursors := h.cursors
  have held := heldEntry_tsqPush hn (by omega) hq
  obtain ⟨-, rfl⟩ := tsqPush_ok hq
  have only : ∀ e ∈ heldEntry
      { q with
        entry := q.entry.set (q.wp % q.entry.length) (some { payload := d, size := bits, src := s, time := now })
        wp := q.wp + 1
        n := q.n + 1 }, e = { payload := d, size := bits, src := s, time := now } := by
    intro e he
    rw [held] at he
    exact (Option.some.inj he).symm
  exact
    { holder_le := by simp only; omega
      cursors := by simp only; omega
      holder_entry := fun _ => ⟨_, held, by simp [List.getD_eq_getElem?_getD, hlen, hs]⟩
      held_entry := by
        intro t ht hl
        by_cases hts : t = s
        · exact ⟨_, held, hts.symm⟩
        · have hl : (ready.getD t readyInit).long = .held := by
            simpa [List.getD_eq_getElem?_getD, Ne.symm hts] using hl
          obtain ⟨e', he', -⟩ := h.held_entry t ht hl
          rw [heldEntry_of_empty hn] at he'
          cases he'
      held_time := fun e he => by rw [only e he]; exact Nat.lt_succ_self _
      held_aligned := fun hp e he => by rw [only e he]; exact halign hp
      held_dst := fun e he => by rw [only e he]; exact hd }

end Holder

/-! ## Changing the ready lists of one source -/

theorem readyOf_eq_of_getElem? {l : Link} {s : Nat} {r : ReadyLists} (h : l.ready[s]? = some r) : readyOf l s = r := by
  simp [readyOf, List.getD_eq_getElem?_getD, h]

theorem getElem?_ready_eq_readyOf {l : Link} {s : Nat} (h : s < l.ready.length) :
    l.ready[s]? = some (readyOf l s) := by
  simp [readyOf, List.getD_eq_getElem?_getD, h]

theorem readyOf_mem {l : Link} {s : Nat} (h : s < l.ready.length) : readyOf l s ∈ l.ready :=
  List.mem_of_getElem? (getElem?_ready_eq_readyOf h)

/-- Changing one source's lists, with neither its slot becoming `HELD` nor a held one freed, changes no source's. -/
theorem readyOf_modifyReady_held_iff {l : Link} {s : Nat} {f : ReadyLists → ReadyLists}
    (hheld : (f (readyOf l s)).long = .held ↔ (readyOf l s).long = .held) (t : Nat) :
    (readyOf (modifyReady s f l) t).long = .held ↔ (readyOf l t).long = .held := by
  by_cases hts : t = s
  · subst hts
    by_cases ht : t < l.ready.length
    · rw [readyOf_modifyReady_same ht]; exact hheld
    · rw [readyOf, readyOf, modifyReady_ready, List.modify_eq_self (not_lt.1 ht)]
  · rw [readyOf_modifyReady_other hts]

/-- One source's lists changed to lists in order, the others as they were. -/
theorem forall_mem_modifyReady {P : ReadyLists → Prop} {l : Link} {s : Nat} {f : ReadyLists → ReadyLists}
    (h : ∀ r ∈ l.ready, P r) (hf : s < l.ready.length → P (f (readyOf l s))) :
    ∀ r ∈ (modifyReady s f l).ready, P r := by
  refine forall_mem_modify h fun r hr => ?_
  rw [← readyOf_eq_of_getElem? hr]
  exact hf (List.getElem?_eq_some_iff.1 hr).1

/-- Such a change keeps the link in order. -/
theorem LinkCore.after_modifyReady {p : Params} {pol : Policy} {l : Link} {s : Nat} {f : ReadyLists → ReadyLists}
    (h : LinkCore p pol l) (hf : s < l.ready.length → ReadyInv p pol (f (readyOf l s)))
    (hheld : (f (readyOf l s)).long = .held ↔ (readyOf l s).long = .held) :
    LinkCore p pol (modifyReady s f l) :=
  { h with
    ready_length := by rw [modifyReady_ready, List.length_modify]; exact h.ready_length
    ready_inv := forall_mem_modifyReady h.ready_inv hf
    holder := h.holder.of_held_iff (readyOf_modifyReady_held_iff hheld) }

/-! ## The delay queue (R301, R302) -/

theorem fillerFlit_delivers : flitDelivers fillerFlit = none := rfl

/-- A slot written holds the flit written or what was there. -/
theorem getD_set_eq_or {α : Type} (xs : List α) (i j : Nat) (x dflt : α) :
    (xs.set i x).getD j dflt = x ∨ (xs.set i x).getD j dflt = xs.getD j dflt := by
  simp only [List.getD_eq_getElem?_getD, List.getElem?_set]
  split
  · next hij =>
    split
    · exact .inl rfl
    · next hlt => subst hij; right; simp [hlt]
  · exact .inr rfl

/-- A flit in flight after a push is the one pushed, was in flight, or delivers nothing. -/
theorem mem_flitsInFlight_dqPush {f g : Flit} {q : DelayQueue} (h : g ∈ flitsInFlight (dqPush f q)) :
    g = f ∨ g ∈ flitsInFlight q ∨ flitDelivers g = none := by
  obtain ⟨j, hj, rfl⟩ := List.mem_map.1 h
  have hj : j < q.wp + 1 - q.rp := List.mem_range.1 hj
  simp only [dqPush, List.length_set]
  by_cases hlast : j = q.wp - q.rp
  · have hpos : q.rp + j = q.wp := by omega
    rw [hpos]
    by_cases hlen : q.slot.length = 0
    · right; right
      simp [List.length_eq_zero_iff.1 hlen, fillerFlit_delivers]
    · left
      simp [List.getD_eq_getElem?_getD, Nat.mod_lt _ (Nat.pos_of_ne_zero hlen)]
  · rcases getD_set_eq_or q.slot (q.wp % q.slot.length) ((q.rp + j) % q.slot.length) f fillerFlit with he | he
    · exact .inl he
    · exact .inr (.inl (List.mem_map.2 ⟨j, List.mem_range.2 (by omega), he.symm⟩))

/-- A flit in flight after a pop was in flight, or delivers nothing. -/
theorem mem_flitsInFlight_dqPop {g : Flit} {q : DelayQueue} (h : g ∈ flitsInFlight (dqPop q).2) :
    g ∈ flitsInFlight q ∨ flitDelivers g = none := by
  obtain ⟨j, hj, rfl⟩ := List.mem_map.1 h
  have hj : j < q.wp - (q.rp + 1) := List.mem_range.1 hj
  simp only [dqPop, List.length_set]
  rcases getD_set_eq_or q.slot (q.rp % q.slot.length) ((q.rp + 1 + j) % q.slot.length) fillerFlit fillerFlit with
    he | he
  · right; rw [he]; rfl
  · left
    exact List.mem_map.2 ⟨j + 1, List.mem_range.2 (by omega), by rw [he, Nat.add_right_comm, Nat.add_assoc]⟩

section Phases
variable {p : Params} {pol : Policy} {l l' : Link}

/-! ## The pop phase (R345) -/

theorem complOf_eq_of_getElem? {t : Nat} {q : List Desc} (h : l.compl[t]? = some q) : complOf l t = q := by
  simp [complOf, List.getD_eq_getElem?_getD, h]

/-- A pop leaves the flits behind it in flight. -/
theorem LinkCore.after_dqPop (h : LinkCore p pol l) : LinkCore p pol { l with dq := (dqPop l.dq).2 } :=
  { h with
    slot_length := by simpa [dqPop] using h.slot_length
    flight_dst := by
      intro f hf d hd
      rcases mem_flitsInFlight_dqPop hf with hf | hn
      · exact h.flight_dst f hf d hd
      · rw [hn] at hd; cases hd }

/-- A payload delivered goes to a list that exists and has room. -/
theorem LinkCore.after_delivery {d : Desc} (h : LinkCore p pol l)
    (hroom : atCapacity (complOf l d.dst.toNat).length p.complDepth = false) :
    LinkCore p pol { l with compl := l.compl.modify d.dst.toNat (· ++ [d]) } :=
  { h with
    compl_length := by rw [List.length_modify]; exact h.compl_length
    compl_dst := by
      refine forall_mem_modify h.compl_dst fun q hq e he => ?_
      obtain ⟨hlt, -⟩ := List.getElem?_eq_some_iff.1 hq
      rcases List.mem_append.1 he with he | he
      · exact h.compl_dst q (List.mem_of_getElem? hq) e he
      · rw [List.mem_singleton.1 he, ← h.compl_length]; exact hlt
    compl_le := by
      intro c hc
      refine forall_mem_modify (h.compl_le c hc) fun q hq => ?_
      have hle := h.compl_le c hc q (List.mem_of_getElem? hq)
      have hne : q.length ≠ c := by simpa [complOf_eq_of_getElem? hq, hc, atCapacity] using hroom
      simp only [List.length_append, List.length_singleton]
      omega }

theorem LinkCore.after_popOnce (h : LinkCore p pol l) (hp : popOnce p l = .ok l') : LinkCore p pol l' := by
  rcases popOnce_ok hp with ⟨-, rfl⟩ | ⟨d, -, hroom, rfl⟩
  · exact h.after_dqPop
  · exact h.after_dqPop.after_delivery hroom

theorem LinkCore.after_popPhase {k : Nat} (h : LinkCore p pol l) (hp : popPhase p k l = .ok l') :
    LinkCore p pol l' := by
  induction k generalizing l with
  | zero => obtain rfl := Except.ok.inj hp; exact h
  | succ k ih =>
    unfold popPhase at hp
    split at hp
    · cases hp
    · next n hn => exact ih (h.after_popOnce hn) hp

/-! ## The push phase (R346 to R351) -/

/-- A push keeps the flits in flight, beside the one pushed. -/
theorem LinkLists.after_dqPush {f : Flit} (h : LinkLists p pol l)
    (hf : ∀ d, flitDelivers f = some d → d.dst.toNat < p.nDst) : LinkLists p pol { l with dq := dqPush f l.dq } :=
  { h with
    slot_length := by simpa [dqPush] using h.slot_length
    flight_dst := by
      intro g hg d hd
      rcases mem_flitsInFlight_dqPush hg with rfl | hg | hn
      · exact hf d hd
      · exact h.flight_dst g hg d hd
      · rw [hn] at hd; cases hd }

/-! ### One flit of the payload in progress (R350) -/

/-- The flit emitted is one of the payload in progress. -/
theorem emitFlit_dq (l : Link) :
    (emitFlit l).dq = dqPush { payload := l.cur, head := l.off = 0, tail := l.off = l.nfl - 1 } l.dq := by
  simp only [emitFlit]
  split <;> rfl

theorem emitFlit_cur (l : Link) : (emitFlit l).cur = l.cur ∨ (emitFlit l).cur = none := by
  simp only [emitFlit]
  split
  · exact .inr rfl
  · exact .inl rfl

theorem flitDelivers_some {f : Flit} {d : Desc} (h : flitDelivers f = some d) : f.payload = some d := by
  unfold flitDelivers at h
  split at h
  · exact h
  · cases h

/-- After a flit of the payload in progress, the payload goes on in order or the link is idle. -/
theorem emitFlit_packet (hcur : l.cur ≠ none) (hoff : l.off < l.nfl) (hleft : l.left < flitBits)
    (hzero : pol ≠ .packed → l.left = 0) :
    PacketInv pol (emitFlit l).cur (emitFlit l).off (emitFlit l).nfl (emitFlit l).left := by
  simp only [emitFlit]
  split
  · exact ⟨hleft, hzero, fun _ => ⟨rfl, rfl⟩, fun hne => absurd rfl hne⟩
  · exact ⟨hleft, hzero, fun he => absurd he hcur, fun _ => ⟨Nat.succ_pos _, by simp only; omega⟩⟩

theorem LinkLists.after_emitFlit (h : LinkLists p pol l) : LinkLists p pol (emitFlit l) := by
  have pushed := h.after_dqPush (f := { payload := l.cur, head := l.off = 0, tail := l.off = l.nfl - 1 })
    fun d hd => h.cur_dst d (flitDelivers_some hd)
  exact
    { ready_length := by rw [emitFlit_ready]; exact h.ready_length
      compl_length := by rw [emitFlit_compl]; exact h.compl_length
      slot_length := by rw [emitFlit_dq]; exact pushed.slot_length
      entry_length := by rw [emitFlit_tsq]; exact h.entry_length
      rr_lt := by rw [emitFlit_rr]; exact h.rr_lt
      crr_lt := by rw [emitFlit_crr]; exact h.crr_lt
      ready_inv := by rw [emitFlit_ready]; exact h.ready_inv
      holder := by rw [emitFlit_ready, emitFlit_tsq, emitFlit_now]; exact h.holder
      cur_dst := by
        rcases emitFlit_cur l with he | he <;> rw [he]
        · exact h.cur_dst
        · rintro d ⟨⟩
      flight_dst := by rw [emitFlit_dq]; exact pushed.flight_dst
      compl_dst := by rw [emitFlit_compl]; exact h.compl_dst
      compl_le := by rw [emitFlit_compl]; exact h.compl_le }

/-- Case (a) of R346: the payload in progress goes on. -/
theorem LinkCore.after_emitFlit (h : LinkCore p pol l) (hcur : l.cur ≠ none) : LinkCore p pol (emitFlit l) :=
  { h.toLinkLists.after_emitFlit with
    packet := emitFlit_packet hcur (h.packet.busy_off hcur).2 h.packet.left_lt h.packet.left_zero }

/-! ### The start of a payload (R348) -/

theorem ceilDiv_pos {a b : Nat} (ha : 0 < a) (hb : 0 < b) : 0 < ceilDiv a b :=
  Nat.div_pos (by omega) hb

theorem roundUp_mod (a b : Nat) : roundUp a b % b = 0 := Nat.mul_mod_right b _

/-- A packet behind a leftover below one flit takes at least one flit. -/
theorem startPacket_nfl_pos (d : Desc) (bits : Nat) (h : l.left < flitBits) : 0 < (startPacket d bits l).nfl :=
  ceilDiv_pos (by simp only [packetBits]; omega) (by decide)

/-- The leftover a packet leaves fills its last flit up (R348), in numbers. -/
theorem startPacket_left_eq (d : Desc) (bits : Nat) (l : Link) :
    (startPacket d bits l).left =
      if (128 + bits - l.left) % 128 = 0 then 0 else 128 - (128 + bits - l.left) % 128 := rfl

theorem startPacket_left_lt (d : Desc) (bits : Nat) (l : Link) : (startPacket d bits l).left < 128 := by
  rw [startPacket_left_eq]
  split <;> omega

/-- A packet of whole flits behind no leftover leaves none. -/
theorem startPacket_left_zero (d : Desc) {bits : Nat} (hl : l.left = 0) (hb : bits % 128 = 0) :
    (startPacket d bits l).left = 0 := by
  rw [startPacket_left_eq, if_pos (by omega)]

theorem LinkLists.after_startPacket {d : Desc} {bits : Nat} (h : LinkLists p pol l) (hd : d.dst.toNat < p.nDst) :
    LinkLists p pol (startPacket d bits l) :=
  { h with cur_dst := by rintro q ⟨⟩; exact hd }

/-- Starting a payload and emitting its first flit keeps the link in order; only `PACKED` may start one that is not
whole flits (R60 (e)). -/
theorem LinkCore.after_start {d : Desc} {bits : Nat} (h : LinkCore p pol l) (hd : d.dst.toNat < p.nDst)
    (halign : pol ≠ .packed → bits % flitBits = 0) : LinkCore p pol (emitFlit (startPacket d bits l)) :=
  { (h.toLinkLists.after_startPacket hd).after_emitFlit with
    packet := emitFlit_packet (by simp [startPacket]) (startPacket_nfl_pos d bits h.packet.left_lt)
      (startPacket_left_lt d bits l) fun hp => startPacket_left_zero d (h.packet.left_zero hp) (halign hp) }

/-! ### The cases of `slot()` (R346) -/

theorem next_source_lt {n s : Nat} (h : s < n) : (s + 1) % n < n := Nat.mod_lt _ (Nat.zero_lt_of_lt h)

/-- The payload sent from a ready list was in order there. -/
theorem LinkCore.ready_dst {s : Nat} {d : Desc} (h : LinkCore p pol l) (hs : s < p.nSrc)
    (hd : d ∈ readyPayloads (readyOf l s)) : d.dst.toNat < p.nDst :=
  (h.ready_inv _ (readyOf_mem (h.ready_length ▸ hs))).payload_dst d hd

theorem plainBits_mod (d : Desc) : plainBits d % flitBits = 0 := by
  unfold plainBits
  split
  · exact roundUp_mod _ _
  · rfl

/-- Case (b) under `PLAIN`. -/
theorem LinkCore.after_sendPlain {s : Nat} {d : Desc} (h : LinkCore p pol l) (hs : plainSource p l = some (s, d)) :
    LinkCore p pol (sendPlain p s d l) := by
  obtain ⟨hsrc, rest, hplain⟩ := plainSource_some hs
  have hd := h.ready_dst hsrc (d := d) (mem_readyPayloads.2 (.inr (.inl (by simp [hplain]))))
  have taken : LinkCore p pol (modifyReady s (fun r => { r with plain := r.plain.drop 1 }) l) :=
    h.after_modifyReady
      (fun hlt => (h.ready_inv _ (readyOf_mem hlt)).shrink (.refl _) (List.drop_sublist _ _) (.inl rfl)) Iff.rfl
  have turned : LinkCore p pol
      { modifyReady s (fun r => { r with plain := r.plain.drop 1 }) l with rr := (s + 1) % p.nSrc } :=
    { taken with rr_lt := next_source_lt hsrc }
  exact turned.after_start hd fun _ => plainBits_mod d

/-- Case (b) under a compressed policy. -/
theorem LinkCore.after_sendShort {s : Nat} {d : Desc} (h : LinkCore p pol l) (hs : shortSource p l = some (s, d)) :
    LinkCore p pol (sendShort p s d l) := by
  obtain ⟨-, hsrc, rest, hshort⟩ := shortSource_some hs
  have hd := h.ready_dst hsrc (d := d) (mem_readyPayloads.2 (.inl (by simp [hshort])))
  have taken : LinkCore p pol (modifyReady s (fun r => { r with short := r.short.drop 1 }) l) :=
    h.after_modifyReady
      (fun hlt => (h.ready_inv _ (readyOf_mem hlt)).shrink (List.drop_sublist _ _) (.refl _) (.inl rfl)) Iff.rfl
  have turned : LinkCore p pol
      { modifyReady s (fun r => { r with short := r.short.drop 1 }) l with rr := (s + 1) % p.nSrc } :=
    { taken with rr_lt := next_source_lt hsrc }
  exact turned.after_start hd fun _ => rfl

/-- Case (c): the held payload leaves the holder and its source's slot together. -/
theorem LinkCore.after_sendHeld {e : TsqEntry} {now : Nat} (h : LinkCore p pol l) (hpol : pol ≠ .plain)
    (htop : tsqTop p.compLatency now l.tsq = some e) (hs : sendHeld e l = .ok l') : LinkCore p pol l' := by
  have held := heldEntry_of_tsqTop htop
  obtain ⟨q, hq, rfl⟩ := sendHeld_ok hs
  have popped : LinkCore p pol { modifyReady e.src (fun r => { r with long := .empty }) l with tsq := q } :=
    { h with
      ready_length := by simpa using h.ready_length
      entry_length := by
        obtain ⟨-, rfl⟩ := tsqPop_ok hq
        simpa using h.entry_length
      ready_inv := forall_mem_modifyReady h.ready_inv fun hlt =>
        (h.ready_inv _ (readyOf_mem hlt)).shrink (.refl _) (.refl _) (.inr ⟨hpol, by simp⟩)
      holder := h.holder.pop h.ready_length held hq }
  refine popped.after_start (h.holder.held_dst e held) fun hp => h.holder.held_aligned ?_ e held
  cases pol with
  | plain => exact absurd rfl hpol
  | packed => exact absurd rfl hp
  | unpacked => rfl

/-- Case (d): a filler delivers nothing and discards the leftover (R349). -/
theorem LinkCore.after_pushFiller (h : LinkCore p pol l) : LinkCore p pol (pushFiller l) :=
  { h.toLinkLists.after_dqPush (f := fillerFlit) (fun _ hd => nomatch hd) with
    packet :=
      { left_lt := show 0 < 128 by decide
        left_zero := fun _ => rfl
        idle_off := h.packet.idle_off
        busy_off := h.packet.busy_off } }

theorem LinkCore.after_fillSlot (h : LinkCore p pol l) (hf : fillSlot p pol l = .ok l') : LinkCore p pol l' := by
  rcases fillSlot_ok hf with ⟨hcur, rfl⟩ | ⟨-, -, s, d, hs, rfl⟩ | ⟨-, -, -, rfl⟩ | ⟨-, -, s, d, hs, rfl⟩ |
    ⟨-, hpol, -, e, htop, hs⟩ | ⟨-, -, -, -, rfl⟩
  · exact h.after_emitFlit hcur
  · exact h.after_sendPlain hs
  · exact h.after_pushFiller
  · exact h.after_sendShort hs
  · exact h.after_sendHeld hpol htop hs
  · exact h.after_pushFiller

theorem LinkCore.after_pushPhase {k : Nat} (h : LinkCore p pol l) (hp : pushPhase p pol k l = .ok l') :
    LinkCore p pol l' := by
  induction k generalizing l with
  | zero => obtain rfl := Except.ok.inj hp; exact h
  | succ k ih =>
    unfold pushPhase at hp
    split at hp
    · cases hp
    · next n hn => exact ih (h.after_fillSlot hn) hp

/-! ## The compression phase and the end of the step (R352, R343) -/

theorem heldBits_mod (bits : Nat) : heldBits .unpacked bits % flitBits = 0 := roundUp_mod _ _

/-- The compression phase, then `NOW + 1`: an entry that is held now is in the past from the next step on. -/
theorem LinkCore.after_compressionPhase {cat : List CatEntry} {mem : Memory} {m m' : WordMap StreamRecord}
    (h : LinkCore p pol l) (hc : compressionPhase p pol cat mem m l = .ok (l', m')) :
    LinkCore p pol { l' with now := l'.now + 1 } := by
  rcases compressionPhase_ok hc with ⟨-, rfl, -⟩ | ⟨s, d, bits, q, hs, -, hq, rfl⟩
  · exact { h with holder := h.holder.later }
  · obtain ⟨hpol, hn, hsrc, hlong⟩ := pendingSource_some hs
    have hd := h.ready_dst hsrc (mem_readyPayloads.2 (.inr (.inr hlong)))
    exact
      { h with
        ready_length := by simpa using h.ready_length
        entry_length := by
          obtain ⟨-, rfl⟩ := tsqPush_ok hq
          simpa using h.entry_length
        crr_lt := next_source_lt hsrc
        ready_inv := forall_mem_modifyReady h.ready_inv fun hlt =>
          (h.ready_inv _ (readyOf_mem hlt)).shrink (.refl _) (.refl _) (.inr ⟨hpol, by simp⟩)
        holder := h.holder.push h.ready_length hn hsrc (by rintro rfl; exact heldBits_mod bits) hd hq }

end Phases

/-! ## The commands that write a link -/

section LinkCommands
variable {p : Params} {pol : Policy} {l l' : Link}

/-- A step pops and pushes `k` flits each, so the cursors and the counters agree again (R357). -/
theorem stepLink_flitCounts {cat : List CatEntry} {mem : Memory} {rate : BitVec 32} {m m' : WordMap StreamRecord}
    {k : Nat} (h : flitCounts p l) (hs : stepLink p pol cat mem rate m l = .ok (k, l', m')) : flitCounts p l' := by
  obtain ⟨acc, popped, pushed, held, -, hpop, hpush, hcomp, rfl⟩ := stepLink_ok hs
  obtain ⟨htotal, hpops, hlatency⟩ := h
  obtain ⟨prp, pwp, pstats, -, -⟩ := popPhase_counters hpop
  obtain ⟨urp, uwp, utotal, usum, -, -⟩ := pushPhase_counters hpush
  obtain ⟨cdq, cstats, -, -⟩ := compressionPhase_counters hcomp
  simp only at prp pwp pstats
  simp only [flitCounts, cdq, cstats]
  rw [pstats] at utotal usum
  omega

theorem stepLink_inv {cat : List CatEntry} {mem : Memory} {rate : BitVec 32} {m m' : WordMap StreamRecord} {k : Nat}
    (h : LinkInv p pol l) (hs : stepLink p pol cat mem rate m l = .ok (k, l', m')) : LinkInv p pol l' := by
  obtain ⟨hcore, hcounts⟩ := linkInv_iff.1 h
  refine linkInv_iff.2 ⟨?_, stepLink_flitCounts hcounts hs⟩
  obtain ⟨acc, popped, pushed, held, -, hpop, hpush, hcomp, rfl⟩ := stepLink_ok hs
  have started : LinkCore p pol { l with acc := acc } := { hcore with }
  have filled : LinkCore p pol pushed := (started.after_popPhase hpop).after_pushPhase hpush
  have counted : LinkCore p pol
      { pushed with stats := { pushed.stats with flitsTotal := pushed.stats.flitsTotal + k } } := { filled with }
  exact counted.after_compressionPhase hcomp

/-- A step keeps the stream table in order. -/
theorem stepLink_streams {mem : Memory} {rate : BitVec 32} {m m' : WordMap StreamRecord} {k : Nat}
    (hp : validConfig p = true) (hm : StreamTableInv p m)
    (hs : stepLink p pol (buildCatalog p) mem rate m l = .ok (k, l', m')) : StreamTableInv p m' := by
  obtain ⟨acc, popped, pushed, held, -, -, -, hcomp, -⟩ := stepLink_ok hs
  rcases compressionPhase_ok hcomp with ⟨-, -, rfl⟩ | ⟨s, d, bits, q, -, hb, -, -⟩
  · exact hm
  · exact payloadBits_inv hp hm hb

/-- A push keeps the link in order (R342). -/
theorem acceptPayload_inv {s : Nat} {d : Desc} (h : LinkInv p pol l) (hd : d.dst.toNat < p.nDst)
    (ha : acceptPayload p pol s d l = .ok l') : LinkInv p pol l' := by
  obtain ⟨hcore, hcounts⟩ := linkInv_iff.1 h
  have source : s < l.ready.length → ReadyInv p pol (readyOf l s) := fun hlt => hcore.ready_inv _ (readyOf_mem hlt)
  rw [acceptPayload_ready ha, linkInv_iff]
  refine ⟨?_, hcounts⟩
  rcases acceptPayload_ok ha with ⟨hpol, hfull, rfl⟩ | ⟨hpol, hlong, hempty, rfl⟩ | ⟨hpol, hshort, hfull, rfl⟩
  · exact hcore.after_modifyReady (fun hlt => (source hlt).push_plain hpol hfull hd) Iff.rfl
  · exact hcore.after_modifyReady (fun hlt => (source hlt).push_pending hpol hlong hd) (by simp [hempty])
  · exact hcore.after_modifyReady (fun hlt => (source hlt).push_short hpol hshort hfull hd) Iff.rfl

/-- Taking the oldest payload off a completion list keeps the link in order (R358). -/
theorem linkInv_drop_compl (h : LinkInv p pol l) (t : Nat) :
    LinkInv p pol { l with compl := l.compl.modify t (List.drop 1) } := by
  obtain ⟨hcore, hcounts⟩ := linkInv_iff.1 h
  refine linkInv_iff.2 ⟨{ hcore with compl_length := ?_, compl_dst := ?_, compl_le := ?_ }, hcounts⟩
  · rw [List.length_modify]; exact hcore.compl_length
  · exact forall_mem_modify hcore.compl_dst fun q hq d hd =>
      hcore.compl_dst q (List.mem_of_getElem? hq) d (List.mem_of_mem_drop hd)
  · exact fun c hc => forall_mem_modify (hcore.compl_le c hc) fun q hq =>
      (List.drop_sublist 1 q).length_le.trans (hcore.compl_le c hc q (List.mem_of_getElem? hq))

end LinkCommands

end Sys2Proof.Machine
end

/-! # The invariant of the machine holds after every reset and is kept by every step (R60, R41, R430, R473) -/

section
namespace Sys2Proof.Machine

/-! ## After a reset (R470 to R473) -/

theorem readyOf_linkInit (p : Params) (s : Nat) : readyOf (linkInit p) s = readyInit := by
  simp only [readyOf, linkInit, List.getD_eq_getElem?_getD, List.getElem?_replicate]
  split <;> rfl

theorem flitsInFlight_dqInit {p : Params} {f : Flit} (h : f ∈ flitsInFlight (dqInit p)) : f = fillerFlit := by
  obtain ⟨j, -, rfl⟩ := List.mem_map.1 h
  simp only [dqInit, List.getD_eq_getElem?_getD, List.getElem?_replicate]
  split <;> rfl

theorem heldEntry_tsqInit (p : Params) : heldEntry (tsqInit p) = none := heldEntry_of_empty rfl

theorem holderInit_inv (p : Params) (pol : Policy) :
    HolderInv p pol (linkInit p).ready (tsqInit p) (linkInit p).now where
  holder_le := Nat.zero_le _
  cursors := rfl
  holder_entry := by rintro ⟨⟩
  held_entry := by
    intro s _ hl
    rw [← readyOf, readyOf_linkInit] at hl
    cases hl
  held_time := by simp [heldEntry_tsqInit]
  held_aligned := by simp [heldEntry_tsqInit]
  held_dst := by simp [heldEntry_tsqInit]

/-- A link at its reset values is in order under every policy. -/
theorem linkInit_inv {p : Params} (pol : Policy) (hp : validConfig p = true) : LinkInv p pol (linkInit p) := by
  obtain ⟨-, hsrc, -⟩ := validConfig_bounds hp
  refine linkInv_iff.2 ⟨?_, rfl, rfl, (Nat.zero_add _).symm⟩
  exact
    { ready_length := List.length_replicate
      compl_length := List.length_replicate
      slot_length := List.length_replicate
      entry_length := List.length_replicate
      rr_lt := hsrc
      crr_lt := hsrc
      ready_inv := fun r hr => List.eq_of_mem_replicate hr ▸ readyInit_inv p pol
      holder := holderInit_inv p pol
      cur_dst := fun _ hd => nomatch hd
      flight_dst := by
        intro f hf d hd
        rw [flitsInFlight_dqInit hf] at hd
        cases hd
      compl_dst := fun q hq d hd => by rw [List.eq_of_mem_replicate hq] at hd; cases hd
      compl_le := fun c _ q hq => by rw [List.eq_of_mem_replicate hq]; exact Nat.zero_le _
      packet :=
        { left_lt := show 0 < 128 by decide
          left_zero := fun _ => rfl
          idle_off := fun _ => ⟨rfl, rfl⟩
          busy_off := fun h => absurd rfl h } }

/-- The three ends of the reset sequence: a live block, or a fatal one with the cause of the check that failed. -/
theorem resetBlock_cases (p : Params) :
    (validConfig p = true ∧ resetBlock p = { blockCleared p with cat := buildCatalog p }) ∨
      ∃ (b : Block) (c : Cause), c ≠ .none ∧ resetBlock p = { b with status := statusFatal c } := by
  unfold resetBlock
  split
  · next hp =>
    split
    · exact .inl ⟨hp, rfl⟩
    · exact .inr ⟨{ blockCleared p with cat := buildCatalog p }, .basePatternMissing, by decide, rfl⟩
  · exact .inr ⟨blockCleared p, .badConfig, by decide, rfl⟩

theorem blockCleared_inv {p : Params} (hp : validConfig p = true) :
    BlockInv p { blockCleared p with cat := buildCatalog p } where
  config := hp
  cat := rfl
  streams_wf := List.Pairwise.nil
  streams_le := fun _ _ => Nat.zero_le _
  streams := fun _ h => nomatch h
  link := by rintro (_ | _) <;> exact linkInit_inv _ hp

/-- A fatal error with a cause meets the invariant, whatever the block held (R430). -/
theorem stateInv_of_fatal {s : State} {c : Cause} (hc : c ≠ .none) (hs : s.block.status = statusFatal c)
    (hm : memoryWf s.mem) : StateInv s where
  cause_iff := by simp [hs, hc]
  fatal_no_result := fun _ => by rw [hs]; rfl
  mem_wf := hm
  block := fun hl => by rw [live, hs] at hl; cases hl

/-- A live block in order meets the invariant, if no cause stands in `STATUS`. -/
theorem stateInv_of_live {s : State} (hl : live s) (hc : s.block.status.cause = .none) (hm : memoryWf s.mem)
    (hb : BlockInv s.params s.block) : StateInv s where
  cause_iff := ⟨fun _ => hl, fun _ => hc⟩
  fatal_no_result := fun hf => by rw [live, hf] at hl; cases hl
  mem_wf := hm
  block := fun _ => hb

/-- A state whose block a reset has just written meets the invariant, whatever the parameters. -/
theorem stateInv_of_resetBlock {s : State} (hs : s.block = resetBlock s.params) (hm : memoryWf s.mem) :
    StateInv s := by
  rcases resetBlock_cases s.params with ⟨hp, hr⟩ | ⟨b, c, hc, hr⟩
  · rw [hr] at hs
    exact stateInv_of_live (by rw [live, hs]; rfl) (by rw [hs]; rfl) hm (hs ▸ blockCleared_inv hp)
  · exact stateInv_of_fatal hc (by rw [hs, hr]) hm

/-- Settles O58: the reset state is the default configuration's reset, with no byte of memory listed. -/
theorem resetMeetsTheInvariants : Obligations.ResetMeetsTheInvariants :=
  stateInv_of_resetBlock rfl reset_memoryWf

/-! ## After a command -/

/-- `BlockInv` says nothing of the result, `STATUS`, `FATAL_CMD` and `DESC_OUT`. -/
theorem BlockInv.congr {p : Params} {b b' : Block} (h : BlockInv p b) (hcat : b'.cat = b.cat)
    (hstreams : b'.streams = b.streams) (hlink : ∀ d, linkOf b' d = linkOf b d) : BlockInv p b' where
  config := h.config
  cat := hcat.trans h.cat
  streams_wf := hstreams ▸ h.streams_wf
  streams_le := hstreams ▸ h.streams_le
  streams := hstreams ▸ h.streams
  link := fun d => hlink d ▸ h.link d

theorem BlockInv.with_streams {p : Params} {b : Block} {m : WordMap StreamRecord} (h : BlockInv p b)
    (hm : StreamTableInv p m) : BlockInv p { b with streams := m } where
  config := h.config
  cat := h.cat
  streams_wf := hm.wf
  streams_le := hm.le
  streams := hm.records
  link := fun d => by rw [linkOf_with_streams]; exact h.link d

theorem BlockInv.with_link {p : Params} {b : Block} {d : Dir} {l : Link} (h : BlockInv p b)
    (hl : LinkInv p (policyOf p d) l) : BlockInv p (setLink b d l) where
  config := h.config
  cat := (setLink_cat b d l).trans h.cat
  streams_wf := (setLink_streams b d l).symm ▸ h.streams_wf
  streams_le := (setLink_streams b d l).symm ▸ h.streams_le
  streams := (setLink_streams b d l).symm ▸ h.streams
  link := by
    intro e
    rw [linkOf_setLink_eq]
    split
    · next he => subst he; exact hl
    · exact h.link e

/-- The writes of every command keep the block in order. -/
theorem Writes.blockInv {s : State} {i : Instr} {b : Block} (h : Writes s i b) (hb : BlockInv s.params s.block) :
    BlockInv s.params b := by
  cases h with
  | resultOnly => exact hb
  | compress hc =>
    rw [hb.cat] at hc
    exact hb.with_streams (compressBlock_inv hb.config hb.streamTable hc)
  | linkPush hidx hdst ha => exact hb.with_link (acceptPayload_inv (hb.link _) hdst ha)
  | linkStep hs =>
    have hlink := stepLink_inv (hb.link _) hs
    rw [hb.cat] at hs
    exact (hb.with_link hlink).with_streams (stepLink_streams hb.config hb.streamTable hs)
  | linkPop d idx q =>
    exact (hb.with_link (linkInv_drop_compl (hb.link d) idx.toNat)).congr rfl rfl fun e => linkOf_with_descOut _ _ e

/-- A rule that raises nothing keeps the block in order and the flags but `RES_VALID`. -/
theorem ruleOf_ok_inv {i : Instr} {s : State} {b : Block} (hb : BlockInv s.params s.block) (h : ruleOf i s = .ok b) :
    BlockInv s.params b ∧ b.status.fatal = s.block.status.fatal ∧ b.status.cause = s.block.status.cause := by
  obtain ⟨b', hw, hr⟩ := ruleOf_ok h
  have written := hw.blockInv hb
  rcases hr with rfl | ⟨v, rfl⟩
  · exact ⟨written.congr rfl rfl fun d => linkOf_answerNothing b' d, by simp [hw.status], by simp [hw.status]⟩
  · exact ⟨written.congr rfl rfl fun d => linkOf_answer v b' d, by simp [hw.status], by simp [hw.status]⟩

/-- A command word takes effect in order: refused, completed by a rule that keeps the block in order, or raising a
cause. -/
theorem issue_inv {w : CmdWord} {r : Except Cause Block} {s t : State} (hs : StateInv s)
    (hok : ∀ b, live s → r = .ok b →
      BlockInv s.params b ∧ b.status.fatal = s.block.status.fatal ∧ b.status.cause = s.block.status.cause)
    (herr : ∀ c, r = .error c → c ≠ .none) (h : issue w r s = .next t) : StateInv t := by
  rcases issue_cases h with ⟨-, rfl⟩ | ⟨hl, b, hb, rfl⟩ | ⟨-, c, hc, rfl⟩
  · exact hs
  · obtain ⟨hinv, hfatal, hcause⟩ := hok b hl hb
    exact stateInv_of_live (hfatal.trans hl) (hcause.trans (hs.cause_iff.2 hl)) hs.mem_wf hinv
  · exact stateInv_of_fatal (herr c hc) rfl hs.mem_wf

theorem exec_inv {i : Instr} {s t : State} (hs : StateInv s) (h : exec i s = .next t) : StateInv t := by
  rw [exec_eq_issue] at h
  exact issue_inv hs (fun b hl hb => ruleOf_ok_inv (hs.block hl) hb) (fun c hc => ruleOf_error_ne_none hc) h

theorem runCommand_inv {s t : State} (hs : StateInv s) (h : runCommand s = .next t) : StateInv t := by
  unfold runCommand at h
  split at h
  · exact exec_inv hs h
  · exact issue_inv hs (fun _ _ hb => by cases hb) (fun c hc => by cases hc; decide) h

/-! ## After a step -/

/-- The invariant says nothing of the ports and of the host's coming actions. -/
theorem StateInv.congr {s t : State} (h : StateInv s) (hp : t.params = s.params) (hb : t.block = s.block)
    (hm : t.mem = s.mem) : StateInv t where
  cause_iff := hb ▸ h.cause_iff
  fatal_no_result := hb ▸ h.fatal_no_result
  mem_wf := hm ▸ h.mem_wf
  block := fun hl => by
    rw [live, hb] at hl
    rw [hp, hb]
    exact h.block hl

theorem hostAction_inv {e : HostEvent} {s t : State} (hs : StateInv s) (h : hostAction e s = .next t) :
    StateInv t := by
  cases e with
  | command p => exact runCommand_inv (s := presentPorts p s) (hs.congr rfl rfl rfl) h
  | reset p =>
    cases h
    exact stateInv_of_resetBlock rfl hs.mem_wf
  | memWrite addr byte =>
    cases h
    exact { hs with mem_wf := hostWrite_memoryWf hs.mem_wf }

/-- Settles O59: an idle step changes nothing, and each action of the host keeps the invariant. -/
theorem everyStepKeepsTheInvariants : Obligations.EveryStepKeepsTheInvariants := by
  unfold Obligations.EveryStepKeepsTheInvariants
  intro s t hs h
  unfold step at h
  split at h
  · cases h
    exact hs
  · next e rest _ => exact hostAction_inv (s := { s with inbox := rest }) (hs.congr rfl rfl rfl) h

end Sys2Proof.Machine
end

/-! # Memory is seen through one port: the bytes of a block (R103), and the one read of a `LINK_STEP` (R100, R101) -/

section
namespace Sys2Proof.Machine

/-! ## The bytes of a word (R103) -/

/-- Bytes `8*i` to `8*i + 7` of a block as numbers, byte `8*i` first. -/
def wordBytes (b : List Byte) (i : Nat) : List Nat :=
  (List.range 8).map fun j => (b.getD (8 * i + j) 0).toNat

theorem length_wordBytes (b : List Byte) (i : Nat) : (wordBytes b i).length = 8 := by simp [wordBytes]

theorem wordBytes_lt (b : List Byte) (i : Nat) : ∀ x ∈ wordBytes b i, x < 2 ^ 8 := by
  intro x hx
  obtain ⟨j, -, rfl⟩ := List.mem_map.1 hx
  exact BitVec.isLt _

theorem ofDigits_wordBytes_lt (b : List Byte) (i : Nat) : Nat.ofDigits (2 ^ 8) (wordBytes b i) < 2 ^ 64 := by
  simpa [length_wordBytes] using Nat.ofDigits_lt_base_pow_length (by decide) (wordBytes_lt b i)

/-- The sum of R103 is a number written in base 2^8, lowest digit first. -/
theorem sum_bytes_eq_ofDigits (b : List Byte) (i : Nat) :
    ((List.range 8).map fun j => (b.getD (8 * i + j) 0).toNat * 2 ^ (8 * j)).sum =
      Nat.ofDigits (2 ^ 8) (wordBytes b i) := by
  rw [Nat.ofDigits_eq_sum_mapIdx]
  refine congrArg List.sum (List.ext_getElem (by simp [wordBytes]) fun j _ _ => ?_)
  simp only [wordBytes, List.getElem_map, List.getElem_range, List.getElem_mapIdx, Nat.pow_mul]

/-- A word of a block is that number: its eight digits fit 64 bits. -/
theorem blockWord_toNat (b : List Byte) (i : Nat) :
    (blockWord b i).toNat = Nat.ofDigits (2 ^ 8) (wordBytes b i) := by
  rw [blockWord, sum_bytes_eq_ofDigits, BitVec.toNat_ofNat, Nat.mod_eq_of_lt (ofDigits_wordBytes_lt b i)]

theorem blockWords_getD (b : List Byte) {i : Nat} (h : i < blockWordCount) :
    (blockWords b).getD i 0 = blockWord b i := by
  simp [blockWords, List.getD_eq_getElem?_getD, h]

/-- Settles O6: dividing by 2^(8*j) drops the first `j` digits of the word, and the remainder is the next one. -/
theorem blockWordsAreLittleEndian : Obligations.BlockWordsAreLittleEndian := by
  unfold Obligations.BlockWordsAreLittleEndian
  intro b i j hi hj
  have hdrop : (wordBytes b i).drop j = (b.getD (8 * i + j) 0).toNat :: (wordBytes b i).drop (j + 1) := by
    rw [List.drop_eq_getElem_cons (by rwa [length_wordBytes])]
    simp [wordBytes]
  rw [blockWords_getD b hi, blockWord_toNat, Nat.pow_mul,
    Nat.ofDigits_div_pow_eq_ofDigits_drop j (by decide) _ (wordBytes_lt b i), hdrop, Nat.ofDigits_mod_eq_head!]
  exact Nat.mod_eq_of_lt (BitVec.isLt _)

/-! ## When a step reads, and where (R101, R105, R422) -/

theorem popPhase_ok_iff {p : Params} {k : Nat} {l l' : Link} :
    popPhase p k l = .ok l' ↔ repeats (popOnce p) k l l' := by
  induction k generalizing l with
  | zero => exact ⟨fun h => (Except.ok.inj h).symm, fun h => congrArg Except.ok h.symm⟩
  | succ k ih =>
    unfold popPhase repeats
    split
    · next c hc => simp [hc]
    · next mid hmid => simp [hmid, ih]

theorem pushPhase_ok_iff {p : Params} {pol : Policy} {k : Nat} {l l' : Link} :
    pushPhase p pol k l = .ok l' ↔ repeats (fillSlot p pol) k l l' := by
  induction k generalizing l with
  | zero => exact ⟨fun h => (Except.ok.inj h).symm, fun h => congrArg Except.ok h.symm⟩
  | succ k ih =>
    unfold pushPhase repeats
    split
    · next c hc => simp [hc]
    · next mid hmid => simp [hmid, ih]

/-- The budget of R344 as the statements spell it: whole flits, and the fraction carried on. -/
theorem budget_ok_iff {s : State} {d : Dir} {k : Nat} {acc : BitVec 16} :
    budget s.params (linkOf s.block d).acc s.ports.rate = .ok (k, acc) ↔
      rateAllowed s d ∧ k = stepBudget s d ∧ acc = stepFraction s d := by
  have hrate : rateAllowed s d ↔ ¬ s.params.dqLatency < stepBudget s d := by
    simp only [rateAllowed, stepBudget, rateFracBits]
    omega
  rw [hrate, budget]
  show (if s.params.dqLatency < stepBudget s d then _ else Except.ok (stepBudget s d, stepFraction s d)) = _ ↔ _
  split
  · next h => simp [h]
  · next h => simp [h, eq_comm]

/-- The payload a step compresses is the one pending after its pops and pushes, if it is of 128 bytes. -/
theorem stepCompresses_eq_some_iff {p : Params} {pol : Policy} {rate : BitVec 32} {l : Link} {q : Desc} :
    stepCompresses p pol rate l = some q ↔
      ∃ k acc popped pushed src,
        budget p l.acc rate = .ok (k, acc) ∧ popPhase p k { l with acc := acc } = .ok popped ∧
        pushPhase p pol k popped = .ok pushed ∧ pendingSource p pol pushed = some (src, q) ∧
        q.size.toNat = blockBytes := by
  constructor
  · intro h
    unfold stepCompresses at h
    split at h
    · cases h
    · next k acc hb =>
      split at h
      · cases h
      · next popped hp =>
        split at h
        · cases h
        · next pushed hq =>
          split at h
          · cases h
          · next src d hs =>
            split at h
            · next hsize =>
              obtain rfl := Option.some.inj h
              exact ⟨k, acc, popped, pushed, src, hb, hp, hq, hs, hsize⟩
            · cases h
  · rintro ⟨k, acc, popped, pushed, src, hb, hp, hq, hs, hsize⟩
    simp [stepCompresses, hb, hp, hq, hs, hsize]

/-- A read is made in a live state, for the payload the step compresses. -/
theorem memRequest_eq_some_iff {s : State} {d : Dir} {a : Word} {n : Nat} :
    memRequest d s = some (a, n) ↔
      live s ∧ ∃ q, stepCompresses s.params (policyOf s.params d) s.ports.rate (linkOf s.block d) = some q ∧
        a = q.addr ∧ n = blockBytes := by
  rw [memRequest]
  split
  · next hf => simp [live, hf]
  · next hf => simp [live, hf, stepMemRequest, eq_comm]

/-- The phases of R343 that lead to the payload of a read. -/
theorem memRequest_iff_phases {s : State} {d : Dir} {a : Word} {n : Nat} :
    memRequest d s = some (a, n) ↔
      live s ∧ rateAllowed s d ∧ ∃ popped pushed src q,
        repeats (popOnce s.params) (stepBudget s d) { linkOf s.block d with acc := stepFraction s d } popped ∧
        repeats (fillSlot s.params (policyOf s.params d)) (stepBudget s d) popped pushed ∧
        pendingSource s.params (policyOf s.params d) pushed = some (src, q) ∧ q.size.toNat = blockBytes ∧
        a = q.addr ∧ n = blockBytes := by
  rw [memRequest_eq_some_iff]
  constructor
  · rintro ⟨hl, q, hq, ha, hn⟩
    obtain ⟨k, acc, popped, pushed, src, hb, hp, hf, hs, hsize⟩ := stepCompresses_eq_some_iff.1 hq
    obtain ⟨hrate, rfl, rfl⟩ := budget_ok_iff.1 hb
    exact ⟨hl, hrate, popped, pushed, src, q, popPhase_ok_iff.1 hp, pushPhase_ok_iff.1 hf, hs, hsize, ha, hn⟩
  · rintro ⟨hl, hrate, popped, pushed, src, q, hp, hf, hs, hsize, ha, hn⟩
    exact ⟨hl, q, stepCompresses_eq_some_iff.2 ⟨_, _, popped, pushed, src, budget_ok_iff.2 ⟨hrate, rfl, rfl⟩,
      popPhase_ok_iff.2 hp, pushPhase_ok_iff.2 hf, hs, hsize⟩, ha, hn⟩

/-! ## Memory reaches the block only through that read (R100, R101) -/

theorem getElem?_memRead (mem : Memory) (a : Word) {n j : Nat} (h : j < n) :
    (memRead mem a n)[j]? = some (readByte mem ((a.toNat + j) % 2 ^ 64)) := by
  simp [memRead, h]

theorem memRead_congr {mem mem' : Memory} {a : Word} {n : Nat}
    (h : ∀ j < n, readByte mem ((a.toNat + j) % 2 ^ 64) = readByte mem' ((a.toNat + j) % 2 ^ 64)) :
    memRead mem a n = memRead mem' a n :=
  List.map_congr_left fun j hj => h j (List.mem_range.1 hj)

section StepMemory
variable {p : Params} {pol : Policy} {cat : List CatEntry} {mem mem' : Memory} {m : WordMap StreamRecord} {l : Link}

theorem payloadBits_congr_mem {d : Desc}
    (h : d.size.toNat = blockBytes → memRead mem d.addr blockBytes = memRead mem' d.addr blockBytes) :
    payloadBits p cat mem m d = payloadBits p cat mem' m d := by
  unfold payloadBits
  split
  · next hs => rw [h hs]
  · rfl

theorem compressionPhase_congr_mem
    (h : ∀ src d, pendingSource p pol l = some (src, d) → d.size.toNat = blockBytes →
      memRead mem d.addr blockBytes = memRead mem' d.addr blockBytes) :
    compressionPhase p pol cat mem m l = compressionPhase p pol cat mem' m l := by
  unfold compressionPhase
  split
  · rfl
  · next src d hs => rw [payloadBits_congr_mem (h src d hs)]

/-- Counting a step's flits, done between its push phase and its compression phase, does not change which payload is
pending. -/
theorem pendingSource_with_stats (p : Params) (pol : Policy) (l : Link) (st : LinkStats) :
    pendingSource p pol { l with stats := st } = pendingSource p pol l := rfl

/-- A step sees of memory the bytes of the payload it compresses. -/
theorem stepLink_congr_mem {rate : BitVec 32}
    (h : ∀ q, stepCompresses p pol rate l = some q →
      memRead mem q.addr blockBytes = memRead mem' q.addr blockBytes) :
    stepLink p pol cat mem rate m l = stepLink p pol cat mem' rate m l := by
  unfold stepLink
  split
  · rfl
  · next k acc hb =>
    split
    · rfl
    · next popped hp =>
      split
      · rfl
      · next pushed hq =>
        rw [compressionPhase_congr_mem (mem' := mem') fun src d hs hsize =>
          h d (stepCompresses_eq_some_iff.2
            ⟨k, acc, popped, pushed, src, hb, hp, hq, (pendingSource_with_stats ..).symm.trans hs, hsize⟩)]

end StepMemory

/-- In a live state the rule of a command sees of memory the bytes of the read the command makes. -/
theorem ruleOf_congr_mem {i : Instr} {s : State} {mem : Memory} (hl : live s)
    (h : ∀ d idx a n, i = .linkStep d idx → memRequest d s = some (a, n) → memRead mem a n = memRead s.mem a n) :
    ruleOf i { s with mem := mem } = ruleOf i s := by
  cases i with
  | linkStep d idx =>
    simp only [ruleOf, linkStepRule]
    rw [stepLink_congr_mem fun q hq => h d idx _ _ rfl (memRequest_eq_some_iff.2 ⟨hl, q, hq, rfl, rfl⟩)]
  | _ => rfl

/-- Issuing a rule's outcome neither reads nor writes memory. -/
theorem issue_with_mem {w : CmdWord} {r : Except Cause Block} {s t : State} (mem : Memory) (h : issue w r s = .next t) :
    issue w r { s with mem := mem } = .next { t with mem := mem } := by
  rcases issue_cases h with ⟨hf, rfl⟩ | ⟨hl, b, rfl, rfl⟩ | ⟨hl, c, rfl, rfl⟩
  · exact issue_fatal hf
  · exact issue_ok hl
  · exact issue_error hl

/-- A command does the same in two states that differ in memory alone and agree on the read it makes. -/
theorem exec_with_mem {i : Instr} {s : State} {mem : Memory}
    (h : ∀ d idx a n, i = .linkStep d idx → memRequest d s = some (a, n) → memRead mem a n = memRead s.mem a n) :
    ∃ t, exec i s = .next t ∧ exec i { s with mem := mem } = .next { t with mem := mem } := by
  cases hf : s.block.status.fatal with
  | true => exact ⟨s, exec_fatal hf, exec_fatal hf⟩
  | false =>
    obtain ⟨b, hb⟩ := exec_next i s
    refine ⟨_, hb, ?_⟩
    rw [exec_eq_issue] at hb ⊢
    rw [ruleOf_congr_mem hf h]
    exact issue_with_mem mem hb

/-- Settles O53: the phases that lead to a read, the bytes a read answers, and the step that sees no others. -/
theorem memoryIsSeenOnlyByItsRead : Obligations.MemoryIsSeenOnlyByItsRead := by
  unfold Obligations.MemoryIsSeenOnlyByItsRead
  refine ⟨fun s d a n => memRequest_iff_phases,
    fun mem a n => ⟨length_memRead mem a n, fun j hj => getElem?_memRead mem a hj⟩,
    fun i s mem h => exec_with_mem fun d idx a n hi hreq => ?_⟩
  obtain ⟨-, q, -, -, rfl⟩ := memRequest_eq_some_iff.1 hreq
  exact memRead_congr (h d idx a _ hi hreq)

end Sys2Proof.Machine
end

/-! # The encoding: command words (R130 to R134, R144), descriptors (R137, R138) and the results that have a layout
(R140, R142, R143) -/

section
namespace Sys2Proof

/-! ## The fields of a word determine it, and the decoder reads its fields (R130, R134) -/

theorem word_eq_of_fields {w v : CmdWord} (hopc : opcField w = opcField v) (hdir : dirField w = dirField v)
    (hrsv : rsvField w = rsvField v) (hidx : idxField w = idxField v) : w = v := by
  refine BitVec.eq_of_toNat_eq ?_
  rw [toNat_eq_fields w, toNat_eq_fields v, hopc, hdir, hrsv, hidx]

theorem bitOfDir_dirOfBit (b : Bool) : bitOfDir (dirOfBit b) = b := by cases b <;> rfl

/-- The opcode map's commands without a direction have the opcode they are mapped from, and `DIR` 0. -/
theorem fields_of_formOf_noDir {n : Nat} {mk : BitVec 16 → Instr} (h : formOf n = some (.noDir mk))
    (idx : BitVec 16) :
    (opcodeOf (mk idx)).toNat = n ∧ dirBitOf (mk idx) = false ∧ idxOf (mk idx) = idx := by
  unfold formOf at h
  split at h <;> cases h <;> exact ⟨rfl, rfl, rfl⟩

/-- The opcode map's link commands have the opcode they are mapped from, and the direction they are given. -/
theorem fields_of_formOf_withDir {n : Nat} {mk : Dir → BitVec 16 → Instr} (h : formOf n = some (.withDir mk))
    (d : Dir) (idx : BitVec 16) :
    (opcodeOf (mk d idx)).toNat = n ∧ dirBitOf (mk d idx) = bitOfDir d ∧ idxOf (mk d idx) = idx := by
  unfold formOf at h
  split at h <;> cases h <;> exact ⟨rfl, rfl, rfl⟩

theorem decode_encode (i : Instr) : decode (encode i) = .ok i := by
  simp only [decode, opcField_encode, rsvField_encode, dirField_encode, idxField_encode]
  cases i with
  | nop idx | pred idx | matchPat idx | compress idx | profRead idx | profGlobal idx | catRead idx | winRead idx => rfl
  | linkPush d idx | linkStep d idx | linkPop d idx | linkStat d idx | linkSrcstat d idx => cases d <;> rfl

/-- The four fields of a legal word are those of the command it stands for. -/
theorem fields_of_decode {w : CmdWord} {i : Instr} (h : decode w = .ok i) :
    opcField w = opcodeOf i ∧ dirField w = dirBitOf i ∧ rsvField w = 0 ∧ idxField w = idxOf i := by
  unfold decode at h
  split at h
  · cases h
  next form hform =>
  split at h
  · cases h
  next hrsv =>
  rw [not_not] at hrsv
  split at h
  case h_1 mk =>
    split at h
    · cases h
    next hdir =>
    cases h
    obtain ⟨hopc, hbit, hidx⟩ := fields_of_formOf_noDir hform (idxField w)
    exact ⟨BitVec.eq_of_toNat_eq hopc.symm, by rw [hbit]; exact Bool.eq_false_of_not_eq_true hdir, hrsv, hidx.symm⟩
  case h_2 mk =>
    cases h
    obtain ⟨hopc, hbit, hidx⟩ := fields_of_formOf_withDir hform (dirOfBit (dirField w)) (idxField w)
    exact ⟨BitVec.eq_of_toNat_eq hopc.symm, by rw [hbit, bitOfDir_dirOfBit], hrsv, hidx.symm⟩

theorem encode_of_decode {w : CmdWord} {i : Instr} (h : decode w = .ok i) : encode i = w := by
  obtain ⟨hopc, hdir, hrsv, hidx⟩ := fields_of_decode h
  exact word_eq_of_fields (by rw [opcField_encode, hopc]) (by rw [dirField_encode, hdir])
    (by rw [rsvField_encode, hrsv]) (by rw [idxField_encode, hidx])

/-- Settles O1: the decoder inverts `encode` command by command, and a legal word has the four fields of its
command's word. -/
theorem decodeAndEncodeAgree : Obligations.DecodeAndEncodeAgree :=
  ⟨decode_encode, fun _ _ => encode_of_decode⟩

/-- Settles O3, by running the decoder on the nine words. -/
theorem sampleWordsDecode : Obligations.SampleWordsDecode := by
  unfold Obligations.SampleWordsDecode
  decide

/-! ## The illegal words (R144) -/

theorem formOf_eq_none_iff (n : Nat) :
    formOf n = none ↔
      n ∉ [0x00, 0x01, 0x02, 0x03, 0x05, 0x06, 0x07, 0x08, 0x10, 0x11, 0x12, 0x13, 0x14] := by
  unfold formOf
  split <;> simp_all

theorem exists_formOf_withDir_iff (n : Nat) :
    (∃ mk, formOf n = some (.withDir mk)) ↔ n ∈ [0x10, 0x11, 0x12, 0x13, 0x14] := by
  unfold formOf
  split <;> simp_all

/-- A word is illegal by its opcode, by `RSV`, or by `DIR` on an opcode that has no direction. -/
theorem decode_error_iff (w : CmdWord) :
    (∃ e, decode w = .error e) ↔
      formOf (opcField w).toNat = none ∨ rsvField w ≠ 0 ∨
        (dirField w = true ∧ ¬ ∃ mk, formOf (opcField w).toNat = some (.withDir mk)) := by
  unfold decode
  cases formOf (opcField w).toNat with
  | none => simp
  | some form =>
    by_cases hrsv : rsvField w = 0#7
    · cases form with
      | noDir mk => cases hdir : dirField w <;> simp [hrsv]
      | withDir mk => simp [hrsv]
    · simp [hrsv]

theorem opcField_toNat (w : CmdWord) : (opcField w).toNat = w.toNat / 2 ^ 24 := by
  rw [opcField, toNat_extractLsb'_eq]
  have := w.isLt
  omega

theorem rsvField_eq_zero_iff (w : CmdWord) : rsvField w = 0 ↔ w.toNat / 2 ^ 16 % 2 ^ 7 = 0 := by
  rw [← BitVec.toNat_inj, rsvField, toNat_extractLsb'_eq]
  rfl

theorem dirField_eq_true_iff (w : CmdWord) : dirField w = true ↔ w.toNat / 2 ^ 23 % 2 = 1 := by
  rw [dirField, getLsbD_eq_decide, decide_eq_true_eq]

end Sys2Proof

namespace Sys2Proof.Machine

/-! ## A command that answers, and a command whose index is out of range (R135, R144) -/

/-- A command's word by its fields as numbers (R130). -/
theorem encode_eq_commandWord (i : Instr) :
    encode i = commandWord (opcodeOf i).toNat (dirBitOf i).toNat (idxOf i) := by
  rw [commandWord, ← encode_toNat, BitVec.ofNat_toNat, BitVec.setWidth_eq]

theorem dirNumber_eq_bitOfDir (d : Dir) : dirNumber d = (bitOfDir d).toNat := by cases d <;> rfl

/-- A live command whose rule answers `v` on the block as it is writes its result alone. -/
theorem exec_returning {i : Instr} {s : State} {v : Word} (hl : live s) (hr : ruleOf i s = .ok (answer v s.block)) :
    exec i s = .next (returning v s) := exec_of_rule_ok hl hr

/-- The table of R142 is read in its order. -/
theorem linkStatValue_eq_getElem? (l : Link) (sel : Nat) :
    linkStatValue l sel =
      [l.stats.flitsTotal, l.stats.flitsReal, l.stats.flitsFiller, l.stats.pktsSingle, l.stats.pktsMulti, l.now,
        l.left, l.rr, l.off, l.acc.toNat, l.crr, l.nfl, l.tsq.n][sel]? := by
  match sel with
  | 0 | 1 | 2 | 3 | 4 | 5 | 6 | 7 | 8 | 9 | 10 | 11 | 12 => rfl
  | _ + 13 => rfl

/-- The index check is the first that a rule makes. -/
theorem ruleOf_of_not_wellFormed {i : Instr} {s : State} (h : wellFormed s.params i = false) :
    ruleOf i s = .error (indexCause i) := by
  cases i with
  | nop idx => cases h
  | linkStep d idx => cases h
  | pred idx =>
    have hidx : nPred s.params ≤ idx.toNat := by simpa [wellFormed] using h
    simp [ruleOf, predRule, List.getElem?_eq_none hidx, indexCause]
  | linkStat d idx =>
    have hidx : 13 ≤ idx.toNat := by simpa [wellFormed] using h
    simp [ruleOf, linkStatRule, linkStatValue_eq_getElem?, hidx, indexCause]
  | compress idx =>
    have hidx : idx.toNat ≠ blockBytes := by simpa [wellFormed] using h
    simp [ruleOf, compressRule, hidx, indexCause]
  | profRead idx | profGlobal idx =>
    have hidx : selectorValid s.params idx = false := h
    simp [ruleOf, profReadRule, profGlobalRule, hidx, indexCause]
  | matchPat idx | catRead idx =>
    have hidx : nPat s.params ≤ idx.toNat := by simpa [wellFormed] using h
    simp [ruleOf, matchRule, catReadRule, hidx, indexCause]
  | winRead idx =>
    have hidx : s.params.histDepth ≤ idx.toNat := by simpa [wellFormed] using h
    simp [ruleOf, winReadRule, hidx, indexCause]
  | linkPop d idx =>
    have hidx : s.params.nDst ≤ idx.toNat := by simpa [wellFormed] using h
    simp [ruleOf, linkPopRule, hidx, indexCause]
  | linkPush d idx | linkSrcstat d idx =>
    have hidx : s.params.nSrc ≤ idx.toNat := by simpa [wellFormed] using h
    simp [ruleOf, linkPushRule, linkSrcstatRule, hidx, indexCause]

/-- A live command whose index is out of range raises its cause of R144. -/
theorem exec_of_not_wellFormed {i : Instr} {s : State} (hl : live s) (h : wellFormed s.params i = false) :
    exec i s = .next (raised (indexCause i) (encode i) s) :=
  exec_of_rule_error hl (ruleOf_of_not_wellFormed h)

theorem runCommand_of_illegal {s : State} {e : Illegal} (hl : live s) (h : decode s.ports.cmd = .error e) :
    runCommand s = .next (raised .illegalCommand s.ports.cmd s) := by
  rw [runCommand, h]
  exact issue_error hl

theorem runCommand_of_decode {s : State} {i : Instr} (h : decode s.ports.cmd = .ok i) : runCommand s = exec i s := by
  rw [runCommand, h]

/-- Settles O2: the illegal words by the decoder's three checks, each check a field of the word as a number; the
errors by the rule each word is issued with. -/
theorem illegalWordsAndBadIndexes : Obligations.IllegalWordsAndBadIndexes := by
  unfold Obligations.IllegalWordsAndBadIndexes
  intro s hl
  refine ⟨?_, fun e => runCommand_of_illegal hl, fun i hi hw => ?_⟩
  · rw [decode_error_iff, formOf_eq_none_iff, exists_formOf_withDir_iff, Ne, rsvField_eq_zero_iff,
      dirField_eq_true_iff, opcField_toNat]
  · rw [runCommand_of_decode hi, exec_of_not_wellFormed hl hw, encode_of_decode hi]

/-! ## Descriptors (R137, R138) -/

theorem typeOfCode_typeCode (t : PayloadType) : typeOfCode (typeCode t) = t := by cases t <;> rfl

theorem typeCode_typeOfCode : ∀ c : BitVec 2, typeCode (typeOfCode c) = c := by decide

theorem typeOfCode_eq_iff {c : BitVec 2} {t : PayloadType} : typeOfCode c = t ↔ c.toNat = (typeCode t).toNat := by
  rw [BitVec.toNat_inj]
  constructor
  · rintro rfl
    exact (typeCode_typeOfCode c).symm
  · rintro rfl
    exact typeOfCode_typeCode t

/-- A descriptor on `DESC_OUT` as a number: each field weighted by the position of its lowest bit. -/
theorem encodeDesc_toNat (p : Desc) :
    (encodeDesc p).toNat =
      p.addr.toNat + p.sid.toNat * 2 ^ 64 + p.tag.toNat * 2 ^ 128 + p.size.toNat * 2 ^ 160 + p.dst.toNat * 2 ^ 176 +
        (typeCode p.type).toNat * 2 ^ 192 := by
  simp only [encodeDesc, toNat_append_eq_add, BitVec.toNat_ofNat]
  omega

/-- The fields of `DESC_IN` as numbers (R137). -/
theorem decodeDesc_toNat (v : BitVec 256) :
    (decodeDesc v).addr.toNat = v.toNat % 2 ^ 64 ∧ (decodeDesc v).sid.toNat = v.toNat / 2 ^ 64 % 2 ^ 64 ∧
      (decodeDesc v).tag.toNat = v.toNat / 2 ^ 128 % 2 ^ 32 ∧ (decodeDesc v).size.toNat = v.toNat / 2 ^ 160 % 2 ^ 16 ∧
      (decodeDesc v).dst.toNat = v.toNat / 2 ^ 176 % 2 ^ 16 := by
  simp only [decodeDesc, toNat_extractLsb'_eq, pow_zero, Nat.div_one, and_self]

theorem decodeDesc_type_eq_iff {v : BitVec 256} {t : PayloadType} :
    (decodeDesc v).type = t ↔ v.toNat / 2 ^ 192 % 4 = (typeCode t).toNat := by
  simp only [decodeDesc, typeOfCode_eq_iff, toNat_extractLsb'_eq, Nat.reducePow]

theorem encodeDesc_decodeDesc_toNat (v : BitVec 256) : (encodeDesc (decodeDesc v)).toNat = v.toNat % 2 ^ 194 := by
  rw [encodeDesc_toNat]
  simp only [decodeDesc, typeCode_typeOfCode, toNat_extractLsb'_eq]
  omega

theorem desc_eq_of_fields {p q : Desc} (htag : p.tag = q.tag) (htype : p.type = q.type) (hsize : p.size = q.size)
    (haddr : p.addr = q.addr) (hdst : p.dst = q.dst) (hsid : p.sid = q.sid) : p = q := by
  cases p
  rw [Desc.mk.injEq]
  exact ⟨htag, htype, hsize, haddr, hdst, hsid⟩

theorem decodeDesc_encodeDesc (p : Desc) : decodeDesc (encodeDesc p) = p := by
  obtain ⟨haddr, hsid, htag, hsize, hdst⟩ := decodeDesc_toNat (encodeDesc p)
  have htype := decodeDesc_type_eq_iff (v := encodeDesc p) (t := p.type)
  rw [encodeDesc_toNat] at haddr hsid htag hsize hdst htype
  have := p.addr.isLt; have := p.sid.isLt; have := p.tag.isLt
  have := p.size.isLt; have := p.dst.isLt; have := (typeCode p.type).isLt
  exact desc_eq_of_fields (BitVec.eq_of_toNat_eq (by omega)) (htype.mpr (by omega)) (BitVec.eq_of_toNat_eq (by omega))
    (BitVec.eq_of_toNat_eq (by omega)) (BitVec.eq_of_toNat_eq (by omega)) (BitVec.eq_of_toNat_eq (by omega))

/-- Settles O4: both directions by the fields' positions as weights. -/
theorem descriptorLayoutRoundTrip : Obligations.DescriptorLayoutRoundTrip := by
  unfold Obligations.DescriptorLayoutRoundTrip
  refine ⟨fun v => ?_, decodeDesc_encodeDesc⟩
  obtain ⟨haddr, hsid, htag, hsize, hdst⟩ := decodeDesc_toNat v
  exact ⟨haddr, hsid, htag, hsize, hdst, decodeDesc_type_eq_iff, decodeDesc_type_eq_iff, decodeDesc_type_eq_iff,
    decodeDesc_type_eq_iff, encodeDesc_decodeDesc_toNat v⟩

/-! ## Results that have a layout (R140, R142, R143) -/

theorem catEntryWord_eq_ofNat (e : CatEntry) :
    catEntryWord e =
      BitVec.ofNat 64 (e.enc.toNat + e.id.toNat * 2 ^ 16 + e.level.toNat * 2 ^ 24 + e.pred.toNat * 2 ^ 32) := by
  refine BitVec.eq_of_toNat_eq ?_
  simp only [catEntryWord, BitVec.toNat_setWidth, toNat_append_eq_add, BitVec.toNat_ofNat]
  omega

/-- Settles O23: in range the rule answers the entry's word; out of range it fails the index check. -/
theorem catReadAnswersTheEntry : Obligations.CatReadAnswersTheEntry := by
  unfold Obligations.CatReadAnswersTheEntry
  intro s idx hl
  refine ⟨encode_eq_commandWord _, fun e hidx he => ?_, fun hidx => ?_⟩
  · refine exec_returning hl ?_
    simp [ruleOf, catReadRule, hidx, he, catEntryWord_eq_ofNat]
  · exact exec_of_not_wellFormed hl (by simpa [wellFormed] using hidx)

/-- Settles O50: the selected value is the table's, read in its order. -/
theorem linkStatAnswersTheSelector : Obligations.LinkStatAnswersTheSelector := by
  unfold Obligations.LinkStatAnswersTheSelector
  intro s d idx hl
  refine ⟨?_, fun v hv => ?_, fun hidx => ?_⟩
  · rw [dirNumber_eq_bitOfDir]
    exact encode_eq_commandWord _
  · rw [← linkStatValue_eq_getElem?] at hv
    exact exec_returning hl (by simp only [ruleOf, linkStatRule, hv])
  · exact exec_of_not_wellFormed hl (by simpa [wellFormed] using hidx)

theorem occupancyWord_plain {r : ReadyLists} (h : r.plain.length ≤ 255) :
    occupancyWord .plain r = BitVec.ofNat 64 r.plain.length := by
  refine BitVec.eq_of_toNat_eq ?_
  simp only [occupancyWord, toNat_append_eq_add, BitVec.toNat_ofNat]
  omega

theorem occupancyWord_compressed {pol : Policy} {r : ReadyLists} (hpol : pol ≠ .plain) (h : r.short.length ≤ 4) :
    occupancyWord pol r = BitVec.ofNat 64 (r.short.length + 2 ^ 8 * (longSlotCode r.long).toNat) := by
  have layout : occupancyWord pol r = 0#54 ++ longSlotCode r.long ++ BitVec.ofNat 8 r.short.length := by
    cases pol with
    | plain => exact absurd rfl hpol
    | packed | unpacked => rfl
  rw [layout]
  refine BitVec.eq_of_toNat_eq ?_
  have := (longSlotCode r.long).isLt
  simp only [toNat_append_eq_add, BitVec.toNat_ofNat]
  omega

theorem linkSrcstatRule_of_lt {d : Dir} {idx : BitVec 16} {s : State} (h : idx.toNat < s.params.nSrc) :
    linkSrcstatRule d idx s =
      .ok (answer (occupancyWord (policyOf s.params d) (readyOf (linkOf s.block d) idx.toNat)) s.block) := by
  rw [linkSrcstatRule, if_neg (Nat.not_le.mpr h)]

/-- Settles O51: in range the rule answers the occupancy word, which has the layout of R143 under each policy. -/
theorem linkSrcstatAnswersTheOccupancy : Obligations.LinkSrcstatAnswersTheOccupancy := by
  unfold Obligations.LinkSrcstatAnswersTheOccupancy
  intro s d idx hl
  refine ⟨?_, fun hidx hpol hlen => ?_, fun hidx hpol hlen => ?_, fun hidx => ?_⟩
  · rw [dirNumber_eq_bitOfDir]
    exact encode_eq_commandWord _
  · refine exec_returning hl ((linkSrcstatRule_of_lt hidx).trans ?_)
    rw [hpol, occupancyWord_plain hlen]
  · refine exec_returning hl ((linkSrcstatRule_of_lt hidx).trans ?_)
    rw [occupancyWord_compressed hpol hlen]
    cases (readyOf (linkOf s.block d) idx.toNat).long <;> rfl
  · exact exec_of_not_wellFormed hl (by simpa [wellFormed] using hidx)

/-! ## Command lines (R147) -/

/-- Settles O7: the two lines stand for the same command and drive the same rate; every other port is theirs in
common. -/
theorem linkTickIsOneFlitStep : Obligations.LinkTickIsOneFlitStep := by
  unfold Obligations.LinkTickIsOneFlitStep
  intro c old hc
  have command : lineCommand c = lineCommand { c with mnemonic := .linkStep, rate := some 0x00010000 } := by
    simp only [lineCommand, hc]
  have rate : lineRate c = lineRate { c with mnemonic := .linkStep, rate := some 0x00010000 } := by
    simp only [lineRate, hc]
  rw [assemble, assemble, command, rate]

end Sys2Proof.Machine
end

/-! # The classifier: word predicates (R200 to R204), combinations (R209, R210), the catalog (R206, R207), its use by
`classify` (R213), and the commands `PRED` and `MATCH` (R214, R215) -/

section
namespace Sys2Proof.Machine

/-! ## Word predicates (R200 to R204) -/

theorem predHolds_zero_iff (w : Word) : predHolds .zero w = true ↔ w.toNat = 0 := by
  rw [predHolds, decide_eq_true_eq, ← BitVec.toNat_inj]
  rfl

theorem predHolds_ones_iff (w : Word) : predHolds .ones w = true ↔ w.toNat = 0xFFFFFFFFFFFFFFFF := by
  rw [predHolds, decide_eq_true_eq, ← BitVec.toNat_inj]
  rfl

/-- `REPBYTE` by the bytes of the word as numbers (R202). -/
theorem predHolds_repByte_iff (w : Word) :
    predHolds .repByte w = true ↔ ∀ j, 1 ≤ j → j ≤ 7 → w.toNat / 2 ^ (8 * j) % 2 ^ 8 = w.toNat % 2 ^ 8 := by
  have indexes (j : Nat) : j ∈ [1, 2, 3, 4, 5, 6, 7] ↔ 1 ≤ j ∧ j ≤ 7 := by
    simp only [List.mem_cons, List.not_mem_nil, or_false]
    omega
  simp only [predHolds, List.all_eq_true, indexes, decide_eq_true_eq, ← BitVec.toNat_inj, toNat_extractLsb'_eq,
    pow_zero, Nat.div_one, and_imp]

theorem predHolds_oneHot_iff (w : Word) : predHolds .oneHot w = true ↔ w ≠ 0 ∧ w &&& (w - 1) = 0 := by
  rw [predHolds, Bool.and_eq_true, decide_eq_true_eq, decide_eq_true_eq]

theorem toNat_sub_one {w : Word} (h : w ≠ 0) : (w - 1).toNat = w.toNat - 1 := by
  have := BitVec.toNat_ne_iff_ne.mpr h
  bv_omega

/-- The two readings of R203: clearing the lowest bit that is set leaves nothing exactly when one bit is set. -/
theorem predHolds_oneHot_iff_pow (w : Word) : predHolds .oneHot w = true ↔ ∃ i < 64, w.toNat = 2 ^ i := by
  have bit_lt {i : Nat} (hi : w.toNat = 2 ^ i) : i < 64 :=
    (Nat.pow_lt_pow_iff_right (by decide)).mp (hi ▸ w.isLt)
  calc predHolds .oneHot w = true
    _ ↔ w ≠ 0 ∧ w &&& (w - 1) = 0 := predHolds_oneHot_iff w
    _ ↔ w.toNat ≠ 0 ∧ w.toNat &&& (w.toNat - 1) = 0 := by
        rw [← BitVec.toNat_ne_iff_ne, ← BitVec.toNat_inj, BitVec.toNat_and]
        refine and_congr_right fun h => ?_
        rw [toNat_sub_one (BitVec.toNat_ne_iff_ne.mp h)]
        rfl
    _ ↔ w.toNat.isPowerOfTwo := Nat.ne_zero_and_sub_one_eq_zero_iff_isPowerOfTwo
    _ ↔ ∃ i < 64, w.toNat = 2 ^ i := exists_congr fun i => ⟨fun hi => ⟨bit_lt hi, hi⟩, And.right⟩

/-- Settles O16, one predicate at a time; `0` and `M64` by the bytes of each. -/
theorem wordPredicatesMeanTheirProperties : Obligations.WordPredicatesMeanTheirProperties := by
  unfold Obligations.WordPredicatesMeanTheirProperties
  exact ⟨predHolds_zero_iff, predHolds_ones_iff, predHolds_repByte_iff, by decide, by decide, predHolds_oneHot_iff,
    predHolds_oneHot_iff_pow⟩

/-- `SE_k` by the two's complement reading: the word is one of the `2^k` signed numbers of `k` bits (R204). -/
theorem predHolds_signExt_iff {k : Nat} (w : Word) (hk : 1 ≤ k) (hk64 : k ≤ 64) :
    predHolds (.signExt k) w = true ↔ w.toNat < 2 ^ (k - 1) ∨ 2 ^ 64 - 2 ^ (k - 1) ≤ w.toNat := by
  have hpow : 2 ^ k = 2 * 2 ^ (k - 1) := by rw [← pow_succ', Nat.sub_add_cancel hk]
  have hpos : 0 < 2 ^ (k - 1) := Nat.two_pow_pos _
  have hle : 2 ^ k ≤ 2 ^ 64 := Nat.pow_le_pow_right (by decide) hk64
  have hdvd : ((2 ^ k : Nat) : Int) ∣ w.toInt - w.toNat := by
    have h64 : ((2 ^ k : Nat) : Int) ∣ (2 ^ 64 : Nat) := Int.natCast_dvd_natCast.mpr (Nat.pow_dvd_pow 2 hk64)
    rw [BitVec.toInt_eq_toNat_cond]
    split
    · simp
    · rwa [sub_sub_cancel_left, dvd_neg]
  have hsigned : predHolds (.signExt k) w = true ↔ (w.toNat : Int).bmod (2 ^ k) = w.toInt := by
    rw [predHolds, decide_eq_true_eq, ← BitVec.toInt_inj, BitVec.toInt_signExtend, BitVec.toInt_setWidth,
      Nat.min_eq_right hk64, Int.bmod_bmod, eq_comm]
  rw [hsigned, Int.bmod_eq_iff (Nat.two_pow_pos k), hpow]
  rw [hpow] at hle hdvd
  simp only [hdvd, and_true]
  rw [BitVec.toInt_eq_toNat_cond]
  have := w.isLt
  generalize 2 ^ (k - 1) = m at *
  split <;> omega

/-- Settles O17: bits 63 down to `k-1` are a quotient by `2^(k-1)`, which the two ranges of `SE_k` make 0 and the
largest. -/
theorem signExtIsEqualUpperBits : Obligations.SignExtIsEqualUpperBits := by
  unfold Obligations.SignExtIsEqualUpperBits
  intro k w hk hk63
  have hsplit : 2 ^ (65 - k) * 2 ^ (k - 1) = 2 ^ 64 := by rw [← pow_add]; congr 1; omega
  have htop : (2 ^ (65 - k) - 1) * 2 ^ (k - 1) = 2 ^ 64 - 2 ^ (k - 1) := by rw [Nat.sub_mul, hsplit, one_mul]
  have hlt : w.toNat / 2 ^ (k - 1) < 2 ^ (65 - k) := Nat.div_lt_of_lt_mul (by rw [mul_comm, hsplit]; exact w.isLt)
  have hlow : w.toNat / 2 ^ (k - 1) = 0 ↔ w.toNat < 2 ^ (k - 1) := Nat.div_eq_zero_iff_lt (Nat.two_pow_pos _)
  have hhigh : 2 ^ (65 - k) - 1 ≤ w.toNat / 2 ^ (k - 1) ↔ 2 ^ 64 - 2 ^ (k - 1) ≤ w.toNat := by
    rw [Nat.le_div_iff_mul_le (Nat.two_pow_pos _), htop]
  rw [predHolds_signExt_iff w (by omega) (by omega), hlow, ← hhigh]
  refine or_congr_right ⟨fun h => ?_, fun h => h.ge⟩
  omega

/-! ## Combinations and matching (R209, R210) -/

/-- The combinations of level `L` are the sublists of `L` words. -/
theorem mem_combinations {L : Nat} {win c : List Word} : c ∈ combinations L win ↔ c.Sublist win ∧ c.length = L := by
  induction win generalizing L c with
  | nil => cases L <;> simp +contextual [combinations]
  | cons h rest ih =>
    cases L with
    | zero => simp +contextual [combinations]
    | succ n =>
      rw [combinations, List.mem_append, List.mem_map, ih, List.sublist_cons_iff]
      constructor
      · rintro (⟨d, hd, rfl⟩ | ⟨hc, hlen⟩)
        · obtain ⟨hsub, rfl⟩ := ih.mp hd
          exact ⟨.inr ⟨d, rfl, hsub⟩, rfl⟩
        · exact ⟨.inl hc, hlen⟩
      · rintro ⟨hc | ⟨d, rfl, hd⟩, hlen⟩
        · exact .inr ⟨hc, hlen⟩
        · exact .inl ⟨d, ih.mpr ⟨hd, Nat.succ.inj hlen⟩, rfl⟩

/-- The positions of a set, in ascending order. -/
def positionsOf {n : Nat} (S : Finset (Fin n)) : List (Fin n) := (List.finRange n).filter (fun i => i ∈ S)

theorem length_positionsOf {n : Nat} (S : Finset (Fin n)) : (positionsOf S).length = S.card := by
  have hnodup : (positionsOf S).Nodup := (List.nodup_finRange n).filter _
  rw [← List.toFinset_card_of_nodup hnodup]
  congr 1
  ext i
  simp [positionsOf]

theorem deltaUnder_eq_deltaWord (win : List Word) (S : Finset (Fin win.length)) (w : Word) :
    deltaUnder win S w = deltaWord w ((positionsOf S).map win.get) := by
  rw [deltaWord, List.foldl_map]
  rfl

/-- A sublist of a window is what stands at some set of its positions. -/
theorem sublist_iff_positions {win c : List Word} :
    c.Sublist win ↔ ∃ S : Finset (Fin win.length), c = (positionsOf S).map win.get := by
  constructor
  · intro h
    rw [← List.map_get_finRange win, List.sublist_map_iff] at h
    obtain ⟨is, his, rfl⟩ := h
    refine ⟨is.toFinset, congrArg _ ?_⟩
    have hlt := (List.sortedLT_finRange win.length).pairwise
    refine (hlt.sublist his).sortedLT.eq_of_mem_iff (hlt.filter _).sortedLT fun i => ?_
    simp [positionsOf]
  · rintro ⟨S, rfl⟩
    conv_rhs => rw [← List.map_get_finRange win]
    exact List.filter_sublist.map _

theorem levelMatches_iff {q : Predicate} {L : Nat} {win : List Word} {w : Word} (hL : L ≠ 0) :
    levelMatches q L win w = true ↔
      ∃ S : Finset (Fin win.length), S.card = L ∧ predHolds q (deltaUnder win S w) = true := by
  rw [levelMatches, if_neg hL, List.any_eq_true]
  constructor
  · rintro ⟨c, hc, hq⟩
    obtain ⟨hsub, rfl⟩ := mem_combinations.mp hc
    obtain ⟨S, rfl⟩ := sublist_iff_positions.mp hsub
    exact ⟨S, by rw [List.length_map, length_positionsOf], deltaUnder_eq_deltaWord win S w ▸ hq⟩
  · rintro ⟨S, rfl, hq⟩
    refine ⟨(positionsOf S).map win.get, mem_combinations.mpr ⟨sublist_iff_positions.mpr ⟨S, rfl⟩, ?_⟩,
      deltaUnder_eq_deltaWord win S w ▸ hq⟩
    rw [List.length_map, length_positionsOf]

theorem patternMatches_eq_levelMatches {p : Params} {e : CatEntry} {pe : PredEntry} (win : List Word) (w : Word)
    (h : p.predList[e.pred.toNat]? = some pe) :
    patternMatches p e win w = levelMatches pe.pred e.level.toNat win w := by
  rw [patternMatches, h]

/-- Settles O18: a combination of the model is what stands at a set of positions, and a set of `L` positions gives one
of the combinations of level `L`. -/
theorem matchIsSomeCombination : Obligations.MatchIsSomeCombination := by
  unfold Obligations.MatchIsSomeCombination
  refine ⟨fun q L win w => ⟨fun hL => ?_, levelMatches_iff⟩, fun p e pe win w => patternMatches_eq_levelMatches win w⟩
  rw [levelMatches, if_pos hL]

/-! ## The patterns (R206) -/

/-- `ceil_log2(n)` is the least `r` with `2^r >= n` (R11). -/
theorem ceilLog2_le_iff {n r : Nat} : ceilLog2 n ≤ r ↔ n ≤ 2 ^ r := by
  have := Nat.two_pow_pos r
  rw [ceilLog2]
  split
  · omega
  · rw [Nat.add_one_le_iff, Nat.log2_lt (by omega)]
    omega

/-- The catalog holds the patterns and nothing else: each predicate of `PRED_LIST` at each level 0 to 3. -/
theorem mem_buildCatalog {p : Params} {e : CatEntry} :
    e ∈ buildCatalog p ↔ ∃ q pe L, p.predList[q]? = some pe ∧ L ≤ 3 ∧ e = patternOf p q pe L := by
  rw [buildCatalog, List.mem_insertionSort, patterns, List.mem_flatMap]
  constructor
  · rintro ⟨⟨pe, q⟩, hq, he⟩
    obtain ⟨L, hL, rfl⟩ := List.mem_map.mp he
    exact ⟨q, pe, L, List.mem_zipIdx_iff_getElem?.mp hq, Nat.le_of_lt_succ (List.mem_range.mp hL), rfl⟩
  · rintro ⟨q, pe, L, hq, hL, rfl⟩
    exact ⟨(pe, q), List.mem_zipIdx_iff_getElem?.mpr hq,
      List.mem_map_of_mem (List.mem_range.mpr (Nat.lt_succ_of_le hL))⟩

theorem length_buildCatalog (p : Params) : (buildCatalog p).length = 4 * p.predList.length := by
  simp [buildCatalog, List.length_insertionSort, patterns, List.length_flatMap, maxLevel, mul_comm]

/-- The bounds of R471 on `PRED_LIST`: the numbers of a pattern fit its fields. -/
theorem validConfig_predList {p : Params} (h : validConfig p = true) :
    p.predList.length ≤ 64 ∧ ∀ pe ∈ p.predList, pe.dataSize + 3 * historyBits p ≤ 65535 := by
  simp only [validConfig, predEntryValid, Bool.and_eq_true, decide_eq_true_eq, List.all_eq_true, and_assoc] at h
  obtain ⟨-, -, -, -, hlen, hentries, -⟩ := h
  refine ⟨hlen, fun pe hpe => ?_⟩
  obtain ⟨-, hsize, -⟩ := hentries pe hpe
  exact hsize

/-- No field of a pattern overflows under a valid configuration (R206, R471). -/
theorem patternOf_fields {p : Params} {q L : Nat} {pe : PredEntry} (hp : validConfig p = true)
    (hq : p.predList[q]? = some pe) (hL : L ≤ 3) :
    (patternOf p q pe L).id.toNat = 4 * q + L ∧ (patternOf p q pe L).pred.toNat = q ∧
      (patternOf p q pe L).level.toNat = L ∧
      (patternOf p q pe L).enc.toNat = pe.dataSize + L * historyBits p := by
  obtain ⟨hlen, hsize⟩ := validConfig_predList hp
  have hq64 : q < p.predList.length := (List.getElem?_eq_some_iff.mp hq).1
  have henc := hsize pe (List.mem_of_getElem? hq)
  have hbits : L * historyBits p ≤ 3 * historyBits p := Nat.mul_le_mul_right _ hL
  simp only [patternOf, BitVec.toNat_ofNat]
  refine ⟨Nat.mod_eq_of_lt ?_, Nat.mod_eq_of_lt ?_, Nat.mod_eq_of_lt ?_, Nat.mod_eq_of_lt ?_⟩ <;> omega

/-! ## The order of the catalog (R207) -/

/-- The key of R207. -/
def sortKey (e : CatEntry) : Nat ×ₗ Nat ×ₗ Nat := toLex (e.enc.toNat, toLex (levelRank e, e.id.toNat))

theorem entryLe_iff_sortKey_le {a b : CatEntry} : entryLe a b = true ↔ sortKey a ≤ sortKey b := by
  simp only [entryLe, sortKey, Prod.Lex.toLex_le_toLex]
  split
  · rw [decide_eq_true_eq]; omega
  · split
    · rw [decide_eq_true_eq]; omega
    · rw [decide_eq_true_eq]; omega

theorem levelRank_eq (e : CatEntry) : levelRank e = if e.level.toNat = 0 then 0 else 1 := by
  simp only [levelRank, ← BitVec.toNat_inj]
  rfl

theorem keyBefore_iff_sortKey_lt {a b : CatEntry} : keyBefore a b ↔ sortKey a < sortKey b := by
  simp only [keyBefore, sortKey, Prod.Lex.toLex_lt_toLex, levelRank_eq]
  split <;> split <;> omega

theorem buildCatalog_sorted (p : Params) : (buildCatalog p).Pairwise fun a b => sortKey a ≤ sortKey b := by
  have total : Std.Total fun a b : CatEntry => entryLe a b = true :=
    ⟨fun a b => by simp only [entryLe_iff_sortKey_le]; exact le_total _ _⟩
  have trans : IsTrans CatEntry fun a b => entryLe a b = true :=
    ⟨fun a b c => by simp only [entryLe_iff_sortKey_le]; exact le_trans⟩
  exact (List.pairwise_insertionSort _ (patterns p)).imp entryLe_iff_sortKey_le.mp

/-- Reset lists the patterns by ascending `ID`: the levels of one predicate in order, the predicates in order (R206). -/
theorem patterns_ids_ascend {p : Params} (hp : validConfig p = true) :
    (patterns p).Pairwise fun a b => a.id.toNat < b.id.toNat := by
  have hindex : p.predList.zipIdx.Pairwise fun x y => x.2 < y.2 := by
    rw [← List.pairwise_map (f := Prod.snd) (R := (· < ·)), List.zipIdx_map_snd]
    exact List.pairwise_lt_range'
  have hid {x : PredEntry × Nat} (hx : x ∈ p.predList.zipIdx) {L : Nat} (hL : L ∈ List.range 4) :
      (patternOf p x.2 x.1 L).id.toNat = 4 * x.2 + L ∧ L ≤ 3 := by
    have hL : L ≤ 3 := Nat.le_of_lt_succ (List.mem_range.mp hL)
    exact ⟨(patternOf_fields hp (List.mem_zipIdx_iff_getElem?.mp hx) hL).1, hL⟩
  rw [patterns, List.pairwise_flatMap]
  refine ⟨fun x hx => List.pairwise_map.mpr ?_, hindex.imp_of_mem fun {x y} hx hy hlt => ?_⟩
  · refine List.pairwise_lt_range.imp_of_mem fun hL hL' hlt => ?_
    rw [(hid hx hL).1, (hid hx hL').1]
    omega
  · intro a ha b hb
    obtain ⟨L, hL, rfl⟩ := List.mem_map.mp ha
    obtain ⟨L', hL', rfl⟩ := List.mem_map.mp hb
    obtain ⟨hxid, hxL⟩ := hid hx hL
    obtain ⟨hyid, -⟩ := hid hy hL'
    omega

/-- No two patterns of a valid configuration share their `ID`. -/
theorem buildCatalog_ids_distinct {p : Params} (hp : validConfig p = true) :
    (buildCatalog p).Pairwise fun a b => a.id.toNat ≠ b.id.toNat := by
  exact (List.Perm.pairwise_iff Ne.symm (List.perm_insertionSort _ _)).mpr
    ((patterns_ids_ascend hp).imp Nat.ne_of_lt)

theorem buildCatalog_keyBefore {p : Params} (hp : validConfig p = true) : (buildCatalog p).Pairwise keyBefore := by
  refine ((buildCatalog_sorted p).and (buildCatalog_ids_distinct hp)).imp fun {a b} ⟨hle, hid⟩ => ?_
  refine keyBefore_iff_sortKey_lt.mpr (lt_of_le_of_ne hle fun heq => hid ?_)
  exact congrArg (fun k => (ofLex (ofLex k).2).2) heq

/-- Settles O19: the members by their numbers, which fit their fields; the order strict as the ids are distinct. -/
theorem catalogIsEveryPatternSorted : Obligations.CatalogIsEveryPatternSorted := by
  unfold Obligations.CatalogIsEveryPatternSorted
  intro p hp
  refine ⟨fun r => ceilLog2_le_iff, length_buildCatalog p, fun q L pe hq hL => ?_, buildCatalog_keyBefore hp⟩
  exact ⟨patternOf p q pe L, mem_buildCatalog.mpr ⟨q, pe, L, hq, hL, rfl⟩, patternOf_fields hp hq hL⟩

/-! ## The entry charged (R213, R208) -/

/-- The entry charged, by its position: it matches and no entry before it does. -/
theorem classify_eq_some_iff {p : Params} {cat : List CatEntry} {win : List Word} {w : Word} {m : CatEntry} :
    classify p cat win w = some m ↔
      ∃ c : Nat, cat[c]? = some m ∧ patternMatches p m win w = true ∧
        ∀ j < c, ∀ e, cat[j]? = some e → patternMatches p e win w = false := by
  rw [classify, List.find?_eq_some_iff_getElem]
  constructor
  · rintro ⟨hm, c, hc, rfl, hbefore⟩
    refine ⟨c, List.getElem?_eq_getElem hc, hm, fun j hj e he => ?_⟩
    obtain ⟨_, rfl⟩ := List.getElem?_eq_some_iff.mp he
    simpa using hbefore j hj
  · rintro ⟨c, hget, hm, hbefore⟩
    obtain ⟨hc, rfl⟩ := List.getElem?_eq_some_iff.mp hget
    refine ⟨hm, c, hc, rfl, fun j hj => ?_⟩
    rw [hbefore j hj _ (List.getElem?_eq_getElem _), Bool.not_false]

theorem classify_eq_none_iff {p : Params} {cat : List CatEntry} {win : List Word} {w : Word} :
    classify p cat win w = none ↔ ∀ e ∈ cat, patternMatches p e win w = false := by
  simp only [classify, List.find?_eq_none, Bool.not_eq_true]

/-- In the sorted catalog the first match is a cheapest one (R208). -/
theorem classify_enc_le {p : Params} {win : List Word} {w : Word} {m e : CatEntry}
    (hm : classify p (buildCatalog p) win w = some m) (he : e ∈ buildCatalog p)
    (hmatch : patternMatches p e win w = true) : m.enc.toNat ≤ e.enc.toNat := by
  obtain ⟨c, hc, -, hbefore⟩ := classify_eq_some_iff.mp hm
  obtain ⟨j, hj⟩ := List.mem_iff_getElem?.mp he
  rcases lt_trichotomy j c with hlt | rfl | hgt
  · rw [hbefore j hlt e hj] at hmatch
    cases hmatch
  · rw [Option.some.inj (hc.symm.trans hj)]
  · obtain ⟨hc', rfl⟩ := List.getElem?_eq_some_iff.mp hc
    obtain ⟨hj', rfl⟩ := List.getElem?_eq_some_iff.mp hj
    have hkey := List.pairwise_iff_getElem.mp (buildCatalog_sorted p) c j hc' hj' hgt
    exact Prod.Lex.monotone_fst _ _ hkey

/-- Settles O20: the first match by its position, and the order of the sorted catalog. -/
theorem classifyIsCheapestMatch : Obligations.ClassifyIsCheapestMatch := by
  unfold Obligations.ClassifyIsCheapestMatch
  exact ⟨fun p cat win w => ⟨fun m => classify_eq_some_iff, classify_eq_none_iff⟩,
    fun p win w m e => classify_enc_le⟩

/-! ## `PRED` and `MATCH` (R214, R215) -/

/-- Settles O21: in range the rule answers the predicate; out of range it fails the index check. -/
theorem predTestsOnePredicate : Obligations.PredTestsOnePredicate := by
  unfold Obligations.PredTestsOnePredicate
  intro s idx hl
  refine ⟨encode_eq_commandWord _, fun pe hpe => ?_, fun hidx => ?_⟩
  · exact exec_returning hl (by rw [ruleOf, predRule, hpe])
  · exact exec_of_not_wellFormed hl (by simpa [wellFormed] using hidx)

/-- Under a valid configuration the entry with an `ID` in range is the pattern of predicate `ID div 4` at level
`ID mod 4`. -/
theorem find?_id_buildCatalog {p : Params} {n : Nat} {pe : PredEntry} (hp : validConfig p = true)
    (hq : p.predList[n / 4]? = some pe) :
    (buildCatalog p).find? (fun e => e.id.toNat = n) = some (patternOf p (n / 4) pe (n % 4)) := by
  have hlevel : n % 4 ≤ 3 := by omega
  have hid := (patternOf_fields hp hq hlevel).1
  cases hfind : (buildCatalog p).find? (fun e => e.id.toNat = n) with
  | none =>
    have := List.find?_eq_none.mp hfind _ (mem_buildCatalog.mpr ⟨n / 4, pe, n % 4, hq, hlevel, rfl⟩)
    rw [decide_eq_true_eq] at this
    omega
  | some e =>
    have hen : e.id.toNat = n := by simpa using List.find?_some hfind
    obtain ⟨q, pe', L, hq', hL, rfl⟩ := mem_buildCatalog.mp (List.mem_of_find?_eq_some hfind)
    rw [(patternOf_fields hp hq' hL).1] at hen
    obtain rfl : q = n / 4 := by omega
    obtain rfl : L = n % 4 := by omega
    rw [Option.some.inj (hq'.symm.trans hq)]

theorem windowOf_eq_windowSeen (p : Params) (m : WordMap StreamRecord) (sid : Word) :
    windowOf p m sid = windowSeen p m sid := rfl

theorem matchById_eq_levelMatches {s : State} {idx : BitVec 16} {pe : PredEntry}
    (hp : validConfig s.params = true) (hcat : s.block.cat = buildCatalog s.params)
    (hq : s.params.predList[idx.toNat / 4]? = some pe) :
    matchById idx s =
      levelMatches pe.pred (idx.toNat % 4) (windowSeen s.params s.block.streams s.ports.a) s.ports.b := by
  obtain ⟨-, hpred, hlevel, -⟩ := patternOf_fields hp hq (L := idx.toNat % 4) (by omega)
  rw [matchById, hcat, find?_id_buildCatalog hp hq]
  simp only
  rw [patternMatches_eq_levelMatches _ _ (hpred.symm ▸ hq), hlevel, windowOf_eq_windowSeen]

/-- Settles O22: in range the rule answers the pattern found by its `ID`; out of range it fails the index check. -/
theorem matchAnswersThePattern : Obligations.MatchAnswersThePattern := by
  unfold Obligations.MatchAnswersThePattern
  intro s idx hl
  refine ⟨encode_eq_commandWord _, fun pe hp hcat hq => ?_, fun hidx => ?_⟩
  · have hlt : idx.toNat / 4 < s.params.predList.length := (List.getElem?_eq_some_iff.mp hq).1
    have hidx : ¬ nPat s.params ≤ idx.toNat := by rw [nPat, nPred]; omega
    refine exec_returning hl ?_
    rw [ruleOf, matchRule, if_neg hidx, matchById_eq_levelMatches hp hcat hq]
  · exact exec_of_not_wellFormed hl (by simpa [wellFormed] using hidx)

end Sys2Proof.Machine
end

/-! # The stream compressor: one word (R263), the window (R264), a block and its bounds (R262, R265, R272), and the
commands `COMPRESS`, `WIN_READ`, `PROF_READ` and `PROF_GLOBAL` (R266 to R270) -/

section
namespace Sys2Proof.Machine

/-! ## One word (R263, R264) -/

section OneWord
variable {p : Params} {cat : List CatEntry} {st : StreamRecord} {w : Word}

theorem account_of_match {m : CatEntry} (h : classify p cat st.win w = some m) :
    account p cat st w =
      (m.enc.toNat, { st with hits := st.hits.modify m.id.toNat (· + 1), words := st.words + 1 }) := by
  rw [account, h]

theorem account_of_escape (h : classify p cat st.win w = none) :
    account p cat st w =
      (65, { st with
        esc := st.esc + 1, escv := mapSet st.escv w ((mapGet st.escv w).getD 0 + 1), words := st.words + 1 }) := by
  rw [account, h]

/-- Charging a word leaves the window. -/
@[simp] theorem account_win (p : Params) (cat : List CatEntry) (st : StreamRecord) (w : Word) :
    (account p cat st w).2.win = st.win := by
  cases h : classify p cat st.win w with
  | some m => rw [account_of_match h]
  | none => rw [account_of_escape h]

/-- A word costs the `ENC` of some entry, or the escape. -/
theorem account_cost (p : Params) (cat : List CatEntry) (st : StreamRecord) (w : Word) :
    (∃ e ∈ cat, (account p cat st w).1 = e.enc.toNat) ∨ (account p cat st w).1 = 65 := by
  cases h : classify p cat st.win w with
  | some m => exact .inl ⟨m, List.mem_of_find?_eq_some h, by rw [account_of_match h]⟩
  | none => exact .inr (by rw [account_of_escape h])

end OneWord

/-- Settles O24: a match sets the counter it counts up, an escape sets the word's own key. -/
theorem accountChargesOneWord : Obligations.AccountChargesOneWord := by
  unfold Obligations.AccountChargesOneWord
  refine fun p cat st w => ⟨fun m hm hid => ?_, fun hnone => ?_⟩
  · rw [account_of_match hm, List.modify_eq_set_get _ hid, List.getD_eq_getElem _ _ hid, List.get_eq_getElem]
  · exact ⟨_, account_of_escape hnone, mapGet_mapSet_same _ _ _, fun u hu => mapGet_mapSet_other _ _ hu⟩

/-! ## The words of a block (R262) -/

theorem compressWords_cons (p : Params) (cat : List CatEntry) (w : Word) (ws : List Word) (st : StreamRecord) :
    compressWords p cat (w :: ws) st =
      ((account p cat st w).1 + (compressWords p cat ws (pushHistory w (account p cat st w).2)).1,
        (compressWords p cat ws (pushHistory w (account p cat st w).2)).2) := rfl

/-- Settles O25, by induction on the words: each push drops the oldest entry and appends the word. -/
theorem windowHoldsTheLastWords : Obligations.WindowHoldsTheLastWords := by
  unfold Obligations.WindowHoldsTheLastWords
  intro p cat ws
  induction ws with
  | nil => simp [compressWords]
  | cons w ws ih =>
    intro st hwin
    obtain ⟨oldest, kept, hst⟩ := List.exists_cons_of_ne_nil hwin
    have hpush : (pushHistory w (account p cat st w).2).win = kept ++ [w] := by simp [pushHistory, hst]
    rw [compressWords_cons, ih _ (by simp [hpush]), hpush, hst]
    simp

/-- One turn of the loop of R262: the word's cost joins the total, then the word is pushed. -/
def chargeAndPush (p : Params) (cat : List CatEntry) (acc : Nat × StreamRecord) (w : Word) : Nat × StreamRecord :=
  (acc.1 + (account p cat acc.2 w).1, pushHistory w (account p cat acc.2 w).2)

theorem foldl_chargeAndPush (p : Params) (cat : List CatEntry) (ws : List Word) (n : Nat) (st : StreamRecord) :
    ws.foldl (chargeAndPush p cat) (n, st) = (n + (compressWords p cat ws st).1, (compressWords p cat ws st).2) := by
  induction ws generalizing n st with
  | nil => rfl
  | cons w ws ih => rw [List.foldl_cons, chargeAndPush, ih, compressWords_cons, Nat.add_assoc]

theorem compressLoop_eq_compressWords (p : Params) (cat : List CatEntry) (ws : List Word) (st : StreamRecord) :
    compressLoop p cat ws st = compressWords p cat ws st := by
  have hloop : compressLoop p cat ws st = ws.foldl (chargeAndPush p cat) (0, st) := rfl
  rw [hloop, foldl_chargeAndPush, Nat.zero_add]

/-! ## `COMPRESS` (R260, R267) -/

/-- `lookup_or_create` gives the stream's record, or the record of R49 where the table has room. -/
theorem lookupOrCreate_eq_ok {p : Params} {m : WordMap StreamRecord} {sid : Word} {st : StreamRecord}
    (h : mapGet m sid = some st ∨
      (mapGet m sid = none ∧ st = streamInit p ∧ ∀ c, p.maxStreams = some c → m.length ≠ c)) :
    lookupOrCreate p m sid = .ok st := by
  rcases h with hget | ⟨hget, rfl, hroom⟩
  · rw [lookupOrCreate, hget]
  · have hcap : atCapacity m.length p.maxStreams = false := by
      cases hmax : p.maxStreams with
      | none => rfl
      | some c => simpa [atCapacity] using hroom c hmax
    rw [lookupOrCreate, hget, hcap]
    rfl

theorem compressBlock_of_lookup {p : Params} {cat : List CatEntry} {m : WordMap StreamRecord} {sid : Word}
    {b : List Byte} {st : StreamRecord} (h : lookupOrCreate p m sid = .ok st) :
    compressBlock p cat m sid b =
      .ok ((compressWords p cat (blockWords b) st).1, mapSet m sid (compressWords p cat (blockWords b) st).2) := by
  rw [compressBlock, h]

theorem compressBlock_of_tableFull {p : Params} {cat : List CatEntry} {m : WordMap StreamRecord} {sid : Word}
    {b : List Byte} (hget : mapGet m sid = none) (hfull : p.maxStreams = some m.length) :
    compressBlock p cat m sid b = .error .streamTableFull := by
  simp [compressBlock, lookupOrCreate, hget, hfull, atCapacity]

/-- Settles O26: the rule stores what the loop leaves for stream `A`; the two errors are its index check and the table's
room. -/
theorem compressChargesTheBlock : Obligations.CompressChargesTheBlock := by
  unfold Obligations.CompressChargesTheBlock
  intro s idx hl
  refine ⟨encode_eq_commandWord _, fun st hidx hst => ?_, fun hidx => ?_, fun hidx hget hfull => ?_⟩
  · have hblock := compressBlock_of_lookup (cat := s.block.cat) (b := s.ports.blk.toList) (lookupOrCreate_eq_ok hst)
    rw [compressLoop_eq_compressWords]
    refine ⟨_, exec_of_rule_ok hl ?_, mapGet_mapSet_same _ _ _, fun sid hsid => mapGet_mapSet_other _ _ hsid⟩
    rw [ruleOf, compressRule, if_neg (not_not.mpr hidx), hblock]
    rfl
  · exact exec_of_not_wellFormed hl (by simpa [wellFormed] using hidx)
  · refine exec_of_rule_error hl ?_
    rw [ruleOf, compressRule, if_neg (not_not.mpr hidx), compressBlock_of_tableFull hget hfull]

/-! ## The bounds of a block's cost (R265) -/

/-- Bounds on the cost of a word bound the cost of a block. -/
theorem compressWords_cost_mem_Icc {p : Params} {cat : List CatEntry} {lo hi : Nat} {ws : List Word}
    {st : StreamRecord} (h : ∀ st w, (account p cat st w).1 ∈ Set.Icc lo hi) :
    (compressWords p cat ws st).1 ∈ Set.Icc (ws.length * lo) (ws.length * hi) := by
  induction ws generalizing st with
  | nil => simp [compressWords]
  | cons w ws ih =>
    obtain ⟨hlo, hhi⟩ := h st w
    obtain ⟨hlos, hhis⟩ := ih (st := pushHistory w (account p cat st w).2)
    rw [compressWords_cons, List.length_cons, Nat.succ_mul, Nat.succ_mul, Set.mem_Icc]
    omega

/-- Bounds on every `ENC` and on the escape bound the 16 words of a block. -/
theorem compressBlock_cost_mem_Icc {p : Params} {cat : List CatEntry} {m m' : WordMap StreamRecord} {sid : Word}
    {b : List Byte} {n lo hi : Nat} (h : compressBlock p cat m sid b = .ok (n, m'))
    (henc : ∀ e ∈ cat, e.enc.toNat ∈ Set.Icc lo hi) (hesc : 65 ∈ Set.Icc lo hi) :
    n ∈ Set.Icc (16 * lo) (16 * hi) := by
  obtain ⟨st, -, rfl, -⟩ := compressBlock_ok h
  have hword (st : StreamRecord) (w : Word) : (account p cat st w).1 ∈ Set.Icc lo hi := by
    rcases account_cost p cat st w with ⟨e, he, hcost⟩ | hcost
    · exact hcost ▸ henc e he
    · exact hcost ▸ hesc
  simpa using compressWords_cost_mem_Icc (ws := blockWords b) (st := st) hword

/-- No entry of the catalog costs less than its first. -/
theorem buildCatalog_head_enc_le {p : Params} {e f : CatEntry} (he : (buildCatalog p)[0]? = some e)
    (hf : f ∈ buildCatalog p) : e.enc.toNat ≤ f.enc.toNat := by
  have hsorted := buildCatalog_sorted p
  cases hcat : buildCatalog p with
  | nil => simp [hcat] at hf
  | cons first rest =>
    obtain rfl : first = e := by simpa [hcat] using he
    rw [hcat] at hsorted hf
    rcases List.mem_cons.mp hf with rfl | hrest
    · exact le_rfl
    · exact Prod.Lex.monotone_fst _ _ (List.rel_of_pairwise_cons hsorted hrest)

/-- With the default parameters every pattern costs from 2 to 41 bits. -/
theorem defaultCatalog_enc {e : CatEntry} (h : e ∈ buildCatalog defaultParams) : e.enc.toNat ∈ Set.Icc 2 41 := by
  have hall : ∀ e ∈ patterns defaultParams, 2 ≤ e.enc.toNat ∧ e.enc.toNat ≤ 41 := by decide
  exact hall e (by rwa [buildCatalog, List.mem_insertionSort] at h)

/-- Settles O27: every word costs an `ENC` or the escape, and the catalog is sorted by `ENC`. -/
theorem compressedSizeBounds : Obligations.CompressedSizeBounds := by
  unfold Obligations.CompressedSizeBounds
  refine ⟨fun p m m' sid b n h => ⟨fun u hesc henc => ?_, fun e he hesc => ?_⟩, fun m m' sid b n h => ?_⟩
  · exact (compressBlock_cost_mem_Icc h (fun e he => ⟨Nat.zero_le _, henc e he⟩) ⟨Nat.zero_le _, hesc⟩).2
  · exact (compressBlock_cost_mem_Icc (hi := 2 ^ 16) h
      (fun f hf => ⟨buildCatalog_head_enc_le he hf, f.enc.isLt.le⟩) ⟨hesc, by decide⟩).1
  · exact compressBlock_cost_mem_Icc h (hi := 65)
      (fun e he => Set.Icc_subset_Icc_right (by decide) (defaultCatalog_enc he)) (Set.mem_Icc.mpr (by decide))

/-! ## The all-zero block (R272) -/

section ZeroBlock
variable {p : Params} {n : Nat}

/-- Pattern 0 comes first: no entry costs less, and among equals level 0 and the least `ID` lead (R207). -/
theorem not_keyBefore_patternOf_zero {pe : PredEntry} {e : CatEntry} (hp : validConfig p = true)
    (hzero : p.predList[0]? = some pe) (hleast : ∀ pe' ∈ p.predList, pe.dataSize ≤ pe'.dataSize)
    (he : e ∈ buildCatalog p) : ¬ keyBefore e (patternOf p 0 pe 0) := by
  obtain ⟨hid₀, -, hlevel₀, henc₀⟩ := patternOf_fields hp hzero (Nat.zero_le 3)
  obtain ⟨q, pe', L, hq, hL, rfl⟩ := mem_buildCatalog.mp he
  obtain ⟨-, -, -, henc⟩ := patternOf_fields hp hq hL
  have hsize := hleast pe' (List.mem_of_getElem? hq)
  rw [keyBefore]
  omega

/-- Whatever the window, a zero word is charged to the level-0 pattern of a cheapest `ZERO` at predicate 0. -/
theorem classify_zero (hp : validConfig p = true) (hzero : p.predList[0]? = some ⟨.zero, n⟩)
    (hleast : ∀ pe ∈ p.predList, n ≤ pe.dataSize) (win : List Word) :
    classify p (buildCatalog p) win 0 = some (patternOf p 0 ⟨.zero, n⟩ 0) := by
  obtain ⟨-, hpred, hlevel, -⟩ := patternOf_fields hp hzero (Nat.zero_le 3)
  obtain ⟨c, hc⟩ := List.mem_iff_getElem?.mp (mem_buildCatalog.mpr ⟨0, ⟨.zero, n⟩, 0, hzero, Nat.zero_le 3, rfl⟩)
  refine classify_eq_some_iff.mpr ⟨c, hc, ?_, fun j hj e hej => ?_⟩
  · rw [patternMatches_eq_levelMatches win 0 (hpred.symm ▸ hzero), hlevel]
    rfl
  · obtain ⟨hc', hpat⟩ := List.getElem?_eq_some_iff.mp hc
    obtain ⟨hj', rfl⟩ := List.getElem?_eq_some_iff.mp hej
    have hbefore := List.pairwise_iff_getElem.mp (buildCatalog_keyBefore hp) j c hj' hc' hj
    rw [hpat] at hbefore
    exact absurd hbefore (not_keyBefore_patternOf_zero hp hzero hleast (List.getElem_mem hj'))

theorem account_zero (hp : validConfig p = true) (hzero : p.predList[0]? = some ⟨.zero, n⟩)
    (hleast : ∀ pe ∈ p.predList, n ≤ pe.dataSize) (st : StreamRecord) :
    account p (buildCatalog p) st 0 =
      (n, { st with hits := st.hits.modify 0 (· + 1), words := st.words + 1 }) := by
  obtain ⟨hid, -, -, henc⟩ := patternOf_fields hp hzero (Nat.zero_le 3)
  rw [account_of_match (classify_zero hp hzero hleast st.win), hid, henc]
  simp

/-- `k` zero words cost `k` times the size of `ZERO` and count `k` hits of pattern 0; only the window differs beside. -/
theorem compressWords_zeros (hp : validConfig p = true) (hzero : p.predList[0]? = some ⟨.zero, n⟩)
    (hleast : ∀ pe ∈ p.predList, n ≤ pe.dataSize) (k : Nat) (st : StreamRecord) :
    ∃ win, compressWords p (buildCatalog p) (List.replicate k 0) st =
      (k * n, { st with win := win, hits := st.hits.modify 0 (· + k), words := st.words + k }) := by
  induction k generalizing st with
  | zero =>
    have hkeep : st.hits.modify 0 (· + 0) = st.hits := List.modify_id 0 st.hits
    exact ⟨st.win, by rw [hkeep, Nat.zero_mul]; rfl⟩
  | succ k ih =>
    obtain ⟨win, hrest⟩ := ih (pushHistory 0 (account p (buildCatalog p) st 0).2)
    refine ⟨win, ?_⟩
    rw [List.replicate_succ, compressWords_cons, hrest, account_zero hp hzero hleast]
    simp [pushHistory, List.modify_modify_eq, Function.comp_def, Nat.succ_mul, Nat.add_comm, Nat.add_left_comm]

end ZeroBlock

/-- Settles O28: the 16 words are charged alike, each to pattern 0, whose counter exists as `PRED_LIST` is not empty. -/
theorem zeroBlockCostsSixteenZeros : Obligations.ZeroBlockCostsSixteenZeros := by
  unfold Obligations.ZeroBlockCostsSixteenZeros
  intro p n st hp hzero hleast hlen
  obtain ⟨win, hwords⟩ := compressWords_zeros hp hzero hleast 16 st
  have hpreds : 0 < p.predList.length := (List.getElem?_eq_some_iff.mp hzero).1
  have hhits : 0 < st.hits.length := by rw [hlen, nPat, nPred]; omega
  rw [hwords]
  refine ⟨rfl, ?_, rfl, rfl, rfl⟩
  rw [List.getD_eq_getElem _ _ hhits]
  exact List.modify_eq_set_get _ hhits

/-! ## `WIN_READ` (R268) -/

/-- An absent stream shows `M64` at position 0 and 0 elsewhere (R49). -/
theorem getD_initialWindow (d i : Nat) : (m64 :: List.replicate d 0).getD i 0 = if i = 0 then m64 else 0 := by
  cases i with
  | zero => rfl
  | succ i =>
    rw [List.getD_cons_succ, List.getD_eq_getElem?_getD, List.getElem?_getD_replicate_default_eq,
      if_neg i.succ_ne_zero]

theorem exec_winRead {s : State} {idx : BitVec 16} (hl : live s) (hidx : idx.toNat < s.params.histDepth) :
    exec (.winRead idx) s =
      .next (returning ((windowSeen s.params s.block.streams s.ports.a).getD idx.toNat 0) s) := by
  refine exec_returning hl ?_
  rw [ruleOf, winReadRule, if_neg (not_le.mpr hidx), windowOf_eq_windowSeen]

/-- Settles O29: in range the rule answers from the window of R49 or the stream's own; out of range it fails the index
check. -/
theorem winReadAnswersTheWindow : Obligations.WinReadAnswersTheWindow := by
  unfold Obligations.WinReadAnswersTheWindow
  intro s idx hl
  refine ⟨encode_eq_commandWord _, fun st hidx hget => ?_, fun hidx hget => ?_, fun hidx => ?_⟩
  · rw [exec_winRead hl hidx, windowSeen, hget]
  · rw [exec_winRead hl hidx, windowSeen, hget, getD_initialWindow]
  · exact exec_of_not_wellFormed hl (by simpa [wellFormed] using hidx)

/-! ## Profile selectors (R141) -/

section Selectors
variable {p : Params} {idx : BitVec 16}

theorem selectorKind_eq (idx : BitVec 16) : selectorKind idx = idx.toNat / 2 ^ 14 := by
  rw [selectorKind, toNat_extractLsb'_eq]
  omega

theorem selectorPid_eq (idx : BitVec 16) : selectorPid idx = idx.toNat % 2 ^ 8 := by
  rw [selectorPid, toNat_extractLsb'_eq, pow_zero, Nat.div_one]

theorem selectorReserved_eq_zero_iff (idx : BitVec 16) :
    selectorReserved idx = 0 ↔ idx.toNat / 2 ^ 8 % 2 ^ 6 = 0 := by
  rw [← BitVec.toNat_inj, selectorReserved, toNat_extractLsb'_eq]
  rfl

theorem selectorValid_iff : selectorValid p idx = true ↔ selectorInRange p idx := by
  simp only [selectorValid, selectorInRange, Bool.and_eq_true, Bool.not_eq_true', decide_eq_true_eq,
    Bool.and_eq_false_imp, decide_eq_false_iff_not, not_le, selectorReserved_eq_zero_iff, selectorKind_eq,
    selectorPid_eq]

/-- The counter of a stream that is present, by the arithmetic of R141. -/
theorem selectedCounter_of_mapGet {word sid : Word} {m : WordMap StreamRecord} {st : StreamRecord}
    (h : mapGet m sid = some st) : selectedCounter idx word m sid = profileCounter idx word st := by
  rw [selectedCounter, h, profileCounter]
  simp only [selectorKind_eq, selectorPid_eq]
  match idx.toNat / 2 ^ 14 with
  | 0 | 1 | 2 => rfl
  | _ + 3 => rfl

theorem profileValue_eq_selectedCounter (idx : BitVec 16) (word : Word) (m : WordMap StreamRecord) (sid : Word) :
    profileValue idx word m sid = selectedCounter idx word m sid := by
  cases h : mapGet m sid with
  | none => rw [profileValue, selectedCounter, h]
  | some st => rw [profileValue, selectedCounter_of_mapGet h, h]

/-- Two ids are of one class when their bits 63 agree (R136). -/
theorem directionClass_beq (a b : Word) :
    (directionClass a == directionClass b) = (a.toNat / 2 ^ 63 == b.toNat / 2 ^ 63) := by
  have ha := a.isLt
  have hb := b.isLt
  rw [directionClass, directionClass, getLsbD_eq_decide, getLsbD_eq_decide, Bool.eq_iff_iff, beq_iff_eq, beq_iff_eq,
    decide_eq_decide]
  omega

/-- The sum over the entries of a class is the sum over its stream ids. -/
theorem profileSum_eq_sum_selectedCounter {m : WordMap StreamRecord} (hm : mapWf m) (word a : Word) :
    profileSum idx word m (directionClass a) =
      (((m.map Prod.fst).filter fun sid => sid.toNat / 2 ^ 63 == a.toNat / 2 ^ 63).map
        (selectedCounter idx word m)).sum := by
  rw [profileSum, List.filter_map, List.map_map]
  simp only [directionClass_beq, Function.comp_def]
  refine congrArg List.sum (List.map_congr_left fun e he => ?_)
  exact (selectedCounter_of_mapGet (mapGet_of_mem hm (List.mem_of_mem_filter he))).symm

end Selectors

/-! ## `PROF_READ` and `PROF_GLOBAL` (R269, R270) -/

/-- Settles O30: a selector in range passes the rule's check and reads the counter; one out of range fails it. -/
theorem profReadAnswersTheCounter : Obligations.ProfReadAnswersTheCounter := by
  unfold Obligations.ProfReadAnswersTheCounter
  intro s idx hl
  refine ⟨encode_eq_commandWord _, fun hidx => exec_returning hl ?_, fun hidx => ?_⟩
  · rw [ruleOf, profReadRule, if_pos (selectorValid_iff.mpr hidx), profileValue_eq_selectedCounter]
  · exact exec_of_not_wellFormed hl (Bool.eq_false_iff.mpr (mt selectorValid_iff.mp hidx))

/-- Settles O31: a canonical table holds each stream id once, so the entries of a class are its ids. -/
theorem profGlobalSumsTheClass : Obligations.ProfGlobalSumsTheClass := by
  unfold Obligations.ProfGlobalSumsTheClass
  intro s idx hl
  refine ⟨encode_eq_commandWord _, fun hm hidx => exec_returning hl ?_, fun hidx => ?_⟩
  · rw [ruleOf, profGlobalRule, if_pos (selectorValid_iff.mpr hidx), profileSum_eq_sum_selectedCounter hm]
  · exact exec_of_not_wellFormed hl (Bool.eq_false_iff.mpr (mt selectorValid_iff.mp hidx))

end Sys2Proof.Machine
end

/-! # The delay queues: `DQ` is a FIFO of the flits in flight (R300 to R304), and the holder is ready `CL + 1` after a
push (R306 to R310) -/

section
namespace Sys2Proof.Machine

/-! ## The ring of `DQ` (R300 to R302) -/

/-- Two positions less than a ring apart are two slots of it. -/
theorem mod_ne_of_sub_lt {a b n : Nat} (hab : a < b) (hn : b - a < n) : b % n ≠ a % n := by
  intro h
  have hdvd : n ∣ b - a := Nat.dvd_of_mod_eq_zero (Nat.sub_mod_eq_zero_of_mod_eq h)
  have := Nat.le_of_dvd (by omega) hdvd
  omega

/-- The flit at ring position `i`: what `DQ` holds in slot `i mod S` (R300). -/
def flitAt (q : DelayQueue) (i : Nat) : Flit := q.slot.getD (i % q.slot.length) fillerFlit

theorem flitsInFlight_eq_map_flitAt (q : DelayQueue) :
    flitsInFlight q = (List.range (q.wp - q.rp)).map fun j => flitAt q (q.rp + j) := rfl

theorem length_flitsInFlight (q : DelayQueue) : (flitsInFlight q).length = q.wp - q.rp := by
  simp [flitsInFlight]

@[simp] theorem dqPush_rp (f : Flit) (q : DelayQueue) : (dqPush f q).rp = q.rp := rfl
@[simp] theorem dqPush_wp (f : Flit) (q : DelayQueue) : (dqPush f q).wp = q.wp + 1 := rfl
@[simp] theorem length_slot_dqPush (f : Flit) (q : DelayQueue) : (dqPush f q).slot.length = q.slot.length :=
  List.length_set
@[simp] theorem dqPop_rp (q : DelayQueue) : (dqPop q).2.rp = q.rp + 1 := rfl
@[simp] theorem dqPop_wp (q : DelayQueue) : (dqPop q).2.wp = q.wp := rfl
@[simp] theorem length_slot_dqPop (q : DelayQueue) : (dqPop q).2.slot.length = q.slot.length := List.length_set
theorem dqPop_fst (q : DelayQueue) : (dqPop q).1 = flitDelivers (flitAt q q.rp) := rfl

theorem flitAt_dqPush_wp {f : Flit} {q : DelayQueue} (h : 0 < q.slot.length) : flitAt (dqPush f q) q.wp = f := by
  simp [flitAt, dqPush, List.getD_eq_getElem?_getD, Nat.mod_lt _ h]

theorem flitAt_dqPush_of_ne {f : Flit} {q : DelayQueue} {i : Nat}
    (h : q.wp % q.slot.length ≠ i % q.slot.length) : flitAt (dqPush f q) i = flitAt q i := by
  simp [flitAt, dqPush, List.getD_eq_getElem?_getD, List.getElem?_set_ne h]

theorem flitAt_dqPop_of_ne {q : DelayQueue} {i : Nat}
    (h : q.rp % q.slot.length ≠ i % q.slot.length) : flitAt (dqPop q).2 i = flitAt q i := by
  simp [flitAt, dqPop, List.getD_eq_getElem?_getD, List.getElem?_set_ne h]

/-- A push into a ring with a free slot overwrites none of the flits in flight (R301). -/
theorem flitsInFlight_dqPush {f : Flit} {q : DelayQueue} (hle : q.rp ≤ q.wp) (hroom : q.wp - q.rp < q.slot.length) :
    flitsInFlight (dqPush f q) = flitsInFlight q ++ [f] := by
  have older : (List.range (q.wp - q.rp)).map (fun j => flitAt (dqPush f q) (q.rp + j)) = flitsInFlight q := by
    refine List.map_congr_left fun j hj => flitAt_dqPush_of_ne ?_
    have hj := List.mem_range.mp hj
    exact mod_ne_of_sub_lt (by omega) (by omega)
  have newest : flitAt (dqPush f q) (q.rp + (q.wp - q.rp)) = f := by
    rw [Nat.add_sub_cancel' hle, flitAt_dqPush_wp (by omega)]
  rw [flitsInFlight_eq_map_flitAt, dqPush_rp, dqPush_wp, Nat.sub_add_comm hle, List.range_succ, List.map_append, older,
    List.map_singleton, newest]

/-- A pop clears the slot of the oldest flit in flight and of no other (R302). -/
theorem flitsInFlight_eq_cons {q : DelayQueue} (hlt : q.rp < q.wp) (hfit : q.wp - q.rp ≤ q.slot.length) :
    flitsInFlight q = flitAt q q.rp :: flitsInFlight (dqPop q).2 := by
  have younger : flitsInFlight (dqPop q).2 =
      (List.range (q.wp - (q.rp + 1))).map fun j => flitAt q (q.rp + (j + 1)) := by
    refine List.map_congr_left fun j hj => ?_
    have hj := List.mem_range.mp hj
    rw [dqPop_wp, dqPop_rp] at hj
    have shifted : q.rp + (j + 1) = (dqPop q).2.rp + j := by rw [dqPop_rp]; omega
    rw [shifted]
    exact flitAt_dqPop_of_ne (by rw [dqPop_rp]; exact (mod_ne_of_sub_lt (by omega) (by omega)).symm)
  have count : q.wp - q.rp = (q.wp - (q.rp + 1)) + 1 := by omega
  rw [younger, flitsInFlight_eq_map_flitAt, count, List.range_succ_eq_map, List.map_cons, List.map_map]
  rfl

/-- Settles O32: at most `S` flits in flight stand in distinct slots, so neither operation touches another's. -/
theorem delayQueueIsFifo : Obligations.DelayQueueIsFifo := by
  unfold Obligations.DelayQueueIsFifo
  intro q f hle
  exact ⟨flitsInFlight_dqPush hle, fun hlt hfit => ⟨_, _, flitsInFlight_eq_cons hlt hfit, rfl, dqPop_fst q⟩⟩

/-! ## The timing law of `DQ` (R304) -/

/-- `q` is a ring of `n` slots in which exactly the flits `fs` are in flight, oldest first, and they fit. -/
structure InFlight (n : Nat) (fs : List Flit) (q : DelayQueue) : Prop where
  slots : q.slot.length = n
  ordered : q.rp ≤ q.wp
  flits : flitsInFlight q = fs
  fits : fs.length ≤ n

section InFlight
variable {n : Nat} {f : Flit} {fs gs : List Flit} {q : DelayQueue}

theorem InFlight.length_eq (h : InFlight n fs q) : fs.length = q.wp - q.rp := by
  rw [← h.flits, length_flitsInFlight]

theorem InFlight.push (h : InFlight n fs q) (hroom : fs.length < n) : InFlight n (fs ++ [f]) (dqPush f q) where
  slots := by rw [length_slot_dqPush, h.slots]
  ordered := Nat.le_succ_of_le h.ordered
  flits := by rw [flitsInFlight_dqPush h.ordered (by rw [← h.length_eq, h.slots]; exact hroom), h.flits]
  fits := by simpa using hroom

theorem InFlight.pop (h : InFlight n (f :: fs) q) : (dqPop q).1 = flitDelivers f ∧ InFlight n fs (dqPop q).2 := by
  have hlen := h.length_eq
  have hfits := h.fits
  rw [List.length_cons] at hlen hfits
  have hcons := flitsInFlight_eq_cons (q := q) (by omega) (by rw [h.slots]; omega)
  rw [h.flits] at hcons
  obtain ⟨oldest, younger⟩ := List.cons.inj hcons
  exact ⟨by rw [dqPop_fst, ← oldest],
    { slots := by rw [length_slot_dqPop, h.slots]
      ordered := by rw [dqPop_rp, dqPop_wp]; omega
      flits := younger.symm
      fits := by omega }⟩

theorem InFlight.pops (h : InFlight n (fs ++ gs) q) :
    (popMany fs.length q).1 = fs.map flitDelivers ∧ InFlight n gs (popMany fs.length q).2 := by
  induction fs generalizing q with
  | nil => exact ⟨rfl, h⟩
  | cons f fs ih =>
    obtain ⟨first, later⟩ := h.pop
    obtain ⟨rest, after⟩ := ih later
    exact ⟨by rw [List.map_cons, ← first, ← rest]; rfl, after⟩

theorem InFlight.pushes (h : InFlight n fs q) (hroom : fs.length + gs.length ≤ n) :
    InFlight n (fs ++ gs) (gs.foldl (fun q f => dqPush f q) q) := by
  induction gs generalizing fs q with
  | nil => simpa using h
  | cons g gs ih =>
    rw [List.length_cons] at hroom
    rw [List.append_cons]
    exact ih (h.push (by omega)) (by rw [List.length_append, List.length_singleton]; omega)

/-- The queue is a pipe: the steps put their batches behind the flits in flight and take as many from the front. -/
theorem InFlight.runBatches_eq {batches : List (List Flit)} (h : InFlight n fs q)
    (hb : ∀ b ∈ batches, b.length ≤ fs.length) :
    runBatches batches q = ((fs ++ batches.flatten).take batches.flatten.length).map flitDelivers := by
  induction batches generalizing fs q with
  | nil => rfl
  | cons b rest ih =>
    have hblen : b.length ≤ fs.length := hb b List.mem_cons_self
    have htake : (fs.take b.length).length = b.length := List.length_take_of_le hblen
    have hdrop : (fs.drop b.length).length + b.length = fs.length := by rw [List.length_drop]; omega
    obtain ⟨popped, left⟩ := InFlight.pops (fs := fs.take b.length) (gs := fs.drop b.length) (q := q)
      (by rwa [List.take_append_drop])
    rw [htake] at popped left
    have after := left.pushes (gs := b) (hdrop.trans_le h.fits)
    have later := ih after fun b' hb' => by
      rw [List.length_append, hdrop]
      exact hb b' (List.mem_cons_of_mem b hb')
    calc runBatches (b :: rest) q
        = (fs.take b.length).map flitDelivers ++
            ((fs.drop b.length ++ b ++ rest.flatten).take rest.flatten.length).map flitDelivers := by
          rw [← popped, ← later]; rfl
      _ = ((fs ++ (b :: rest).flatten).take (b :: rest).flatten.length).map flitDelivers := by
          rw [← List.map_append, List.flatten_cons, List.length_append, List.take_add,
            List.take_append_of_le_length hblen, List.drop_append_of_le_length hblen, List.append_assoc]

end InFlight

/-- At reset the `L` flits in flight are fillers (R300). -/
theorem inFlight_dqInit (p : Params) : InFlight (dqSlots p) (List.replicate p.dqLatency fillerFlit) (dqInit p) where
  slots := List.length_replicate
  ordered := Nat.zero_le _
  flits := List.eq_replicate_iff.mpr ⟨length_flitsInFlight _, fun _ hf => flitsInFlight_dqInit hf⟩
  fits := by rw [List.length_replicate]; exact Nat.le_add_left _ _

/-- Settles O33: the queue at reset is a pipe that holds `L` fillers, which deliver nothing. -/
theorem delayQueueTimingLaw : Obligations.DelayQueueTimingLaw := by
  unfold Obligations.DelayQueueTimingLaw
  intro p batches _ hb
  have law := (inFlight_dqInit p).runBatches_eq (batches := batches) (by rwa [List.length_replicate])
  rw [law, List.map_take, List.map_append, List.map_replicate, fillerFlit_delivers]
  rfl

/-! ## The timing law of the holder (R307, R308, R310) -/

theorem tsqPush_of_room {d : Desc} {size src now : Nat} {q : TimestampQueue} (h : q.n ≠ q.entry.length) :
    ∃ q', tsqPush d size src now q = .ok q' := ⟨_, if_neg h⟩

/-- `tsq_top` is the entry held, shown once its `CL` steps are over (R308). -/
theorem tsqTop_eq_filter_heldEntry (cl now : Nat) (q : TimestampQueue) :
    tsqTop cl now q = (heldEntry q).filter fun e => decide (e.time + cl < now) := by
  unfold tsqTop heldEntry
  by_cases hn : q.n = 0
  · simp only [hn, if_true]; split <;> rfl
  · rw [if_neg hn]
    split
    · next e he => rw [he]; simp [Nat.pos_of_ne_zero hn, Option.filter]
    · next he => rw [he]; rfl

/-- Settles O34: the holder keeps the entry pushed, and shows it from the first `NOW` above `t + CL`. -/
theorem timestampQueueTimingLaw : Obligations.TimestampQueueTimingLaw := by
  unfold Obligations.TimestampQueueTimingLaw
  intro d size src t cl now q hn hcursors hne
  have hroom : q.n ≠ q.entry.length := by rw [hn]; exact (List.length_pos_iff.mpr hne).ne
  obtain ⟨q', hpush⟩ := tsqPush_of_room (d := d) (size := size) (src := src) (now := t) hroom
  have count : q'.n = 1 := by obtain ⟨-, rfl⟩ := tsqPush_ok hpush; simp [hn]
  refine ⟨q', hpush, count, ?_⟩
  rw [tsqTop_eq_filter_heldEntry, heldEntry_tsqPush hn hcursors hpush]
  simp only [Option.filter, decide_eq_true_eq, Nat.succ_le_iff]

end Sys2Proof.Machine
end

/-! # The link's operations, each by what it does: round robin (R347), the pop attempt (R345), packets and flit slots
(R346, R348 to R351), and the compression phase (R352 to R354) -/

section
namespace Sys2Proof.Machine

/-! ## Round robin (R347) -/

/-- `first_rr` is the first eligible source of the cyclic order. -/
theorem firstRr_eq_some_iff {n ptr s : Nat} {ok : Nat → Bool} :
    firstRr n ptr ok = some s ↔
      ∃ j < n, s = (ptr + j) % n ∧ ok s = true ∧ ∀ i < j, ok ((ptr + i) % n) = false := by
  simp only [firstRr, List.find?_map, Option.map_eq_some_iff, List.find?_range_eq_some, Function.comp_apply,
    List.mem_range, Bool.not_eq_true']
  constructor
  · rintro ⟨j, ⟨hok, hj, hfirst⟩, rfl⟩
    exact ⟨j, hj, rfl, hok, hfirst⟩
  · rintro ⟨j, hj, rfl, hok, hfirst⟩
    exact ⟨j, ⟨hok, hj, hfirst⟩, rfl⟩

theorem firstRr_eq_none_iff {n ptr : Nat} {ok : Nat → Bool} (hptr : ptr < n) :
    firstRr n ptr ok = none ↔ ∀ s < n, ok s = false := by
  refine ⟨firstRr_none hptr, fun h => Option.eq_none_iff_forall_ne_some.mpr fun s hs => ?_⟩
  obtain ⟨hlt, hok⟩ := firstRr_some hs
  rw [h s hlt] at hok
  cases hok

/-- Settles O35: the search of the cyclic order stops at the first eligible source, and meets every source. -/
theorem roundRobinServesTheFirst : Obligations.RoundRobinServesTheFirst :=
  fun _ _ _ hptr => ⟨fun _ => firstRr_eq_some_iff, firstRr_eq_none_iff hptr⟩

/-! ## The pop attempt (R302, R345) -/

theorem atCapacity_eq_false_iff {n : Nat} {cap : Option Nat} :
    atCapacity n cap = false ↔ ∀ c, cap = some c → n ≠ c := by
  cases cap <;> simp [atCapacity]

theorem atCapacity_eq_true_iff {n : Nat} {cap : Option Nat} : atCapacity n cap = true ↔ cap = some n := by
  cases cap with
  | none => simp [atCapacity]
  | some c => rw [atCapacity, beq_iff_eq, Option.some.injEq, eq_comm]

theorem complOf_modify_same {l : Link} {t : Nat} {f : List Desc → List Desc} (h : t < l.compl.length) :
    complOf { l with compl := l.compl.modify t f } t = f (complOf l t) := by
  simp [complOf, List.getD_eq_getElem?_getD, h]

theorem complOf_modify_other {l : Link} {t u : Nat} {f : List Desc → List Desc} (h : u ≠ t) :
    complOf { l with compl := l.compl.modify t f } u = complOf l u := by
  simp [complOf, List.getD_eq_getElem?_getD, Ne.symm h]

/-- A pop returns what the oldest flit in flight delivers, and leaves the others. -/
theorem dqPop_of_flitsInFlight {q : DelayQueue} {g : Flit} {rest : List Flit} (h : flitsInFlight q = g :: rest)
    (hfit : q.wp - q.rp ≤ q.slot.length) :
    (dqPop q).1 = flitDelivers g ∧ flitsInFlight (dqPop q).2 = rest := by
  have hlen : rest.length + 1 = q.wp - q.rp := by rw [← length_flitsInFlight, h, List.length_cons]
  have hq : InFlight q.slot.length (g :: rest) q := ⟨rfl, by omega, h, by rwa [List.length_cons, hlen]⟩
  exact ⟨hq.pop.1, hq.pop.2.flits⟩

theorem dqPop_snd_eq_oldestCleared (q : DelayQueue) : (dqPop q).2 = oldestCleared q := rfl

section PopOnce
variable {p : Params} {l : Link}

theorem popOnce_of_no_delivery (h : (dqPop l.dq).1 = none) : popOnce p l = .ok { l with dq := (dqPop l.dq).2 } := by
  simp only [popOnce, h]

theorem popOnce_of_delivery {d : Desc} (h : (dqPop l.dq).1 = some d)
    (hroom : atCapacity (complOf l d.dst.toNat).length p.complDepth = false) :
    popOnce p l = .ok { l with dq := (dqPop l.dq).2, compl := l.compl.modify d.dst.toNat (· ++ [d]) } := by
  simp [popOnce, h, hroom]

theorem popOnce_of_full {d : Desc} (h : (dqPop l.dq).1 = some d)
    (hfull : atCapacity (complOf l d.dst.toNat).length p.complDepth = true) :
    popOnce p l = .error .completionFull := by
  simp [popOnce, h, hfull]

end PopOnce

theorem flitDelivers_of_tail {g : Flit} {d : Desc} (ht : g.tail = true) (hp : g.payload = some d) :
    flitDelivers g = some d := by
  rw [flitDelivers, if_pos ht, hp]

/-- Settles O36: the attempt acts on what the oldest flit delivers, and a delivery goes to its destination's list. -/
theorem popDeliversTailFlits : Obligations.PopDeliversTailFlits := by
  unfold Obligations.PopDeliversTailFlits
  intro p l g rest hflits hfit
  obtain ⟨hpop, hrest⟩ := dqPop_of_flitsInFlight hflits hfit
  refine ⟨fun hnone => ?_, fun d ht hp hdst hroom => ?_, fun d ht hp hfull => ?_⟩
  · exact ⟨_, popOnce_of_no_delivery (hpop.trans hnone), rfl, dqPop_snd_eq_oldestCleared _, hrest⟩
  · have hd := hpop.trans (flitDelivers_of_tail ht hp)
    refine ⟨_, popOnce_of_delivery hd (atCapacity_eq_false_iff.mpr hroom), rfl, dqPop_snd_eq_oldestCleared _, hrest,
      ?_, fun t htd => ?_⟩
    · exact complOf_modify_same (l := { l with dq := (dqPop l.dq).2 }) hdst
    · exact complOf_modify_other (l := { l with dq := (dqPop l.dq).2 }) htd
  · exact popOnce_of_full (hpop.trans (flitDelivers_of_tail ht hp)) (atCapacity_eq_true_iff.mpr hfull)

/-! ## Packets (R348) -/

theorem ceilDiv_128 (n : Nat) : ceilDiv n 128 = (n + 127) / 128 := by rw [ceilDiv, Nat.add_sub_assoc (by decide)]

/-- The flits of a packet of `bits` payload bits behind a leftover: its bits in whole flits (R348). -/
def packetFlits (bits left : Nat) : Nat := (128 + bits - left + 127) / 128

/-- The new leftover of a packet, in one term. -/
theorem startPacket_left_eq_mod (d : Desc) (bits : Nat) (l : Link) :
    (startPacket d bits l).left = (128 - (128 + bits - l.left) % 128) % 128 := by
  rw [startPacket_left_eq]
  split <;> omega

/-- `start` by the numbers of R348: the packet's flits, and the leftover that fills its last one. -/
theorem startPacket_eq (d : Desc) (bits : Nat) (l : Link) :
    startPacket d bits l =
      { l with
        nfl := packetFlits bits l.left, left := (128 - (128 + bits - l.left) % 128) % 128, cur := some d, off := 0
        stats :=
          if packetFlits bits l.left = 1 then { l.stats with pktsSingle := l.stats.pktsSingle + 1 }
          else { l.stats with pktsMulti := l.stats.pktsMulti + 1 } } := by
  have hflits : ceilDiv (packetBits bits l.left) flitBits = packetFlits bits l.left := ceilDiv_128 _
  rw [← startPacket_left_eq_mod d, ← hflits]
  rfl

/-- Settles O37: the flits are the packet's bits rounded up, and the leftover what the rounding added. -/
theorem packetAccounting : Obligations.PacketAccounting := by
  unfold Obligations.PacketAccounting
  intro d bits l hleft
  refine ⟨packetFlits bits l.left, _, ?_, ?_, Nat.mod_lt (128 - (128 + bits - l.left) % 128) (by decide), ?_⟩
  · rw [startPacket_eq]
    split <;> rfl
  · rw [packetFlits]
    omega
  · rw [packetFlits]
    omega

end Sys2Proof.Machine
end

/-! # A flit slot, case by case: the payload in progress, short, held and plain traffic, and the filler (R346 to
R351) -/

section
namespace Sys2Proof.Machine

section Slot
variable {p : Params} {pol : Policy} {l : Link} {s : Nat} {d : Desc} {bits : Nat}

/-! ## The flit sent (R350) -/

theorem ringRoom.flitsInFlight_dqPush {f : Flit} {q : DelayQueue} (h : ringRoom q) :
    flitsInFlight (dqPush f q) = flitsInFlight q ++ [f] := Machine.flitsInFlight_dqPush h.1 h.2

/-- The last flit of the payload in progress leaves the link idle. -/
theorem emitFlit_of_last (h : l.off + 1 = l.nfl) :
    emitFlit l =
      { l with
        dq := dqPush { payload := l.cur, head := l.off == 0, tail := true } l.dq
        stats := { l.stats with flitsReal := l.stats.flitsReal + 1 }, cur := none, off := 0, nfl := 0 } := by
  simp [emitFlit, ← h]
  rfl

/-- Any other flit of it advances the offset. -/
theorem emitFlit_of_more (h : l.off + 1 < l.nfl) :
    emitFlit l =
      { l with
        dq := dqPush { payload := l.cur, head := l.off == 0, tail := false } l.dq
        stats := { l.stats with flitsReal := l.stats.flitsReal + 1 }, off := l.off + 1 } := by
  have htail : l.off ≠ l.nfl - 1 := by omega
  simp [emitFlit, h.ne, htail]
  rfl

/-- A packet of one flit is over with its first. -/
theorem emitFlit_startPacket_single (hleft : l.left < 128) (hone : 128 + bits - l.left ≤ 128) :
    emitFlit (startPacket d bits l) =
      { l with
        dq := dqPush { payload := some d, head := true, tail := true } l.dq
        stats := { l.stats with flitsReal := l.stats.flitsReal + 1, pktsSingle := l.stats.pktsSingle + 1 }
        left := (128 - (128 + bits - l.left) % 128) % 128, cur := none, off := 0, nfl := 0 } := by
  have hflits : packetFlits bits l.left = 1 := by rw [packetFlits]; omega
  rw [startPacket_eq, emitFlit_of_last hflits.symm, if_pos hflits]
  rfl

/-- A longer packet is in progress after its first flit. -/
theorem emitFlit_startPacket_multi (hmore : 128 < 128 + bits - l.left) :
    emitFlit (startPacket d bits l) =
      { l with
        dq := dqPush { payload := some d, head := true, tail := false } l.dq
        stats := { l.stats with flitsReal := l.stats.flitsReal + 1, pktsMulti := l.stats.pktsMulti + 1 }
        left := (128 - (128 + bits - l.left) % 128) % 128, cur := some d, off := 1
        nfl := (128 + bits - l.left + 127) / 128 } := by
  have hflits : 1 < packetFlits bits l.left := by rw [packetFlits]; omega
  rw [startPacket_eq, emitFlit_of_more hflits, if_neg hflits.ne']
  rfl

/-! ## Which case applies (R346) -/

theorem plainSource_of_first {rest : List Desc}
    (hs : firstRr p.nSrc l.rr (fun s => !(readyOf l s).plain.isEmpty) = some s)
    (hd : (readyOf l s).plain = d :: rest) : plainSource p l = some (s, d) := by
  simp [plainSource, hs, hd]

theorem plainSource_of_empty (hrr : l.rr < p.nSrc) (h : ∀ s < p.nSrc, (readyOf l s).plain = []) :
    plainSource p l = none := by
  have hnone := (firstRr_eq_none_iff (ok := fun s => !(readyOf l s).plain.isEmpty) hrr).mpr fun s hs => by simp [h s hs]
  rw [plainSource, hnone]

theorem shortSource_of_first {rest : List Desc} (hleft : l.left = 0)
    (hs : firstRr p.nSrc l.rr (fun s => !(readyOf l s).short.isEmpty) = some s)
    (hd : (readyOf l s).short = d :: rest) : shortSource p l = some (s, d) := by
  simp [shortSource, hleft, hs, hd]

theorem shortSource_of_not_eligible (hrr : l.rr < p.nSrc)
    (h : l.left ≠ 0 ∨ ∀ s < p.nSrc, (readyOf l s).short = []) : shortSource p l = none := by
  rcases h with hleft | hempty
  · rw [shortSource, if_pos hleft]
  · have hnone := (firstRr_eq_none_iff (ok := fun s => !(readyOf l s).short.isEmpty) hrr).mpr fun s hs => by
      simp [hempty s hs]
    rw [shortSource, hnone, ite_self]

theorem fillSlot_of_busy (h : l.cur = some d) : fillSlot p pol l = .ok (emitFlit l) := by
  simp [fillSlot, h]

/-- An idle compressed link goes by cases (b), (c) and (d). -/
theorem fillSlot_compressed (hpol : pol ≠ .plain) (hidle : l.cur = none) :
    fillSlot p pol l = fillSlot.fillCompressed p l := by
  cases pol with
  | plain => exact absurd rfl hpol
  | packed | unpacked => simp [fillSlot, hidle]

theorem fillSlot_short (hpol : pol ≠ .plain) (hidle : l.cur = none) (hs : shortSource p l = some (s, d)) :
    fillSlot p pol l = .ok (sendShort p s d l) := by
  rw [fillSlot_compressed hpol hidle, fillSlot.fillCompressed, hs]

theorem fillSlot_held {e : TsqEntry} (hpol : pol ≠ .plain) (hidle : l.cur = none) (hs : shortSource p l = none)
    (htop : tsqTop p.compLatency l.now l.tsq = some e) : fillSlot p pol l = sendHeld e l := by
  rw [fillSlot_compressed hpol hidle, fillSlot.fillCompressed, hs, htop]

theorem fillSlot_compressed_filler (hpol : pol ≠ .plain) (hidle : l.cur = none) (hs : shortSource p l = none)
    (htop : tsqTop p.compLatency l.now l.tsq = none) : fillSlot p pol l = .ok (pushFiller l) := by
  rw [fillSlot_compressed hpol hidle, fillSlot.fillCompressed, hs, htop]

theorem fillSlot_plain (hidle : l.cur = none) (hs : plainSource p l = some (s, d)) :
    fillSlot p .plain l = .ok (sendPlain p s d l) := by
  simp [fillSlot, hidle, hs]

theorem fillSlot_plain_filler (hidle : l.cur = none) (hs : plainSource p l = none) :
    fillSlot p .plain l = .ok (pushFiller l) := by
  simp [fillSlot, hidle, hs]

theorem tsqPop_of_pos {q : TimestampQueue} (h : 0 < q.n) :
    tsqPop q = .ok { q with entry := q.entry.set (q.rp % q.entry.length) none, rp := q.rp + 1, n := q.n - 1 } :=
  if_neg h.ne'

/-- The entry on top of the holder can be taken (R309). -/
theorem sendHeld_of_top {e : TsqEntry} {cl now : Nat} (htop : tsqTop cl now l.tsq = some e) :
    ∃ q, tsqPop l.tsq = .ok q ∧ q.n = l.tsq.n - 1 ∧
      sendHeld e l = .ok (emitFlit (startPacket e.payload e.size
        { modifyReady e.src (fun r => { r with long := .empty }) l with tsq := q })) := by
  have hpop := tsqPop_of_pos (tsqTop_some htop).1
  exact ⟨_, hpop, rfl, by rw [sendHeld, hpop]⟩

end Slot

/-! ## The cases -/

/-- Settles O38: a busy slot emits, and the flit is the last or it is not. -/
theorem slotContinuesThePayload : Obligations.SlotContinuesThePayload := by
  unfold Obligations.SlotContinuesThePayload
  intro p pol l d hcur hoff hroom
  refine ⟨emitFlit l, fillSlot_of_busy hcur, ?_⟩
  rcases Nat.lt_or_eq_of_le (Nat.succ_le_of_lt hoff) with hmore | hlast
  · rw [emitFlit_of_more hmore]
    refine ⟨rfl, rfl, rfl, ?_, rfl, fun h => absurd h hmore.ne, fun _ => ⟨hcur, rfl, rfl⟩⟩
    rw [hroom.flitsInFlight_dqPush, hcur, beq_eq_false_iff_ne.mpr hmore.ne]
  · rw [emitFlit_of_last hlast]
    refine ⟨rfl, rfl, rfl, ?_, rfl, fun _ => ⟨rfl, rfl, rfl⟩, fun h => absurd hlast h⟩
    rw [hroom.flitsInFlight_dqPush, hcur, beq_iff_eq.mpr hlast]

/-- Settles O39: with no leftover a short payload is a packet of one flit. -/
theorem slotSendsShortTraffic : Obligations.SlotSendsShortTraffic := by
  unfold Obligations.SlotSendsShortTraffic
  intro p pol l s d rest hpol hcur hleft hready hroom hs hd
  have hlt : s < l.ready.length := hready ▸ (firstRr_some hs).1
  refine ⟨_, fillSlot_short hpol hcur (shortSource_of_first hleft hs hd), ?_⟩
  rw [sendShort, emitFlit_startPacket_single (by simp [hleft]) (by simp)]
  refine ⟨hroom.flitsInFlight_dqPush, ?_, ?_, fun t ht => readyOf_modifyReady_other (l := l) ht, rfl⟩
  · simp [hcur, hleft]
  · exact (readyOf_modifyReady_same (l := l) hlt).trans (by rw [hd]; rfl)

/-- Settles O40: the held payload leaves the holder and is started, in one flit or in more. -/
theorem slotStartsTheHeldPayload : Obligations.SlotStartsTheHeldPayload := by
  unfold Obligations.SlotStartsTheHeldPayload
  intro p pol l e hpol hcur hrr hready hsrc hleft hroom hshort htop
  obtain ⟨q, -, hn, hsend⟩ := sendHeld_of_top htop
  have source : readyOf (modifyReady e.src (fun r => { r with long := .empty }) l) e.src =
      { readyOf l e.src with long := .empty } := readyOf_modifyReady_same (hready ▸ hsrc)
  refine ⟨_, (fillSlot_held hpol hcur (shortSource_of_not_eligible hrr hshort) htop).trans hsend, ?_⟩
  by_cases hone : 128 + e.size - l.left ≤ 128
  · rw [emitFlit_startPacket_single (by exact hleft) (by exact hone), decide_eq_true hone]
    exact ⟨hroom.flitsInFlight_dqPush, rfl, hn, rfl, source, fun t ht => readyOf_modifyReady_other (l := l) ht,
      fun hmore => absurd hone hmore.not_ge, fun _ => ⟨rfl, rfl, rfl, rfl⟩⟩
  · rw [emitFlit_startPacket_multi (by exact not_le.mp hone), decide_eq_false hone]
    exact ⟨hroom.flitsInFlight_dqPush, rfl, hn, rfl, source, fun t ht => readyOf_modifyReady_other (l := l) ht,
      fun _ => ⟨rfl, rfl, rfl, rfl⟩, fun h => absurd h hone⟩

/-- Settles O41: with no source to serve under the policy, only case (d) is left. -/
theorem slotFillsWithFiller : Obligations.SlotFillsWithFiller := by
  unfold Obligations.SlotFillsWithFiller
  intro p pol l hcur hrr hroom hplain hcompressed
  have hslot : fillSlot p pol l = .ok (pushFiller l) := by
    by_cases hpol : pol = .plain
    · subst hpol
      exact fillSlot_plain_filler hcur (plainSource_of_empty hrr (hplain rfl))
    · obtain ⟨hshort, htop⟩ := hcompressed hpol
      exact fillSlot_compressed_filler hpol hcur (shortSource_of_not_eligible hrr hshort) htop
  exact ⟨_, hslot, hroom.flitsInFlight_dqPush, rfl⟩

theorem plainBits_eq (d : Desc) : plainBits d = if isLong d then 128 * ((d.size.toNat * 8 + 127) / 128) else 0 := by
  rw [plainBits, roundUp, ceilDiv_128]

/-- Settles O42: behind no leftover, whole flits of payload leave none. -/
theorem slotSendsPlainTraffic : Obligations.SlotSendsPlainTraffic := by
  unfold Obligations.SlotSendsPlainTraffic
  intro p l s d rest hcur hleft hready hroom hs hd
  have hlt : s < l.ready.length := hready ▸ (firstRr_some hs).1
  have source : readyOf (modifyReady s (fun r => { r with plain := r.plain.drop 1 }) l) s =
      { readyOf l s with plain := rest } := (readyOf_modifyReady_same hlt).trans (by rw [hd]; rfl)
  have hmod : plainBits d % 128 = 0 := plainBits_mod d
  refine ⟨_, plainBits d, fillSlot_plain hcur (plainSource_of_first hs hd), plainBits_eq d, ?_⟩
  rw [sendPlain]
  by_cases hzero : plainBits d = 0
  · rw [emitFlit_startPacket_single (by simp [hleft]) (by simp [hzero]), decide_eq_true hzero]
    refine ⟨hroom.flitsInFlight_dqPush, ?_, source, fun t ht => readyOf_modifyReady_other (l := l) ht,
      fun h => absurd hzero h, fun _ => ⟨rfl, rfl, rfl, rfl⟩⟩
    simp [hleft, hzero]
  · rw [emitFlit_startPacket_multi (by simp [hleft]; omega), decide_eq_false hzero]
    refine ⟨hroom.flitsInFlight_dqPush, ?_, source, fun t ht => readyOf_modifyReady_other (l := l) ht,
      fun _ => ⟨rfl, rfl, ?_, rfl⟩, fun h => absurd h hzero⟩
    · simp [hleft, hmod]
    · simp only [hleft, modifyReady_left]
      omega

end Sys2Proof.Machine
end

/-! # The compression phase, case by case (R352 to R354) -/

section
namespace Sys2Proof.Machine

section CompressionPhase
variable {p : Params} {pol : Policy} {cat : List CatEntry} {mem : Memory} {m m' : WordMap StreamRecord} {l : Link}
  {s bits : Nat} {d : Desc} {c : Cause}

/-! ## The payload the phase serves (R352) -/

theorem isSome_pendingDesc_eq_false_iff {slot : LongSlot} :
    (pendingSource.pendingDesc slot).isSome = false ↔ ∀ d, slot ≠ .pending d := by
  cases slot <;> simp [pendingSource.pendingDesc]

theorem pendingSource_of_nothing (hcrr : l.crr < p.nSrc)
    (h : pol = .plain ∨ 0 < l.tsq.n ∨ ∀ s < p.nSrc, ∀ d, (readyOf l s).long ≠ .pending d) :
    pendingSource p pol l = none := by
  rw [← or_assoc] at h
  rcases h with hbusy | hnone
  · rw [pendingSource, if_pos hbusy]
  · have hfirst := (firstRr_eq_none_iff (ok := fun s => (pendingSource.pendingDesc (readyOf l s).long).isSome) hcrr).mpr
      fun s hs => isSome_pendingDesc_eq_false_iff.mpr (hnone s hs)
    rw [pendingSource, hfirst, ite_self]

theorem pendingSource_of_first (hpol : pol ≠ .plain) (hn : l.tsq.n = 0)
    (h : ∃ j < p.nSrc, s = (l.crr + j) % p.nSrc ∧ (readyOf l s).long = .pending d ∧
      ∀ i < j, ∀ d', (readyOf l ((l.crr + i) % p.nSrc)).long ≠ .pending d') :
    pendingSource p pol l = some (s, d) := by
  obtain ⟨j, hj, hs, hlong, hfirst⟩ := h
  have hserved : firstRr p.nSrc l.crr (fun s => (pendingSource.pendingDesc (readyOf l s).long).isSome) = some s :=
    firstRr_eq_some_iff.mpr ⟨j, hj, hs, by rw [hlong]; rfl,
      fun i hi => isSome_pendingDesc_eq_false_iff.mpr (hfirst i hi)⟩
  rw [pendingSource, if_neg (by simp [hpol, hn]), hserved]
  simp [hlong, pendingSource.pendingDesc]

/-! ## Its size (R353, R354) -/

theorem payloadBits_of_block (h : d.size.toNat = 128) :
    payloadBits p cat mem m d = compressBlock p cat m d.sid (memRead mem d.addr 128) := if_pos h

theorem payloadBits_of_other (h : d.size.toNat ≠ 128) : payloadBits p cat mem m d = .ok (d.size.toNat * 8, m) :=
  if_neg h

theorem heldBits_eq (pol : Policy) (bits : Nat) :
    heldBits pol bits = if pol = .unpacked then 128 * ((bits + 127) / 128) else bits := by
  cases pol with
  | plain | packed => rfl
  | unpacked => rw [heldBits, roundUp, ceilDiv_128, if_pos rfl]

/-! ## The phase -/

theorem compressionPhase_of_nothing (h : pendingSource p pol l = none) :
    compressionPhase p pol cat mem m l = .ok (l, m) := by
  rw [compressionPhase, h]

theorem compressionPhase_of_error (h : pendingSource p pol l = some (s, d))
    (hb : payloadBits p cat mem m d = .error c) :
    compressionPhase p pol cat mem m l = .error c := by
  simp only [compressionPhase, h, hb]

/-- A payload that is sized is held: the holder is empty when the phase serves one. -/
theorem compressionPhase_of_ok (h : pendingSource p pol l = some (s, d))
    (hb : payloadBits p cat mem m d = .ok (bits, m')) (hroom : l.tsq.entry ≠ []) :
    ∃ q, tsqPush d (heldBits pol bits) s l.now l.tsq = .ok q ∧
      compressionPhase p pol cat mem m l =
        .ok ({ modifyReady s (fun r => { r with long := .held }) l with tsq := q, crr := (s + 1) % p.nSrc }, m') := by
  have hn : l.tsq.n ≠ l.tsq.entry.length := by
    rw [(pendingSource_some h).2.1]
    exact (List.length_pos_iff.mpr hroom).ne
  obtain ⟨q, hq⟩ := tsqPush_of_room (d := d) (size := heldBits pol bits) (src := s) (now := l.now) hn
  exact ⟨q, hq, by simp only [compressionPhase, h, hb, hq]⟩

end CompressionPhase

/-- Settles O43: the phase serves the first pending payload of the cyclic order, and holds it if it can be sized. -/
theorem compressionPhaseHoldsOnePayload : Obligations.CompressionPhaseHoldsOnePayload := by
  unfold Obligations.CompressionPhaseHoldsOnePayload
  intro p pol cat mem m l hcrr hready hcursors hentry
  refine ⟨fun h => compressionPhase_of_nothing (pendingSource_of_nothing hcrr h),
    fun s d bits m' hpol hn hfirst hbits => ?_, fun s d c hpol hn hfirst hsize hc => ?_⟩
  · have hs := pendingSource_of_first hpol hn hfirst
    have hsized : payloadBits p cat mem m d = .ok (bits, m') := by
      rcases hbits with ⟨hsize, hc⟩ | ⟨hsize, rfl, rfl⟩
      · rw [payloadBits_of_block hsize, hc]
      · exact payloadBits_of_other hsize
    obtain ⟨q, hq, hphase⟩ := compressionPhase_of_ok hs hsized hentry
    have hlt : s < l.ready.length := hready ▸ (pendingSource_some hs).2.2.1
    refine ⟨_, hphase, rfl, ?_, rfl, readyOf_modifyReady_same (l := l) hlt,
      fun t ht => readyOf_modifyReady_other (l := l) ht⟩
    rw [← heldBits_eq]
    exact heldEntry_tsqPush hn (by omega) hq
  · exact compressionPhase_of_error (pendingSource_of_first hpol hn hfirst) ((payloadBits_of_block hsize).trans hc)

end Sys2Proof.Machine
end

/-! # The commands that push and pop a link (R342, R358), and the independence of the directions (R340) -/

section
namespace Sys2Proof.Machine

/-! ## `LINK_PUSH` (R342) -/

theorem isLong_iff_carriesData (q : Desc) : isLong q = true ↔ carriesData q := by
  rw [isLong, carriesData]
  cases q.type <;> simp

/-- The ready lists of a source with a payload admitted: on the list its policy and its class name (R51, R342). -/
def enqueue (pol : Policy) (d : Desc) (r : ReadyLists) : ReadyLists :=
  if pol = .plain then { r with plain := r.plain ++ [d] }
  else if isLong d then { r with long := .pending d }
  else { r with short := r.short ++ [d] }

/-- That list has room for it (R475). -/
def enqueueRoom (p : Params) (pol : Policy) (d : Desc) (r : ReadyLists) : Prop :=
  (pol = .plain → r.plain.length ≠ p.plainDepth) ∧ (pol ≠ .plain → isLong d = true → r.long = .empty) ∧
    (pol ≠ .plain → isLong d = false → r.short.length ≠ shortDepth)

section Accept
variable {p : Params} {pol : Policy} {l l' : Link} {src : Nat} {d : Desc}

theorem acceptPayload_compressed (hpol : pol ≠ .plain) :
    acceptPayload p pol src d l = acceptPayload.acceptByClass src d l := by
  cases pol with
  | plain => exact absurd rfl hpol
  | packed | unpacked => rfl

theorem enqueue_long (hpol : pol ≠ .plain) (hclass : isLong d = true) :
    enqueue pol d = fun r => { r with long := .pending d } := by
  funext r
  rw [enqueue, if_neg hpol, if_pos hclass]

theorem enqueue_short (hpol : pol ≠ .plain) (hclass : isLong d = false) :
    enqueue pol d = fun r => { r with short := r.short ++ [d] } := by
  funext r
  rw [enqueue, if_neg hpol, if_neg (by simp [hclass])]

theorem acceptPayload_of_room (h : enqueueRoom p pol d (readyOf l src)) :
    acceptPayload p pol src d l = .ok (modifyReady src (enqueue pol d) l) := by
  obtain ⟨hplain, hlong, hshort⟩ := h
  by_cases hpol : pol = .plain
  · subst hpol
    exact if_neg (hplain rfl)
  · rw [acceptPayload_compressed hpol, acceptPayload.acceptByClass]
    cases hclass : isLong d with
    | true => simp [hlong hpol hclass, enqueue_long hpol hclass]
    | false => simp [hshort hpol hclass, enqueue_short hpol hclass]

theorem acceptPayload_plain_full (hpol : pol = .plain) (h : (readyOf l src).plain.length = p.plainDepth) :
    acceptPayload p pol src d l = .error .readyListFull := by
  subst hpol
  exact if_pos h

theorem acceptPayload_long_busy (hpol : pol ≠ .plain) (hclass : isLong d = true)
    (h : (readyOf l src).long ≠ .empty) : acceptPayload p pol src d l = .error .longListOverflow := by
  rw [acceptPayload_compressed hpol, acceptPayload.acceptByClass, if_pos hclass, if_pos h]

theorem acceptPayload_short_full (hpol : pol ≠ .plain) (hclass : isLong d = false)
    (h : (readyOf l src).short.length = 4) : acceptPayload p pol src d l = .error .readyListFull := by
  rw [acceptPayload_compressed hpol, acceptPayload.acceptByClass, if_neg (by simp [hclass]), if_pos h]

/-- An admission found room. -/
theorem acceptPayload_ok_enqueue (h : acceptPayload p pol src d l = .ok l') :
    enqueueRoom p pol d (readyOf l src) ∧ l' = modifyReady src (enqueue pol d) l := by
  have hroom : enqueueRoom p pol d (readyOf l src) := by
    rcases acceptPayload_ok h with ⟨hpol, hfull, -⟩ | ⟨hpol, hlong, hempty, -⟩ | ⟨hpol, hshort, hfull, -⟩
    · exact ⟨fun _ => hfull, fun hne => absurd hpol hne, fun hne => absurd hpol hne⟩
    · exact ⟨fun he => absurd he hpol, fun _ _ => hempty, fun _ hs => by rw [hlong] at hs; cases hs⟩
    · exact ⟨fun he => absurd he hpol, fun _ hl => (by rw [hshort] at hl; cases hl), fun _ _ => hfull⟩
  rw [acceptPayload_of_room hroom] at h
  exact ⟨hroom, (Except.ok.inj h).symm⟩

end Accept

section PushRule
variable {s : State} {d : Dir} {idx : BitVec 16}

theorem linkPushRule_of_ok {l : Link} (hidx : idx.toNat < s.params.nSrc)
    (hdst : (decodeDesc s.ports.descIn).dst.toNat < s.params.nDst)
    (h : acceptPayload s.params (policyOf s.params d) idx.toNat (decodeDesc s.ports.descIn) (linkOf s.block d) =
      .ok l) :
    linkPushRule d idx s = .ok (answerNothing (setLink s.block d l)) := by
  rw [linkPushRule, if_neg (by omega), h]

theorem linkPushRule_of_error {c : Cause} (hidx : idx.toNat < s.params.nSrc)
    (hdst : (decodeDesc s.ports.descIn).dst.toNat < s.params.nDst)
    (h : acceptPayload s.params (policyOf s.params d) idx.toNat (decodeDesc s.ports.descIn) (linkOf s.block d) =
      .error c) :
    linkPushRule d idx s = .error c := by
  rw [linkPushRule, if_neg (by omega), h]

theorem linkPushRule_of_badIndex
    (h : s.params.nSrc ≤ idx.toNat ∨ s.params.nDst ≤ (decodeDesc s.ports.descIn).dst.toNat) :
    linkPushRule d idx s = .error .badIndex := if_pos h

end PushRule

/-- A command that writes a link and answers nothing, as the statements spell it. -/
theorem answerNothing_setLink (s : State) (d : Dir) (l : Link) :
    { s with block := answerNothing (setLink s.block d l) } = withLink d l (returningNothing s) := by
  cases d <;> rfl

theorem policyOf_eq_ite (p : Params) (d : Dir) : policyOf p d = if d = .up then p.policyUp else p.policyDn := by
  cases d <;> rfl

/-- Settles O44: a push with room changes its source's ready lists alone, by the list the payload belongs to. -/
theorem linkPushAdmitsThePayload : Obligations.LinkPushAdmitsThePayload := by
  unfold Obligations.LinkPushAdmitsThePayload
  refine ⟨fun p => ⟨rfl, rfl⟩, isLong_iff_carriesData, fun s d idx hl hallowed hready => ?_⟩
  obtain ⟨hidx, hdst, hroom⟩ := hallowed
  refine ⟨modifyReady idx.toNat (enqueue (policyOf s.params d) (decodeDesc s.ports.descIn)) (linkOf s.block d),
    ?_, rfl, fun t ht => readyOf_modifyReady_other ht, ?_⟩
  · rw [← answerNothing_setLink]
    exact exec_of_rule_ok hl (linkPushRule_of_ok hidx hdst (acceptPayload_of_room hroom))
  · rw [readyOf_modifyReady_same (by rw [hready]; exact hidx), enqueue, policyOf_eq_ite]
    simp only [isLong_iff_carriesData]

/-- A command's word, for a link command on `d`. -/
theorem encode_linkCommand {i : Instr} {d : Dir} (h : dirBitOf i = bitOfDir d) :
    encode i = commandWord (opcodeOf i).toNat (dirNumber d) (idxOf i) := by
  rw [encode_eq_commandWord, h, dirNumber_eq_bitOfDir]

/-- Settles O45: the rule checks the indexes, then the list the payload belongs to. -/
theorem linkPushFatalErrors : Obligations.LinkPushFatalErrors := by
  unfold Obligations.LinkPushFatalErrors
  intro s d idx hl
  refine ⟨encode_linkCommand rfl, fun hbad => exec_of_rule_error hl (linkPushRule_of_badIndex hbad),
    fun hidx hdst => ⟨fun hpol hfull => ?_, fun hpol hclass hbusy => ?_, fun hpol hclass hfull => ?_⟩⟩
  · exact exec_of_rule_error hl (linkPushRule_of_error hidx hdst (acceptPayload_plain_full hpol hfull))
  · exact exec_of_rule_error hl (linkPushRule_of_error hidx hdst (acceptPayload_long_busy hpol hclass hbusy))
  · exact exec_of_rule_error hl (linkPushRule_of_error hidx hdst (acceptPayload_short_full hpol hclass hfull))

/-! ## `LINK_POP` (R358) -/

theorem lt_length_of_complOf_eq_cons {l : Link} {t : Nat} {q : Desc} {rest : List Desc}
    (h : complOf l t = q :: rest) : t < l.compl.length := by
  by_contra hge
  rw [complOf, List.getD_eq_default _ _ (not_lt.mp hge)] at h
  cases h

section PopRule
variable {s : State} {d : Dir} {idx : BitVec 16}

theorem linkPopRule_of_cons {q : Desc} {rest : List Desc} (hidx : idx.toNat < s.params.nDst)
    (h : complOf (linkOf s.block d) idx.toNat = q :: rest) :
    linkPopRule d idx s =
      .ok (answer 1
        { setLink s.block d
            { linkOf s.block d with compl := (linkOf s.block d).compl.modify idx.toNat (List.drop 1) } with
          descOut := encodeDesc q }) := by
  rw [linkPopRule, if_neg (not_le.mpr hidx), h]

theorem linkPopRule_of_nil (hidx : idx.toNat < s.params.nDst)
    (h : complOf (linkOf s.block d) idx.toNat = []) : linkPopRule d idx s = .ok (answerNothing s.block) := by
  rw [linkPopRule, if_neg (not_le.mpr hidx), h]

end PopRule

/-- Settles O49: the list is empty or its head leaves it; an index out of range fails the index check. -/
theorem linkPopDeliversTheOldest : Obligations.LinkPopDeliversTheOldest := by
  unfold Obligations.LinkPopDeliversTheOldest
  intro s d idx hl
  refine ⟨encode_linkCommand rfl, fun q rest hidx hq => ?_, fun hidx hempty => ?_, fun hidx => ?_⟩
  · refine ⟨{ linkOf s.block d with compl := (linkOf s.block d).compl.modify idx.toNat (List.drop 1) }, _,
      exec_of_rule_ok hl (linkPopRule_of_cons hidx hq), ?_, rfl, ?_, fun u hu => complOf_modify_other hu⟩
    · cases d <;> rfl
    · rw [complOf_modify_same (lt_length_of_complOf_eq_cons hq), hq, List.drop_one, List.tail_cons]
  · exact exec_of_rule_ok hl (linkPopRule_of_nil hidx hempty)
  · exact exec_of_not_wellFormed hl (by simpa [wellFormed] using hidx)

/-! ## The two directions (R340) -/

section OtherDirection
variable {s t : State} {d : Dir} {l : Link} {i : Instr}

@[simp] theorem linkOf_setLink_otherDir (b : Block) (d : Dir) (l : Link) :
    linkOf (setLink b (otherDir d) l) d = linkOf b d := by cases d <;> rfl

/-- Writing the link that is there changes nothing. -/
theorem withLink_linkOf (d : Dir) (s : State) : withLink d (linkOf s.block d) s = s := by cases d <;> rfl

theorem raiseFatal_setLink (c : Cause) (w : CmdWord) (b : Block) (d : Dir) (l : Link) :
    raiseFatal c w (setLink b d l) = setLink (raiseFatal c w b) d l := by cases d <;> rfl

/-- The rule of a command on `d` in a state with another link on the other side: it reads the same, so it has the same
outcome, and its writes leave that link beside them. -/
theorem ruleOf_withLink_otherDir (h : commandDir i = some d) (l : Link) (s : State) :
    ruleOf i (withLink (otherDir d) l s) = (ruleOf i s).map fun b => setLink b (otherDir d) l := by
  cases i with
  | nop | pred | matchPat | compress | profRead | profGlobal | catRead | winRead => cases h
  | linkPush e idx =>
    cases h
    simp only [ruleOf, linkPushRule, withLink, linkOf_setLink_otherDir]
    split
    · rfl
    · split
      · rfl
      · cases d <;> rfl
  | linkStep e idx =>
    cases h
    simp only [ruleOf, linkStepRule, withLink, linkOf_setLink_otherDir, setLink_cat, setLink_streams]
    split
    · rfl
    · cases d <;> rfl
  | linkPop e idx =>
    cases h
    simp only [ruleOf, linkPopRule, withLink, linkOf_setLink_otherDir]
    split
    · rfl
    · split <;> cases d <;> rfl
  | linkStat e idx | linkSrcstat e idx =>
    cases h
    simp only [ruleOf, linkStatRule, linkSrcstatRule, withLink, linkOf_setLink_otherDir]
    split
    · rfl
    · cases d <;> rfl

/-- Taking effect neither reads a link nor writes one. -/
theorem issue_withLink {w : CmdWord} {r : Except Cause Block} (e : Dir) (l : Link) (h : issue w r s = .next t) :
    issue w (r.map fun b => setLink b e l) (withLink e l s) = .next (withLink e l t) := by
  have flag : (withLink e l s).block.status = s.block.status := setLink_status s.block e l
  rcases issue_cases h with ⟨hf, rfl⟩ | ⟨hl, b, rfl, rfl⟩ | ⟨hl, c, rfl, rfl⟩
  · exact issue_fatal (by rw [flag, hf])
  · exact issue_ok (by rw [flag, hl])
  · refine (issue_error (by rw [flag, hl])).trans ?_
    simp only [withLink, raiseFatal_setLink]

theorem exec_withLink_otherDir (h : commandDir i = some d) (ht : exec i s = .next t) (l : Link) :
    exec i (withLink (otherDir d) l s) = .next (withLink (otherDir d) l t) := by
  rw [exec_eq_issue] at ht ⊢
  rw [ruleOf_withLink_otherDir h]
  exact issue_withLink _ _ ht

/-- A command on `d` leaves the other link: put the link that is there beside it, and it is there after. -/
theorem exec_linkOf_otherDir (h : commandDir i = some d) (ht : exec i s = .next t) :
    linkOf t.block (otherDir d) = linkOf s.block (otherDir d) := by
  have same := exec_withLink_otherDir h ht (linkOf s.block (otherDir d))
  rw [withLink_linkOf, ht] at same
  rw [Host.Outcome.next.inj same]
  exact linkOf_setLink _ _ _

end OtherDirection

/-- Settles O52: the rule of a command on `d` neither reads nor writes the other link. -/
theorem directionsAreIndependent : Obligations.DirectionsAreIndependent := by
  unfold Obligations.DirectionsAreIndependent
  intro i d s l h
  obtain ⟨b, hb⟩ := exec_next i s
  exact ⟨_, hb, exec_linkOf_otherDir h hb, exec_withLink_otherDir h hb l⟩

end Sys2Proof.Machine
end

/-! # `LINK_STEP`: when each phase raises, what a step that completes does, and the conservation of flits (R343, R344,
R357, R435) -/

section
namespace Sys2Proof.Machine

/-! ## The phases in order (R343): the first that raises is the step's error -/

section Phases
variable {p : Params} {pol : Policy} {cat : List CatEntry} {mem : Memory} {rate : BitVec 32}
  {m m' : WordMap StreamRecord} {l l' popped pushed held : Link} {k : Nat} {acc : BitVec 16} {c : Cause}

theorem stepLink_of_budget_error (hb : budget p l.acc rate = .error c) :
    stepLink p pol cat mem rate m l = .error c := by
  simp only [stepLink, hb]

theorem stepLink_of_popPhase_error (hb : budget p l.acc rate = .ok (k, acc))
    (hp : popPhase p k { l with acc := acc } = .error c) : stepLink p pol cat mem rate m l = .error c := by
  simp only [stepLink, hb, hp]

theorem stepLink_of_compressionPhase_error (hb : budget p l.acc rate = .ok (k, acc))
    (hp : popPhase p k { l with acc := acc } = .ok popped) (hf : pushPhase p pol k popped = .ok pushed)
    (hc : compressionPhase p pol cat mem m
      { pushed with stats := { pushed.stats with flitsTotal := pushed.stats.flitsTotal + k } } = .error c) :
    stepLink p pol cat mem rate m l = .error c := by
  simp only [stepLink, hb, hp, hf, hc]

theorem stepLink_of_phases (hb : budget p l.acc rate = .ok (k, acc))
    (hp : popPhase p k { l with acc := acc } = .ok popped) (hf : pushPhase p pol k popped = .ok pushed)
    (hc : compressionPhase p pol cat mem m
      { pushed with stats := { pushed.stats with flitsTotal := pushed.stats.flitsTotal + k } } = .ok (held, m')) :
    stepLink p pol cat mem rate m l = .ok (k, { held with now := held.now + 1 }, m') := by
  simp only [stepLink, hb, hp, hf, hc]

/-- Past the budget, no phase raises `DQ_OVERRUN`. -/
theorem stepLink_ne_dqOverrun (hb : budget p l.acc rate = .ok (k, acc)) :
    stepLink p pol cat mem rate m l ≠ .error .dqOverrun := by
  cases hp : popPhase p k { l with acc := acc } with
  | error c =>
    rw [stepLink_of_popPhase_error hb hp, popPhase_error hp]
    exact fun h => nomatch h
  | ok popped =>
    cases hf : pushPhase p pol k popped with
    | error c => exact absurd hf (pushPhase_ne_error p pol k popped c)
    | ok pushed =>
      cases hc : compressionPhase p pol cat mem m
          { pushed with stats := { pushed.stats with flitsTotal := pushed.stats.flitsTotal + k } } with
      | ok held => exact fun h => by rw [stepLink_of_phases hb hp hf hc] at h; cases h
      | error c =>
        rw [stepLink_of_compressionPhase_error hb hp hf hc]
        obtain ⟨-, -, -, ⟨rfl, -⟩ | ⟨rfl, -⟩⟩ := compressionPhase_error hc <;> exact fun h => nomatch h

theorem exists_pushPhase_ok (p : Params) (pol : Policy) (k : Nat) (l : Link) :
    ∃ l', pushPhase p pol k l = .ok l' := by
  cases h : pushPhase p pol k l with
  | error c => exact absurd h (pushPhase_ne_error p pol k l c)
  | ok l' => exact ⟨l', rfl⟩

/-- A step moves its budget through `DQ`, carries the fraction of a flit on, and counts one step. -/
theorem stepLink_counters (h : stepLink p pol cat mem rate m l = .ok (k, l', m')) :
    k * 2 ^ 16 + l'.acc.toNat = l.acc.toNat + rate.toNat ∧ l'.now = l.now + 1 ∧
      l'.stats.flitsTotal = l.stats.flitsTotal + k ∧ l'.dq.rp = l.dq.rp + k ∧ l'.dq.wp = l.dq.wp + k := by
  obtain ⟨acc, popped, pushed, held, hb, hpop, hpush, hcomp, rfl⟩ := stepLink_ok h
  obtain ⟨hk, -, hacc⟩ := budget_ok hb
  obtain ⟨prp, pwp, pstats, pacc, pnow⟩ := popPhase_counters hpop
  obtain ⟨urp, uwp, utotal, -, uacc, unow⟩ := pushPhase_counters hpush
  obtain ⟨cdq, cstats, cacc, cnow⟩ := compressionPhase_counters hcomp
  simp only at prp pwp pacc pnow cdq cacc cnow
  simp only [cdq, cstats, cacc, cnow, uacc, pacc, unow, pnow, utotal, pstats, true_and]
  omega

end Phases

/-! ## The budget (R344, R476) -/

theorem budget_eq_ok_iff {p : Params} {acc acc' : BitVec 16} {rate : BitVec 32} {k : Nat} :
    budget p acc rate = .ok (k, acc') ↔
      k = (acc.toNat + rate.toNat) / 2 ^ 16 ∧ k ≤ p.dqLatency ∧
        k * 2 ^ 16 + acc'.toNat = acc.toNat + rate.toNat := by
  constructor
  · intro h
    obtain ⟨hk, hle, hacc⟩ := budget_ok h
    exact ⟨hk, hle, by omega⟩
  · rintro ⟨rfl, hle, hacc⟩
    cases h : budget p acc rate with
    | error c => exact absurd (budget_error h).2 (not_lt.mpr hle)
    | ok r =>
      obtain ⟨k, a⟩ := r
      obtain ⟨rfl, -, ha⟩ := budget_ok h
      have same : a = acc' := BitVec.eq_of_toNat_eq (by omega)
      rw [same]

section StepRule
variable {s t : State} {d : Dir} {idx : BitVec 16}

theorem linkStepRule_of_ok {k : Nat} {l : Link} {m : WordMap StreamRecord}
    (h : stepLink s.params (policyOf s.params d) s.block.cat s.mem s.ports.rate s.block.streams (linkOf s.block d) =
      .ok (k, l, m)) :
    linkStepRule d s = .ok (answer (BitVec.ofNat 64 k) { setLink s.block d l with streams := m }) := by
  simp only [linkStepRule, h]

theorem linkStepRule_eq_error_iff {c : Cause} :
    linkStepRule d s = .error c ↔
      stepLink s.params (policyOf s.params d) s.block.cat s.mem s.ports.rate s.block.streams (linkOf s.block d) =
        .error c := by
  unfold linkStepRule
  split
  · next c' h => simp [h]
  · next k l m h => simp [h]

theorem linkStepRule_ok {b : Block} (h : linkStepRule d s = .ok b) :
    ∃ k l m,
      stepLink s.params (policyOf s.params d) s.block.cat s.mem s.ports.rate s.block.streams (linkOf s.block d) =
        .ok (k, l, m) ∧
      b = answer (BitVec.ofNat 64 k) { setLink s.block d l with streams := m } := by
  unfold linkStepRule at h
  split at h
  · cases h
  · next k l m hl => exact ⟨k, l, m, hl, (Except.ok.inj h).symm⟩

/-- A command that goes on live completed its rule. -/
theorem ruleOf_of_exec_live {i : Instr} (hl : live s) (h : exec i s = .next t) (ht : live t) :
    ∃ b, ruleOf i s = .ok b ∧ t = { s with block := b } := by
  rcases exec_live_cases hl h with done | ⟨c, -, rfl⟩
  · exact done
  · cases ht

/-- A command that leaves the state of a cause raised that cause. -/
theorem ruleOf_of_exec_raised {i : Instr} {c : Cause} {w : CmdWord} (hl : live s)
    (h : exec i s = .next (raised c w s)) : ruleOf i s = .error c := by
  rcases exec_live_cases hl h with ⟨b, hb, ht⟩ | ⟨c', hc, ht⟩
  · obtain ⟨b', hw, hr⟩ := ruleOf_ok hb
    have fatal : b.status.fatal = true := congrArg (fun t => t.block.status.fatal) ht.symm
    have kept : b.status.fatal = b'.status.fatal := by rcases hr with rfl | ⟨v, rfl⟩ <;> rfl
    rw [kept, hw.status, hl] at fatal
    cases fatal
  · have cause : c = c' := congrArg (fun t => t.block.status.cause) ht
    rw [hc, cause]

theorem budget_of_rateAllowed (h : rateAllowed s d) :
    budget s.params (linkOf s.block d).acc s.ports.rate = .ok (stepBudget s d, stepFraction s d) :=
  budget_ok_iff.mpr ⟨h, rfl, rfl⟩

/-- Without room for its flits a step raises `DQ_OVERRUN`. -/
theorem budget_eq_error_iff :
    budget s.params (linkOf s.block d).acc s.ports.rate = .error .dqOverrun ↔ ¬ rateAllowed s d := by
  cases h : budget s.params (linkOf s.block d).acc s.ports.rate with
  | ok r => simp [(budget_ok_iff.mp h).1]
  | error c =>
    obtain ⟨rfl, -⟩ := budget_error h
    simp only [true_iff]
    intro hrate
    rw [budget_of_rateAllowed hrate] at h
    cases h

end StepRule

/-- Settles O47: the budget is the first check of a step, and the only one that raises `DQ_OVERRUN`. -/
theorem stepBudgetAndOverrun : Obligations.StepBudgetAndOverrun := by
  unfold Obligations.StepBudgetAndOverrun
  refine ⟨fun _ _ _ _ _ => budget_eq_ok_iff, fun s d idx hl => ⟨encode_linkCommand rfl, fun h hrate => ?_, fun h => ?_⟩⟩
  · exact stepLink_ne_dqOverrun (budget_of_rateAllowed hrate)
      (linkStepRule_eq_error_iff.mp (ruleOf_of_exec_raised hl h))
  · exact exec_of_rule_error hl (linkStepRule_eq_error_iff.mpr (stepLink_of_budget_error (budget_eq_error_iff.mpr h)))

/-! ## The conservation of flits (R357) -/

/-- From `s` to `t` the counters of link `d` grow by the steps of these rates, and agree. -/
def countsGrow (d : Dir) (s t : State) (rates : List Nat) : Prop :=
  flitCounts t.params (linkOf t.block d) ∧
    (linkOf t.block d).now = (linkOf s.block d).now + rates.length ∧
    2 ^ 16 * (linkOf t.block d).stats.flitsTotal + (linkOf t.block d).acc.toNat =
      2 ^ 16 * (linkOf s.block d).stats.flitsTotal + (linkOf s.block d).acc.toNat + rates.sum

section Conservation
variable {s t u : State} {d : Dir} {i : Instr}

theorem countsGrow.trans {xs ys : List Nat} (h : countsGrow d s u xs) (h' : countsGrow d u t ys) :
    countsGrow d s t (xs ++ ys) := by
  obtain ⟨-, hnow, hsum⟩ := h
  obtain ⟨hcounts, hnow', hsum'⟩ := h'
  refine ⟨hcounts, ?_, ?_⟩
  · rw [List.length_append]
    omega
  · rw [List.sum_append]
    omega

/-- No write but a step's touches what the counters are read from. -/
theorem Writes.link_counters {b : Block} (h : Writes s i b) (hi : ∀ idx, i ≠ .linkStep d idx) :
    (linkOf b d).dq = (linkOf s.block d).dq ∧ (linkOf b d).stats = (linkOf s.block d).stats ∧
      (linkOf b d).acc = (linkOf s.block d).acc ∧ (linkOf b d).now = (linkOf s.block d).now := by
  by_cases hpush : ∃ idx, i = .linkPush d idx
  · obtain ⟨idx, rfl⟩ := hpush
    rw [h.linkPush_link]
    exact ⟨rfl, rfl, rfl, rfl⟩
  · by_cases hpop : ∃ idx, i = .linkPop d idx
    · obtain ⟨idx, rfl⟩ := hpop
      rw [h.linkPop_link]
      exact ⟨rfl, rfl, rfl, rfl⟩
    · rw [h.link (not_exists.mp hpush) hi (not_exists.mp hpop)]
      exact ⟨rfl, rfl, rfl, rfl⟩

theorem stepRate_linkStep (d : Dir) (idx : BitVec 16) (ports : Ports) :
    stepRate d (.linkStep d idx, ports) = some ports.rate.toNat := if_pos rfl

theorem stepRate_of_ne (ports : Ports) (hi : ∀ idx, i ≠ .linkStep d idx) : stepRate d (i, ports) = none := by
  cases i with
  | linkStep e idx => exact if_neg fun he => hi idx (by rw [he])
  | _ => rfl

/-- A step that raises nothing adds its rate. -/
theorem linkStep_countsGrow {idx : BitVec 16} (hl : live s) (hc : flitCounts s.params (linkOf s.block d))
    (h : exec (.linkStep d idx) s = .next t) (ht : live t) : countsGrow d s t [s.ports.rate.toNat] := by
  obtain ⟨b, hb, rfl⟩ := ruleOf_of_exec_live hl h ht
  obtain ⟨k, l, m, hstep, rfl⟩ := linkStepRule_ok hb
  obtain ⟨hbudget, hnow, htotal, -, -⟩ := stepLink_counters hstep
  simp only [countsGrow, linkOf_answer, linkOf_with_streams, linkOf_setLink, List.length_singleton, List.sum_singleton]
  exact ⟨stepLink_flitCounts hc hstep, hnow, by omega⟩

/-- Any other command adds nothing. -/
theorem other_countsGrow (hi : ∀ idx, i ≠ .linkStep d idx) (hl : live s)
    (hc : flitCounts s.params (linkOf s.block d)) (h : exec i s = .next t) (ht : live t) : countsGrow d s t [] := by
  obtain ⟨b, b', hw, hr, rfl⟩ := exec_live_writes hl h ht
  obtain ⟨hdq, hstats, hacc, hnow⟩ := hw.link_counters hi
  have link : linkOf b d = linkOf b' d := by rcases hr with rfl | ⟨v, rfl⟩ <;> simp
  simp only [countsGrow, flitCounts, link, hdq, hstats, hacc, hnow]
  exact ⟨hc, rfl, rfl⟩

theorem exec_countsGrow {c : Instr × Ports} (hl : live s) (hc : flitCounts s.params (linkOf s.block d))
    (h : exec c.1 { s with ports := c.2 } = .next u) (hu : live u) : countsGrow d s u (stepRate d c).toList := by
  obtain ⟨i, ports⟩ := c
  by_cases hstep : ∃ idx, i = .linkStep d idx
  · obtain ⟨idx, rfl⟩ := hstep
    rw [stepRate_linkStep]
    exact linkStep_countsGrow (s := { s with ports := ports }) hl hc h hu
  · rw [stepRate_of_ne ports (not_exists.mp hstep)]
    exact other_countsGrow (s := { s with ports := ports }) (not_exists.mp hstep) hl hc h hu

theorem runCommands_countsGrow {cs : List (Instr × Ports)} (hl : live s)
    (hc : flitCounts s.params (linkOf s.block d)) (h : runCommands cs s t) :
    countsGrow d s t (cs.filterMap (stepRate d)) := by
  induction cs generalizing s with
  | nil =>
    obtain rfl : t = s := h
    exact ⟨hc, rfl, rfl⟩
  | cons c rest ih =>
    obtain ⟨u, hexec, hu, hrest⟩ := h
    have first := exec_countsGrow hl hc hexec hu
    have all := first.trans (ih hu first.1 hrest)
    cases hrate : stepRate d c with
    | none => rwa [hrate, Option.toList_none, List.nil_append, ← List.filterMap_cons_none hrate] at all
    | some r => rwa [hrate, Option.toList_some, List.singleton_append, ← List.filterMap_cons_some hrate] at all

end Conservation

/-- Settles O48: one step by its phases, then the commands one by one. -/
theorem flitConservation : Obligations.FlitConservation := by
  unfold Obligations.FlitConservation
  refine ⟨fun p pol cat mem rate m m' l l' k hc h => ?_, fun cs s t d hl hc h => ?_⟩
  · obtain ⟨hbudget, hnow, htotal, -, -⟩ := stepLink_counters h
    exact ⟨stepLink_flitCounts hc h, htotal, hnow, by omega⟩
  · obtain ⟨hcounts, hnow, hsum⟩ := runCommands_countsGrow hl hc h
    refine ⟨hcounts, hnow, hsum, fun htotal hacc => ?_⟩
    have := (linkOf t.block d).acc.isLt
    have hacc : (linkOf s.block d).acc.toNat = 0 := congrArg BitVec.toNat hacc
    omega

end Sys2Proof.Machine
end

/-! # When `LINK_STEP` completes: room for what its pops deliver and for the stream it compresses (R343, R345, R352,
R435, R479) -/

section
namespace Sys2Proof.Machine

/-! ## The pop phase and the completion lists (R345) -/

/-- The completion lists of a link have room for these payloads, each on its destination's list. -/
def deliveryRoom (p : Params) (l : Link) (ds : List Desc) : Prop :=
  ∀ c, p.complDepth = some c → ∀ t < p.nDst,
    (complOf l t).length + (ds.filter fun q => q.dst.toNat == t).length ≤ c

theorem completionRoom_iff_deliveryRoom {s : State} {d : Dir} :
    completionRoom s d ↔ deliveryRoom s.params (linkOf s.block d) (deliveries s d) := Iff.rfl

section PopPhase
variable {p : Params} {pol : Policy} {l : Link} {d : Desc} {ds : List Desc}

theorem complOf_length_le {c t : Nat} (h : LinkLists p pol l) (hc : p.complDepth = some c) :
    (complOf l t).length ≤ c := by
  by_cases ht : t < l.compl.length
  · rw [complOf, List.getD_eq_getElem _ _ ht]
    exact h.compl_le c hc _ (List.getElem_mem ht)
  · rw [complOf, List.getD_eq_default _ _ (not_lt.mp ht)]
    exact Nat.zero_le c

/-- After a delivery there is room for the rest exactly when there was room for all. -/
theorem deliveryRoom_after_delivery (hd : d.dst.toNat < l.compl.length) :
    deliveryRoom p { l with compl := l.compl.modify d.dst.toNat (· ++ [d]) } ds ↔ deliveryRoom p l (d :: ds) := by
  refine forall_congr' fun c => forall_congr' fun _ => forall_congr' fun t => forall_congr' fun _ => ?_
  by_cases ht : t = d.dst.toNat
  · subst ht
    rw [complOf_modify_same hd, List.filter_cons_of_pos (by simp), List.length_append, List.length_singleton,
      List.length_cons]
    omega
  · rw [complOf_modify_other ht, List.filter_cons_of_neg (by simpa using Ne.symm ht)]

/-- A full list has no room. -/
theorem not_deliveryRoom_of_full (hd : d.dst.toNat < p.nDst)
    (hfull : p.complDepth = some (complOf l d.dst.toNat).length) :
    ¬ deliveryRoom p l (d :: ds) := by
  intro h
  have := h _ hfull _ hd
  rw [List.filter_cons_of_pos (by simp), List.length_cons] at this
  omega

theorem popPhase_succ_of_ok {k : Nat} {l' : Link} (h : popOnce p l = .ok l') :
    popPhase p (k + 1) l = popPhase p k l' := by
  simp only [popPhase, h]

theorem popPhase_succ_of_error {k : Nat} {c : Cause} (h : popOnce p l = .error c) :
    popPhase p (k + 1) l = .error c := by
  simp only [popPhase, h]

/-- The pops of the oldest flits raise nothing exactly when the lists have room for what those flits deliver. -/
theorem popPhase_ok_iff_deliveryRoom {n : Nat} {fs gs : List Flit} (h : LinkCore p pol l)
    (hq : InFlight n (fs ++ gs) l.dq) :
    (∃ l', popPhase p fs.length l = .ok l') ↔ deliveryRoom p l (fs.filterMap flitDelivers) := by
  induction fs generalizing l with
  | nil => exact iff_of_true ⟨l, rfl⟩ fun c hc t _ => complOf_length_le h.toLinkLists hc
  | cons f fs ih =>
    obtain ⟨hpop, hrest⟩ := hq.pop
    cases hf : flitDelivers f with
    | none =>
      have hone := popOnce_of_no_delivery (p := p) (hpop.trans hf)
      rw [List.length_cons, popPhase_succ_of_ok hone, List.filterMap_cons_none hf, ih (h.after_popOnce hone) hrest]
      exact Iff.rfl
    | some d =>
      have hd := hpop.trans hf
      have hdst : d.dst.toNat < p.nDst := h.flight_dst f (by rw [hq.flits]; exact List.mem_cons_self) d hf
      rw [List.length_cons, List.filterMap_cons_some hf]
      cases hcap : atCapacity (complOf l d.dst.toNat).length p.complDepth with
      | false =>
        have hone := popOnce_of_delivery hd hcap
        rw [popPhase_succ_of_ok hone, ih (h.after_popOnce hone) hrest]
        exact deliveryRoom_after_delivery (l := { l with dq := (dqPop l.dq).2 }) (h.compl_length ▸ hdst)
      | true =>
        rw [popPhase_succ_of_error (popOnce_of_full hd hcap)]
        exact iff_of_false (by simp) (not_deliveryRoom_of_full hdst (atCapacity_eq_true_iff.mp hcap))

end PopPhase

/-! ## The compression phase and the stream table (R260, R352) -/

section StreamTable
variable {p : Params} {cat : List CatEntry} {mem : Memory} {m : WordMap StreamRecord} {q : Desc} {c : Cause}

/-- Sizing a payload fails only for a new stream of a full table. -/
theorem payloadBits_error (h : payloadBits p cat mem m q = .error c) :
    c = .streamTableFull ∧ q.size.toNat = blockBytes ∧ mapGet m q.sid = none ∧ p.maxStreams = some m.length := by
  by_cases hsize : q.size.toNat = blockBytes
  · rw [payloadBits_of_block hsize] at h
    obtain ⟨hc, hget, hfull⟩ := lookupOrCreate_error (compressBlock_error h)
    exact ⟨hc, hsize, hget, atCapacity_eq_true_iff.mp hfull⟩
  · rw [payloadBits_of_other hsize] at h
    cases h

/-- Sizing a payload writes the record of its stream alone, and none if it is not compressed. -/
theorem payloadBits_streams {m' : WordMap StreamRecord} {bits : Nat} (h : payloadBits p cat mem m q = .ok (bits, m')) :
    (∀ sid, sid ≠ q.sid → mapGet m' sid = mapGet m sid) ∧ (q.size.toNat ≠ blockBytes → m' = m) := by
  rcases payloadBits_ok h with ⟨hsize, hc⟩ | ⟨-, -, rfl⟩
  · obtain ⟨st, -, -, rfl⟩ := compressBlock_ok hc
    exact ⟨fun sid hsid => mapGet_mapSet_other _ _ hsid, fun hne => absurd hsize hne⟩
  · exact ⟨fun _ _ => rfl, fun _ => rfl⟩

end StreamTable

/-! ## A step in a state that meets the invariants -/

section Step
variable {s : State} {d : Dir}

/-- What leads to the payload pending after the push phase, the budget met: `k` pops, then `k` flit slots (R343). -/
def stepPhases (s : State) (d : Dir) (popped pushed : Link) : Prop :=
  popPhase s.params (stepBudget s d) { linkOf s.block d with acc := stepFraction s d } = .ok popped ∧
    pushPhase s.params (policyOf s.params d) (stepBudget s d) popped = .ok pushed

theorem stepCompresses_of_phases {popped pushed : Link} {src : Nat} {q : Desc} (hrate : rateAllowed s d)
    (h : stepPhases s d popped pushed) (hq : pendingSource s.params (policyOf s.params d) pushed = some (src, q))
    (hsize : q.size.toNat = blockBytes) :
    stepCompresses s.params (policyOf s.params d) s.ports.rate (linkOf s.block d) = some q :=
  stepCompresses_eq_some_iff.mpr
    ⟨_, _, popped, pushed, src, budget_of_rateAllowed hrate, h.1, h.2, hq, hsize⟩

theorem phases_of_stepCompresses {q : Desc}
    (h : stepCompresses s.params (policyOf s.params d) s.ports.rate (linkOf s.block d) = some q) :
    ∃ popped pushed src, stepPhases s d popped pushed ∧
      pendingSource s.params (policyOf s.params d) pushed = some (src, q) ∧ q.size.toNat = blockBytes := by
  obtain ⟨k, acc, popped, pushed, src, hb, hp, hf, hq, hsize⟩ := stepCompresses_eq_some_iff.mp h
  obtain ⟨-, rfl, rfl⟩ := budget_ok_iff.mp hb
  exact ⟨popped, pushed, src, ⟨hp, hf⟩, hq, hsize⟩

/-- The ring of `DQ` between commands: `L` flits in flight. -/
theorem inFlight_of_linkInv {p : Params} {pol : Policy} {l : Link} (h : LinkInv p pol l) :
    InFlight (dqSlots p) (flitsInFlight l.dq) l.dq where
  slots := h.slot_length
  ordered := by rw [h.dq_latency]; exact Nat.le_add_right _ _
  flits := rfl
  fits := by rw [length_flitsInFlight, h.dq_latency, Nat.add_sub_cancel_left]; exact Nat.le_add_left _ _

theorem stepBudget_le (hrate : rateAllowed s d) : stepBudget s d ≤ s.params.dqLatency :=
  (budget_ok (budget_of_rateAllowed hrate)).2.1

theorem linkCore_with_acc {p : Params} {pol : Policy} {l : Link} (h : LinkCore p pol l) (acc : BitVec 16) :
    LinkCore p pol { l with acc := acc } := { h with }

/-- The pops of a step raise nothing exactly when the completion lists have room for its deliveries. -/
theorem popPhase_ok_iff_completionRoom (hb : BlockInv s.params s.block) (hrate : rateAllowed s d) :
    (∃ popped, popPhase s.params (stepBudget s d) { linkOf s.block d with acc := stepFraction s d } = .ok popped) ↔
      completionRoom s d := by
  have hq := inFlight_of_linkInv (hb.link d)
  have hk : ((flitsInFlight (linkOf s.block d).dq).take (stepBudget s d)).length = stepBudget s d := by
    refine List.length_take_of_le ?_
    rw [length_flitsInFlight, (hb.link d).dq_latency, Nat.add_sub_cancel_left]
    exact stepBudget_le hrate
  have hcore := linkCore_with_acc (linkInv_iff.mp (hb.link d)).1 (stepFraction s d)
  rw [← List.take_append_drop (stepBudget s d) (flitsInFlight (linkOf s.block d).dq)] at hq
  have hpops := popPhase_ok_iff_deliveryRoom hcore hq
  rw [hk] at hpops
  exact hpops.trans completionRoom_iff_deliveryRoom.symm

/-- The holder of a link between its push and compression phases has slots. -/
theorem entry_ne_nil_of_phases {popped pushed : Link} (hb : BlockInv s.params s.block)
    (h : stepPhases s d popped pushed) : pushed.tsq.entry ≠ [] := by
  have hcore := linkCore_with_acc (linkInv_iff.mp (hb.link d)).1 (stepFraction s d)
  have hlen := ((hcore.after_popPhase h.1).after_pushPhase h.2).entry_length
  obtain ⟨-, -, -, -, hcap⟩ := validConfig_bounds hb.config
  refine List.length_pos_iff.mp ?_
  rw [hlen, tsqSlots]
  omega

/-- Outside a full table or for a stream in it, the payload pending after the push phase can be sized. -/
theorem exists_payloadBits_ok {popped pushed : Link} {src : Nat} {q : Desc} (hrate : rateAllowed s d)
    (hroom : streamRoom s d) (h : stepPhases s d popped pushed)
    (hq : pendingSource s.params (policyOf s.params d) pushed = some (src, q)) :
    ∃ bits m, payloadBits s.params s.block.cat s.mem s.block.streams q = .ok (bits, m) := by
  cases hbits : payloadBits s.params s.block.cat s.mem s.block.streams q with
  | ok r => exact ⟨r.1, r.2, rfl⟩
  | error c =>
    obtain ⟨-, hsize, hget, hfull⟩ := payloadBits_error hbits
    exact absurd (hroom _ q hfull (stepCompresses_of_phases hrate h hq hsize) hget) (lt_irrefl _)

/-- With room for the stream, the compression phase raises nothing; the records it writes are those of R352. -/
theorem exists_compressionPhase_ok {popped pushed : Link} (hb : BlockInv s.params s.block) (hrate : rateAllowed s d)
    (hroom : streamRoom s d) (h : stepPhases s d popped pushed) :
    ∃ held m,
      compressionPhase s.params (policyOf s.params d) s.block.cat s.mem s.block.streams
        { pushed with stats := { pushed.stats with flitsTotal := pushed.stats.flitsTotal + stepBudget s d } } =
          .ok (held, m) ∧
      (∀ src q, pendingSource s.params (policyOf s.params d) pushed = some (src, q) →
        ∀ sid, sid ≠ q.sid → mapGet m sid = mapGet s.block.streams sid) ∧
      ((∀ src q, pendingSource s.params (policyOf s.params d) pushed = some (src, q) → q.size.toNat ≠ blockBytes) →
        m = s.block.streams) := by
  have counted := pendingSource_with_stats s.params (policyOf s.params d) pushed
    { pushed.stats with flitsTotal := pushed.stats.flitsTotal + stepBudget s d }
  cases hpending : pendingSource s.params (policyOf s.params d) pushed with
  | none =>
    exact ⟨_, _, compressionPhase_of_nothing (counted.trans hpending), fun _ _ hq => (nomatch hq),
      fun _ => rfl⟩
  | some served =>
    obtain ⟨src, q⟩ := served
    obtain ⟨bits, m, hbits⟩ := exists_payloadBits_ok hrate hroom h hpending
    obtain ⟨_, -, hphase⟩ := compressionPhase_of_ok (counted.trans hpending) hbits
      (entry_ne_nil_of_phases (pushed := pushed) hb h)
    obtain ⟨others, unchanged⟩ := payloadBits_streams hbits
    refine ⟨_, m, hphase, ?_, fun hne => unchanged (hne src q rfl)⟩
    rintro _ _ ⟨⟩
    exact others

theorem answer_setLink_streams (s : State) (d : Dir) (l : Link) (m : WordMap StreamRecord) (v : Word) :
    { s with block := answer v { setLink s.block d l with streams := m } } =
      withStreams m (withLink d l (returning v s)) := by
  cases d <;> rfl

end Step

/-- Settles O46: the pops find room, a flit slot never raises, and the compression phase finds room for the stream. -/
theorem linkStepCompletes : Obligations.LinkStepCompletes := by
  unfold Obligations.LinkStepCompletes
  intro s d idx hl hinv hrate hcompl hstream
  have hb := hinv.block hl
  have hbudget := budget_of_rateAllowed hrate
  obtain ⟨popped, hpop⟩ := (popPhase_ok_iff_completionRoom hb hrate).mpr hcompl
  obtain ⟨pushed, hpush⟩ := exists_pushPhase_ok s.params (policyOf s.params d) (stepBudget s d) popped
  obtain ⟨held, m, hcomp, hothers, hsame⟩ := exists_compressionPhase_ok hb hrate hstream ⟨hpop, hpush⟩
  have hstep := stepLink_of_phases hbudget hpop hpush hcomp
  obtain ⟨hacc, hnow, htotal, hrp, hwp⟩ := stepLink_counters hstep
  have carried : held.acc = stepFraction s d := by
    refine BitVec.eq_of_toNat_eq ?_
    rw [stepFraction, BitVec.toNat_ofNat]
    simp only [stepBudget] at hacc
    omega
  refine ⟨popped, pushed, held, m, ?_, popPhase_ok_iff.mp hpop, pushPhase_ok_iff.mp hpush, hcomp,
    Nat.succ.inj hnow, carried, htotal, hrp, hwp, fun src q hq _ => hothers src q hq, hsame⟩
  rw [← answer_setLink_streams]
  exact exec_of_rule_ok hl (linkStepRule_of_ok hstep)

/-- Settles O60: pops without room raise; a stream without room has a payload pending after the pops, and sizing it
raises. -/
theorem linkStepFatalErrors : Obligations.LinkStepFatalErrors := by
  unfold Obligations.LinkStepFatalErrors
  intro s d idx hl hinv hrate
  have hb := hinv.block hl
  have hbudget := budget_of_rateAllowed hrate
  refine ⟨fun hfull => ?_, fun _ hfull => ?_⟩
  · cases hpop : popPhase s.params (stepBudget s d) { linkOf s.block d with acc := stepFraction s d } with
    | ok popped => exact absurd ((popPhase_ok_iff_completionRoom hb hrate).mp ⟨popped, hpop⟩) hfull
    | error c =>
      obtain rfl := popPhase_error hpop
      exact exec_of_rule_error hl (linkStepRule_eq_error_iff.mpr (stepLink_of_popPhase_error hbudget hpop))
  · simp only [streamRoom, not_forall, not_lt] at hfull
    obtain ⟨c, q, hmax, hq, hget, hle⟩ := hfull
    obtain ⟨popped, pushed, src, ⟨hpop, hpush⟩, hpending, hsize⟩ := phases_of_stepCompresses hq
    have htable : s.params.maxStreams = some s.block.streams.length := by
      rw [hmax, le_antisymm (hb.streams_le c hmax) hle]
    have hbits := (payloadBits_of_block hsize).trans
      (compressBlock_of_tableFull (cat := s.block.cat) (b := memRead s.mem q.addr 128) hget htable)
    exact exec_of_rule_error hl (linkStepRule_eq_error_iff.mpr (stepLink_of_compressionPhase_error hbudget hpop hpush
      (compressionPhase_of_error ((pendingSource_with_stats ..).trans hpending) hbits)))

end Sys2Proof.Machine
end

/-! # No payload is dropped or delivered twice (R363): every operation of a link keeps the multiset of its payloads, but
for the one admitted and the one delivered to the host -/

section
namespace Sys2Proof.Machine

/-! ## The payloads of a link as a multiset -/

/-- No payload or one, as a multiset. -/
def optionBag (o : Option Desc) : Multiset Desc := o.toList

/-- The payloads waiting in the ready lists of all sources. -/
def readyBag (rs : List ReadyLists) : Multiset Desc := rs.flatMap readyPayloads

/-- The payload the holder keeps. -/
def heldBag (q : TimestampQueue) : Multiset Desc := optionBag ((heldEntry q).map fun e => e.payload)

/-- The payloads whose tail flit is in flight. -/
def flightBag (q : DelayQueue) : Multiset Desc := (flitsInFlight q).filterMap flitDelivers

/-- The payloads on the completion lists. -/
def complBag (qs : List (List Desc)) : Multiset Desc := qs.flatten

/-- The payloads of a link, each as often as the link holds it. -/
def linkBag (l : Link) : Multiset Desc :=
  readyBag l.ready + heldBag l.tsq + optionBag l.cur + flightBag l.dq + complBag l.compl

theorem linkBag_eq_coe (l : Link) : linkBag l = payloadsOf l := by
  simp only [linkBag, readyBag, heldBag, optionBag, flightBag, complBag, payloadsOf, Multiset.coe_add]

@[simp] theorem optionBag_none : optionBag none = 0 := rfl
@[simp] theorem optionBag_some (d : Desc) : optionBag (some d) = {d} := rfl

/-- Changing one list of a list of lists changes its multiset by what that list gains and loses. -/
theorem coe_flatMap_modify {α β : Type} {g : α → List β} {f : α → α} {xs : List α} {i : Nat} {gained lost : Multiset β}
    (hi : i < xs.length) (h : (g (f xs[i]) : Multiset β) + lost = g xs[i] + gained) :
    ((xs.modify i f).flatMap g : Multiset β) + lost = xs.flatMap g + gained := by
  induction xs generalizing i with
  | nil => exact absurd hi (Nat.not_lt_zero i)
  | cons x xs ih =>
    cases i with
    | zero =>
      rw [List.getElem_cons_zero] at h
      rw [List.modify_zero_cons, List.flatMap_cons, List.flatMap_cons, ← Multiset.coe_add, ← Multiset.coe_add,
        add_right_comm, h, add_right_comm]
    | succ i =>
      rw [List.modify_succ_cons, List.flatMap_cons, List.flatMap_cons, ← Multiset.coe_add, ← Multiset.coe_add,
        add_assoc, add_assoc, ih (Nat.lt_of_succ_lt_succ hi) h]

theorem readyBag_modify {l : Link} {s : Nat} {f : ReadyLists → ReadyLists} {gained lost : Multiset Desc}
    (hs : s < l.ready.length)
    (h : (readyPayloads (f (readyOf l s)) : Multiset Desc) + lost = readyPayloads (readyOf l s) + gained) :
    readyBag (l.ready.modify s f) + lost = readyBag l.ready + gained := by
  rw [readyOf, List.getD_eq_getElem _ _ hs] at h
  exact coe_flatMap_modify hs h

theorem complBag_modify {l : Link} {t : Nat} {f : List Desc → List Desc} {gained lost : Multiset Desc}
    (ht : t < l.compl.length) (h : (f (complOf l t) : Multiset Desc) + lost = complOf l t + gained) :
    complBag (l.compl.modify t f) + lost = complBag l.compl + gained := by
  rw [complOf, List.getD_eq_getElem _ _ ht] at h
  rw [complBag, complBag, ← List.flatMap_id, ← List.flatMap_id]
  exact coe_flatMap_modify ht h

theorem flightBag_dqPush {f : Flit} {q : DelayQueue} (h : ringRoom q) :
    flightBag (dqPush f q) = flightBag q + optionBag (flitDelivers f) := by
  rw [flightBag, flightBag, h.flitsInFlight_dqPush, List.filterMap_append, ← Multiset.coe_add]
  cases hf : flitDelivers f <;> simp [hf]

theorem flightBag_dqPop {q : DelayQueue} (hlt : q.rp < q.wp) (hfit : q.wp - q.rp ≤ q.slot.length) :
    flightBag (dqPop q).2 + optionBag (dqPop q).1 = flightBag q := by
  rw [flightBag, flightBag, flitsInFlight_eq_cons hlt hfit, dqPop_fst]
  cases hf : flitDelivers (flitAt q q.rp) with
  | none => rw [List.filterMap_cons_none hf, optionBag_none, add_zero]
  | some d => rw [List.filterMap_cons_some hf, optionBag_some, ← Multiset.cons_coe, ← Multiset.singleton_add, add_comm]

theorem coe_readyPayloads (r : ReadyLists) :
    (readyPayloads r : Multiset Desc) = r.short + r.plain + optionBag (pendingSource.pendingDesc r.long) := by
  simp only [readyPayloads, ← Multiset.coe_add]
  cases r.long <;> rfl

section Phases
variable {p : Params} {pol : Policy} {l l' : Link}

/-! ## The pop phase (R345) -/

theorem popOnce_keeps_bag (h : LinkCore p pol l) (hlt : l.dq.rp < l.dq.wp) (hfit : l.dq.wp ≤ l.dq.rp + dqSlots p)
    (hp : popOnce p l = .ok l') : linkBag l' = linkBag l := by
  have flight := flightBag_dqPop hlt (by rw [h.slot_length]; omega)
  rcases popOnce_ok hp with ⟨hnone, rfl⟩ | ⟨d, hd, -, rfl⟩
  · rw [hnone, optionBag_none, add_zero] at flight
    simp only [linkBag, flight]
  · rw [hd, optionBag_some] at flight
    have hdst : d.dst.toNat < l.compl.length := by
      rw [h.compl_length]
      refine h.flight_dst (flitAt l.dq l.dq.rp) ?_ d hd
      rw [flitsInFlight_eq_cons hlt (by rw [h.slot_length]; omega)]
      exact List.mem_cons_self
    have compl := complBag_modify (f := (· ++ [d])) (gained := {d}) (lost := 0) hdst
      (by rw [← Multiset.coe_add, Multiset.coe_singleton, add_zero])
    rw [add_zero] at compl
    simp only [linkBag, compl, ← flight]
    abel

theorem popPhase_keeps_bag {k : Nat} (h : LinkCore p pol l) (hlt : l.dq.rp + k ≤ l.dq.wp)
    (hfit : l.dq.wp ≤ l.dq.rp + dqSlots p) (hp : popPhase p k l = .ok l') : linkBag l' = linkBag l := by
  induction k generalizing l with
  | zero => obtain rfl := Except.ok.inj hp; rfl
  | succ k ih =>
    unfold popPhase at hp
    split at hp
    · cases hp
    · next n hn =>
      obtain ⟨hrp, hwp, -⟩ := popPhase_counters (popPhase_succ_of_ok hn : popPhase p (0 + 1) l = .ok n)
      rw [ih (h.after_popOnce hn) (by omega) (by omega) hp, popOnce_keeps_bag h (by omega) hfit hn]

/-! ## The push phase (R346 to R351) -/

/-- A payload leaves the link's hands with its tail flit. -/
theorem emitFlit_keeps_bag (hroom : ringRoom l.dq) (hoff : l.off < l.nfl) : linkBag (emitFlit l) = linkBag l := by
  rcases Nat.lt_or_eq_of_le (Nat.succ_le_of_lt hoff) with hmore | hlast
  · rw [emitFlit_of_more hmore]
    simp only [linkBag, flightBag_dqPush hroom, flitDelivers, Bool.false_eq_true, if_false, optionBag_none, add_zero]
  · rw [emitFlit_of_last hlast]
    simp only [linkBag, flightBag_dqPush hroom, flitDelivers, if_true, optionBag_none]
    abel

/-- A payload taken up by an idle link is in progress, or its one flit is in flight. -/
theorem emitFlit_startPacket_bag (d : Desc) (bits : Nat) (hidle : l.cur = none) (hleft : l.left < flitBits)
    (hroom : ringRoom l.dq) : linkBag (emitFlit (startPacket d bits l)) = linkBag l + {d} := by
  rw [emitFlit_keeps_bag (l := startPacket d bits l) hroom (startPacket_nfl_pos d bits hleft)]
  simp only [linkBag, startPacket, hidle, optionBag_none, optionBag_some]
  abel

/-- Sending a payload taken from a ready list keeps it on the link. -/
theorem send_from_ready_keeps_bag {s bits next : Nat} {d : Desc} {f : ReadyLists → ReadyLists} (h : LinkCore p pol l)
    (hidle : l.cur = none) (hroom : ringRoom l.dq) (hs : s < p.nSrc)
    (htaken : (readyPayloads (f (readyOf l s)) : Multiset Desc) + {d} = readyPayloads (readyOf l s)) :
    linkBag (emitFlit (startPacket d bits { modifyReady s f l with rr := next })) = linkBag l := by
  have ready := readyBag_modify (gained := 0) (h.ready_length ▸ hs) (htaken.trans (add_zero _).symm)
  rw [add_zero] at ready
  rw [emitFlit_startPacket_bag d bits (by exact hidle) (by exact h.packet.left_lt) (by exact hroom)]
  simp only [linkBag, modifyReady_ready, modifyReady_tsq, modifyReady_cur, modifyReady_dq, modifyReady_compl, ← ready]
  abel

theorem sendPlain_keeps_bag {s : Nat} {d : Desc} (h : LinkCore p pol l) (hidle : l.cur = none)
    (hroom : ringRoom l.dq) (hs : plainSource p l = some (s, d)) : linkBag (sendPlain p s d l) = linkBag l := by
  obtain ⟨hsrc, rest, hplain⟩ := plainSource_some hs
  refine send_from_ready_keeps_bag h hidle hroom hsrc ?_
  simp only [coe_readyPayloads, hplain, List.drop_succ_cons, List.drop_zero, ← Multiset.cons_coe,
    ← Multiset.singleton_add]
  abel

theorem sendShort_keeps_bag {s : Nat} {d : Desc} (h : LinkCore p pol l) (hidle : l.cur = none)
    (hroom : ringRoom l.dq) (hs : shortSource p l = some (s, d)) : linkBag (sendShort p s d l) = linkBag l := by
  obtain ⟨-, hsrc, rest, hshort⟩ := shortSource_some hs
  refine send_from_ready_keeps_bag h hidle hroom hsrc ?_
  simp only [coe_readyPayloads, hshort, List.drop_succ_cons, List.drop_zero, ← Multiset.cons_coe,
    ← Multiset.singleton_add]
  abel

/-- The source of the payload held has no pending one to lose: its slot is `HELD` (R60 (d)). -/
theorem LinkCore.held_source {e : TsqEntry} (h : LinkCore p pol l) (he : heldEntry l.tsq = some e) :
    e.src < l.ready.length ∧ (readyOf l e.src).long = .held := by
  have hn : l.tsq.n = 1 := by
    have hle := h.holder.holder_le
    have hne : l.tsq.n ≠ 0 := fun h0 => by rw [heldEntry_of_empty h0] at he; cases he
    omega
  obtain ⟨e', he', hlong⟩ := h.holder.holder_entry hn
  obtain rfl : e = e' := Option.some.inj (he.symm.trans he')
  refine ⟨?_, hlong⟩
  by_contra hge
  rw [List.getD_eq_default _ _ (not_lt.mp hge)] at hlong
  cases hlong

theorem sendHeld_keeps_bag {e : TsqEntry} (h : LinkCore p pol l) (hidle : l.cur = none) (hroom : ringRoom l.dq)
    (he : heldEntry l.tsq = some e) (hs : sendHeld e l = .ok l') : linkBag l' = linkBag l := by
  obtain ⟨q, hq, rfl⟩ := sendHeld_ok hs
  obtain ⟨hsrc, hlong⟩ := h.held_source he
  have ready := readyBag_modify (f := fun r => { r with long := .empty }) (gained := 0) (lost := 0) hsrc
    (by simp only [coe_readyPayloads, hlong, pendingSource.pendingDesc])
  have emptied : heldEntry q = none := by
    obtain ⟨-, rfl⟩ := tsqPop_ok hq
    have hle := h.holder.holder_le
    exact heldEntry_of_empty (by simp only; omega)
  rw [add_zero, add_zero] at ready
  rw [emitFlit_startPacket_bag e.payload e.size (by exact hidle) (by exact h.packet.left_lt) (by exact hroom)]
  simp only [linkBag, modifyReady_ready, modifyReady_cur, modifyReady_dq, modifyReady_compl, ready, heldBag, emptied,
    he, Option.map_none, Option.map_some, optionBag_none, optionBag_some]
  abel

theorem pushFiller_keeps_bag (hroom : ringRoom l.dq) : linkBag (pushFiller l) = linkBag l := by
  simp only [linkBag, pushFiller, flightBag_dqPush hroom, fillerFlit_delivers, optionBag_none, add_zero]

theorem fillSlot_keeps_bag (h : LinkCore p pol l) (hroom : ringRoom l.dq) (hf : fillSlot p pol l = .ok l') :
    linkBag l' = linkBag l := by
  rcases fillSlot_ok hf with ⟨hcur, rfl⟩ | ⟨hidle, -, s, d, hs, rfl⟩ | ⟨-, -, -, rfl⟩ | ⟨hidle, -, s, d, hs, rfl⟩ |
    ⟨hidle, -, -, e, htop, hs⟩ | ⟨-, -, -, -, rfl⟩
  · exact emitFlit_keeps_bag hroom (h.packet.busy_off hcur).2
  · exact sendPlain_keeps_bag h hidle hroom hs
  · exact pushFiller_keeps_bag hroom
  · exact sendShort_keeps_bag h hidle hroom hs
  · exact sendHeld_keeps_bag h hidle hroom (heldEntry_of_tsqTop htop) hs
  · exact pushFiller_keeps_bag hroom

theorem pushPhase_keeps_bag {k : Nat} (h : LinkCore p pol l) (hle : l.dq.rp ≤ l.dq.wp)
    (hfit : l.dq.wp + k ≤ l.dq.rp + dqSlots p) (hp : pushPhase p pol k l = .ok l') : linkBag l' = linkBag l := by
  induction k generalizing l with
  | zero => obtain rfl := Except.ok.inj hp; rfl
  | succ k ih =>
    unfold pushPhase at hp
    split at hp
    · cases hp
    · next n hn =>
      obtain ⟨hrp, hwp, -⟩ := fillSlot_counters hn
      have hroom : ringRoom l.dq := ⟨hle, by rw [h.slot_length]; omega⟩
      rw [ih (h.after_fillSlot hn) (by omega) (by omega) hp, fillSlot_keeps_bag h hroom hn]

/-! ## The compression phase (R352) -/

/-- The payload held was pending. -/
theorem compressionPhase_keeps_bag {cat : List CatEntry} {mem : Memory} {m m' : WordMap StreamRecord}
    (h : LinkLists p pol l) (hc : compressionPhase p pol cat mem m l = .ok (l', m')) : linkBag l' = linkBag l := by
  rcases compressionPhase_ok hc with ⟨-, rfl, -⟩ | ⟨s, d, bits, q, hs, -, hq, rfl⟩
  · rfl
  · obtain ⟨-, hn, hsrc, hlong⟩ := pendingSource_some hs
    have hcursors := h.holder.cursors
    have held := heldEntry_tsqPush hn (by omega) hq
    have ready := readyBag_modify (f := fun r => { r with long := .held }) (gained := 0) (lost := {d})
      (h.ready_length ▸ hsrc) (by simp [coe_readyPayloads, hlong, pendingSource.pendingDesc])
    rw [add_zero] at ready
    simp only [linkBag, modifyReady_ready, modifyReady_cur, modifyReady_dq, modifyReady_compl, ← ready, heldBag, held,
      heldEntry_of_empty hn, Option.map_none, Option.map_some, optionBag_none, optionBag_some]
    abel

end Phases

/-! ## The commands that write a link -/

section Commands
variable {p : Params} {pol : Policy} {l l' : Link}

/-- A step: `k` pops make room for `k` pushes. -/
theorem stepLink_keeps_bag {cat : List CatEntry} {mem : Memory} {rate : BitVec 32} {m m' : WordMap StreamRecord}
    {k : Nat} (h : LinkInv p pol l) (hs : stepLink p pol cat mem rate m l = .ok (k, l', m')) :
    linkBag l' = linkBag l := by
  obtain ⟨acc, popped, pushed, held, hb, hpop, hpush, hcomp, rfl⟩ := stepLink_ok hs
  obtain ⟨-, hk, -⟩ := budget_ok hb
  obtain ⟨hcore, -, -, hlatency⟩ := linkInv_iff.mp h
  have started := linkCore_with_acc hcore acc
  have after := started.after_popPhase hpop
  have filled := after.after_pushPhase hpush
  obtain ⟨hrp, hwp, -⟩ := popPhase_counters hpop
  simp only at hrp hwp
  have slots : p.dqLatency ≤ dqSlots p := Nat.le_add_left _ _
  calc linkBag { held with now := held.now + 1 }
      = linkBag held := rfl
    _ = linkBag { pushed with stats := { pushed.stats with flitsTotal := pushed.stats.flitsTotal + k } } :=
        compressionPhase_keeps_bag { filled.toLinkLists with } hcomp
    _ = linkBag pushed := rfl
    _ = linkBag popped := pushPhase_keeps_bag after (by omega) (by omega) hpush
    _ = linkBag { l with acc := acc } := popPhase_keeps_bag started (by simp only; omega) (by simp only; omega) hpop
    _ = linkBag l := rfl

theorem coe_readyPayloads_enqueue {d : Desc} {r : ReadyLists} (h : enqueueRoom p pol d r) :
    (readyPayloads (enqueue pol d r) : Multiset Desc) = readyPayloads r + {d} := by
  obtain ⟨-, hempty, -⟩ := h
  simp only [coe_readyPayloads]
  by_cases hpol : pol = .plain
  · rw [enqueue, if_pos hpol, ← Multiset.coe_add, Multiset.coe_singleton]
    abel
  · cases hclass : isLong d with
    | true =>
      rw [enqueue_long hpol hclass, hempty hpol hclass]
      simp [pendingSource.pendingDesc]
    | false =>
      rw [enqueue_short hpol hclass]
      simp only [← Multiset.coe_add, Multiset.coe_singleton]
      abel

/-- An admission adds its payload. -/
theorem acceptPayload_bag {s : Nat} {d : Desc} (hs : s < l.ready.length) (ha : acceptPayload p pol s d l = .ok l') :
    linkBag l' = linkBag l + {d} := by
  obtain ⟨hroom, rfl⟩ := acceptPayload_ok_enqueue ha
  have ready := readyBag_modify (f := enqueue pol d) (gained := {d}) (lost := 0) hs
    (by rw [add_zero, coe_readyPayloads_enqueue hroom])
  rw [add_zero] at ready
  simp only [linkBag, modifyReady_ready, modifyReady_tsq, modifyReady_cur, modifyReady_dq, modifyReady_compl, ready]
  abel

/-- Taking the head off a completion list takes out that payload. -/
theorem dropCompl_bag {t : Nat} {q : Desc} {rest : List Desc} (h : complOf l t = q :: rest) :
    linkBag { l with compl := l.compl.modify t (List.drop 1) } + {q} = linkBag l := by
  have compl := complBag_modify (f := List.drop 1) (gained := 0) (lost := {q}) (lt_length_of_complOf_eq_cons h) (by
    rw [h, List.drop_one, List.tail_cons, add_zero, ← Multiset.cons_coe, ← Multiset.singleton_add, add_comm])
  rw [add_zero] at compl
  simp only [linkBag, ← compl]
  abel

end Commands

/-! ## The three commands, completed -/

section Completed
variable {s t : State} {d : Dir} {idx : BitVec 16}

theorem linkPushRule_ok {b : Block} (h : linkPushRule d idx s = .ok b) :
    idx.toNat < s.params.nSrc ∧ ∃ l,
      acceptPayload s.params (policyOf s.params d) idx.toNat (decodeDesc s.ports.descIn) (linkOf s.block d) = .ok l ∧
      b = answerNothing (setLink s.block d l) := by
  unfold linkPushRule at h
  split at h
  · cases h
  · next hrange =>
    split at h
    · cases h
    · next l hl => exact ⟨by omega, l, hl, (Except.ok.inj h).symm⟩

theorem linkPopRule_ok {b : Block} (h : linkPopRule d idx s = .ok b) :
    b = answerNothing s.block ∨ ∃ q rest, complOf (linkOf s.block d) idx.toNat = q :: rest ∧
      b = answer 1
        { setLink s.block d
            { linkOf s.block d with compl := (linkOf s.block d).compl.modify idx.toNat (List.drop 1) } with
          descOut := encodeDesc q } := by
  unfold linkPopRule at h
  split at h
  · cases h
  · split at h
    · exact .inl (Except.ok.inj h).symm
    · next q rest hq => exact .inr ⟨q, rest, hq, (Except.ok.inj h).symm⟩

theorem linkPush_adds_payload (hl : live s) (hb : BlockInv s.params s.block) (ht : live t)
    (h : exec (.linkPush d idx) s = .next t) :
    linkBag (linkOf t.block d) = linkBag (linkOf s.block d) + {decodeDesc s.ports.descIn} := by
  obtain ⟨b, hrule, rfl⟩ := ruleOf_of_exec_live hl h ht
  obtain ⟨hidx, l, hl, rfl⟩ := linkPushRule_ok hrule
  rw [linkOf_answerNothing, linkOf_setLink]
  exact acceptPayload_bag (by rw [(hb.link d).ready_length]; exact hidx) hl

theorem linkStep_keeps_payloads (hl : live s) (hb : BlockInv s.params s.block) (ht : live t)
    (h : exec (.linkStep d idx) s = .next t) : linkBag (linkOf t.block d) = linkBag (linkOf s.block d) := by
  obtain ⟨b, hrule, rfl⟩ := ruleOf_of_exec_live hl h ht
  obtain ⟨k, l, m, hstep, rfl⟩ := linkStepRule_ok hrule
  rw [linkOf_answer, linkOf_with_streams, linkOf_setLink]
  exact stepLink_keeps_bag (hb.link d) hstep

/-- A pop delivers a payload and takes it out, or finds nothing and leaves the link. -/
theorem linkPop_takes_payload (hl : live s) (ht : live t) (h : exec (.linkPop d idx) s = .next t) :
    (t.block.status.resValid = false ∧ linkOf t.block d = linkOf s.block d) ∨
      (t.block.status.resValid = true ∧ ∃ q, t.block.descOut = encodeDesc q ∧
        linkBag (linkOf t.block d) + {q} = linkBag (linkOf s.block d)) := by
  obtain ⟨b, hrule, rfl⟩ := ruleOf_of_exec_live hl h ht
  rcases linkPopRule_ok hrule with rfl | ⟨q, rest, hq, rfl⟩
  · exact .inl ⟨rfl, linkOf_answerNothing _ _⟩
  · refine .inr ⟨rfl, q, rfl, ?_⟩
    rw [linkOf_answer, linkOf_with_descOut, linkOf_setLink]
    exact dropCompl_bag hq

end Completed

theorem perm_cons_of_linkBag {l l' : Link} {q : Desc} (h : linkBag l' = linkBag l + {q}) :
    (payloadsOf l').Perm (q :: payloadsOf l) := by
  rw [← Multiset.coe_eq_coe, ← Multiset.cons_coe, ← Multiset.singleton_add, add_comm, ← linkBag_eq_coe,
    ← linkBag_eq_coe]
  exact h

/-- Settles O54: a permutation is an equality of multisets, and each phase of each command keeps the link's. -/
theorem noPayloadIsDropped : Obligations.NoPayloadIsDropped := by
  unfold Obligations.NoPayloadIsDropped
  intro s t d idx hl hinv ht
  have hb := hinv.block hl
  refine ⟨fun h => perm_cons_of_linkBag (linkPush_adds_payload hl hb ht h), fun h => ?_, fun h => ?_⟩
  · rw [← Multiset.coe_eq_coe, ← linkBag_eq_coe, ← linkBag_eq_coe]
    exact linkStep_keeps_payloads hl hb ht h
  · rcases linkPop_takes_payload hl ht h with ⟨hres, hsame⟩ | ⟨hres, q, hdesc, hbag⟩
    · exact ⟨fun hvalid => absurd hvalid (by simp [hres]), fun _ => hsame⟩
    · exact ⟨fun _ => ⟨q, hdesc, perm_cons_of_linkBag hbag.symm⟩, fun hnone => absurd hnone (by simp [hres])⟩

end Sys2Proof.Machine
end

/-! # One step of the machine: the host's next action, which always completes (R56, R422, R423), and `NOP` (R420) -/

section
namespace Sys2Proof.Machine

/-! ## What a step does, by what the host's coming actions are -/

theorem step_of_inbox_nil {s : State} (h : s.inbox = []) : step s = .next s := by rw [step, h]

theorem step_of_inbox_cons {s : State} {e : HostEvent} {rest : List HostEvent} (h : s.inbox = e :: rest) :
    step s = hostAction e { s with inbox := rest } := by rw [step, h]

/-- Settles O8: the host's action `command` is `runCommand` with the ports driven, and `runCommand` is `exec` on a
legal word. -/
theorem stepRunsTheDecodedCommand : Obligations.StepRunsTheDecodedCommand := by
  unfold Obligations.StepRunsTheDecodedCommand
  intro s p rest hinbox
  have hstep : step s = runCommand { s with ports := p, inbox := rest } := step_of_inbox_cons hinbox
  exact ⟨hstep, fun i hi => hstep.trans (runCommand_of_decode hi)⟩

/-! ## Every action of the host completes (R423) -/

/-- An issued word answers a next state, whether it is refused, completes or raises a cause. -/
theorem exists_issue_eq_next (w : CmdWord) (r : Except Cause Block) (s : State) : ∃ t, issue w r s = .next t := by
  cases hf : s.block.status.fatal with
  | true => exact ⟨s, issue_fatal hf⟩
  | false =>
    cases r with
    | ok b => exact ⟨_, issue_ok hf⟩
    | error c => exact ⟨_, issue_error hf⟩

theorem exists_runCommand_eq_next (s : State) : ∃ t, runCommand s = .next t := by
  cases hd : decode s.ports.cmd with
  | ok i =>
    rw [runCommand_of_decode hd, exec_eq_issue]
    exact exists_issue_eq_next ..
  | error e =>
    rw [runCommand, hd]
    exact exists_issue_eq_next ..

theorem exists_hostAction_eq_next (e : HostEvent) (s : State) : ∃ t, hostAction e s = .next t := by
  cases e with
  | command p => exact exists_runCommand_eq_next (presentPorts p s)
  | reset p => exact ⟨_, rfl⟩
  | memWrite addr byte => exact ⟨_, rfl⟩

/-- Settles O10: an idle step stays where it is, and each action of the host completes. -/
theorem everyStepCompletes : Obligations.EveryStepCompletes := by
  unfold Obligations.EveryStepCompletes
  intro s
  cases hinbox : s.inbox with
  | nil => exact ⟨s, step_of_inbox_nil hinbox⟩
  | cons e rest =>
    rw [step_of_inbox_cons hinbox]
    exact exists_hostAction_eq_next ..

/-! ## `NOP` (R420) -/

/-- `NOP`'s opcode has no direction: with `DIR` or a bit of `RSV` set its word is illegal (R144). -/
theorem decode_error_of_nop_opcode {w : CmdWord} (hopc : w.toNat / 2 ^ 24 = 0)
    (hbits : w.toNat / 2 ^ 16 % 2 ^ 8 ≠ 0) : ∃ e, decode w = .error e := by
  rw [decode_error_iff, exists_formOf_withDir_iff, opcField_toNat, hopc, Ne, rsvField_eq_zero_iff,
    dirField_eq_true_iff]
  by_cases hrsv : w.toNat / 2 ^ 16 % 2 ^ 7 = 0
  · have hdir : w.toNat / 2 ^ 23 % 2 = 1 := by omega
    exact .inr (.inr ⟨hdir, by decide⟩)
  · exact .inr (.inl hrsv)

/-- Settles O15: `NOP`'s rule gives the block with its result cleared, so in a live state nothing else changes; a word
of its opcode with another bit above `IDX` set is illegal. -/
theorem nopClearsTheResult : Obligations.NopClearsTheResult := by
  unfold Obligations.NopClearsTheResult
  intro s idx
  have hrule : ruleOf (.nop idx) s = .ok (answerNothing s.block) := rfl
  refine ⟨encode_eq_commandWord _, fun hl => exec_of_rule_ok hl hrule, exec_fatal, fun hl hopc hbits => ?_⟩
  obtain ⟨e, he⟩ := decode_error_of_nop_opcode hopc hbits
  exact runCommand_of_illegal hl he

end Sys2Proof.Machine
end

/-! # The fatal state and the causes: it refuses every command, only a reset leaves it, an error writes `STATUS` and
`FATAL_CMD` alone, and a command raises a cause of its row (R430, R432 to R434) -/

section
namespace Sys2Proof.Machine

/-! ## The fatal state refuses (R434) -/

section Fatal
variable {s t : State}

theorem runCommand_fatal (hf : s.block.status.fatal = true) : runCommand s = .next s := by
  cases hd : decode s.ports.cmd with
  | ok i => rw [runCommand_of_decode hd, exec_fatal hf]
  | error e =>
    rw [runCommand, hd]
    exact issue_fatal hf

/-- Of the host's actions, a reset alone leads from the fatal state to a live one. -/
theorem hostAction_leaves_fatal {e : HostEvent} (hf : s.block.status.fatal = true) (h : hostAction e s = .next t)
    (ht : live t) : ∃ p, e = .reset p := by
  cases e with
  | reset p => exact ⟨p, rfl⟩
  | command p =>
    have refused : hostAction (.command p) s = .next (presentPorts p s) := runCommand_fatal hf
    cases refused.symm.trans h
    exact absurd (hf.symm.trans ht) (by decide)
  | memWrite addr byte =>
    cases h
    exact absurd (hf.symm.trans ht) (by decide)

end Fatal

/-- Settles O11: the word a command presents is refused as it is issued, and neither the idle step, a command nor a
memory write leaves the fatal state. -/
theorem fatalStateRefusesCommands : Obligations.FatalStateRefusesCommands := by
  unfold Obligations.FatalStateRefusesCommands
  intro s hf
  refine ⟨fun p rest hinbox => ?_, fun t hstep ht => ?_⟩
  · rw [step_of_inbox_cons hinbox]
    exact runCommand_fatal (s := { s with ports := p, inbox := rest }) hf
  · cases hinbox : s.inbox with
    | nil =>
      cases (step_of_inbox_nil hinbox).symm.trans hstep
      exact absurd (hf.symm.trans ht) (by decide)
    | cons e rest =>
      rw [step_of_inbox_cons hinbox] at hstep
      obtain ⟨p, rfl⟩ := hostAction_leaves_fatal (s := { s with inbox := rest }) hf hstep ht
      exact ⟨p, rest, rfl⟩

/-! ## A fatal error is precise (R430, R433) -/

section Precise
variable {i : Instr} {s t : State}

/-- A rule that raises nothing leaves `FATAL` as it is. -/
theorem ruleOf_ok_fatal {b : Block} (h : ruleOf i s = .ok b) : b.status.fatal = s.block.status.fatal := by
  obtain ⟨b', hw, hr⟩ := ruleOf_ok h
  rw [← hw.status]
  rcases hr with rfl | ⟨v, rfl⟩ <;> rfl

/-- A live command goes on live, or leaves the state it started in with the cause its rule raised. -/
theorem exec_live_or_raised (hl : live s) (h : exec i s = .next t) :
    live t ∨ ∃ c, ruleOf i s = .error c ∧ t = raised c (encode i) s := by
  rcases exec_live_cases hl h with ⟨b, hb, rfl⟩ | raises
  · exact .inl ((ruleOf_ok_fatal hb).trans hl)
  · exact .inr raises

end Precise

/-- Settles O12: an illegal word raises `ILLEGAL_COMMAND`; a legal word is the encoding of its command, whose rule
completes or raises a cause. -/
theorem fatalErrorsArePrecise : Obligations.FatalErrorsArePrecise := by
  unfold Obligations.FatalErrorsArePrecise
  intro s t hl h
  cases hd : decode s.ports.cmd with
  | error e =>
    rw [runCommand_of_illegal hl hd] at h
    exact .inr ⟨.illegalCommand, by decide, (Host.Outcome.next.inj h).symm⟩
  | ok i =>
    rw [runCommand_of_decode hd] at h
    rcases exec_live_or_raised hl h with ht | ⟨c, hc, ht⟩
    · exact .inl ht
    · rw [encode_of_decode hd] at ht
      exact .inr ⟨c, ruleOf_error_ne_none hc, ht⟩

/-! ## Each command's causes (R432) -/

section Causes
variable {s : State} {d : Dir}

/-- The phase that raised the error of a step: the budget, a pop, or the compression after the push phase (R343). -/
theorem stepLink_error_cases {p : Params} {pol : Policy} {cat : List CatEntry} {mem : Memory} {rate : BitVec 32}
    {m : WordMap StreamRecord} {l : Link} {c : Cause} (h : stepLink p pol cat mem rate m l = .error c) :
    budget p l.acc rate = .error c ∨
      ∃ k acc, budget p l.acc rate = .ok (k, acc) ∧
        (popPhase p k { l with acc := acc } = .error c ∨
          ∃ popped pushed, popPhase p k { l with acc := acc } = .ok popped ∧ pushPhase p pol k popped = .ok pushed ∧
            compressionPhase p pol cat mem m
              { pushed with stats := { pushed.stats with flitsTotal := pushed.stats.flitsTotal + k } } = .error c) := by
  cases hb : budget p l.acc rate with
  | error c' =>
    rw [stepLink_of_budget_error hb] at h
    cases h
    exact .inl rfl
  | ok r =>
    obtain ⟨k, acc⟩ := r
    refine .inr ⟨k, acc, rfl, ?_⟩
    cases hp : popPhase p k { l with acc := acc } with
    | error c' =>
      rw [stepLink_of_popPhase_error hb hp] at h
      cases h
      exact .inl rfl
    | ok popped =>
      obtain ⟨pushed, hf⟩ := exists_pushPhase_ok p pol k popped
      refine .inr ⟨popped, pushed, rfl, hf, ?_⟩
      cases hc : compressionPhase p pol cat mem m
          { pushed with stats := { pushed.stats with flitsTotal := pushed.stats.flitsTotal + k } } with
      | error c' =>
        rw [stepLink_of_compressionPhase_error hb hp hf hc] at h
        cases h
        rfl
      | ok held =>
        rw [stepLink_of_phases hb hp hf hc] at h
        cases h

/-- With the invariants a step never finds the holder full: the compression phase pushes only into an empty one, and
the holder has slots. -/
theorem linkStepRule_ne_tsqFull (hb : BlockInv s.params s.block) : linkStepRule d s ≠ .error .tsqFull := by
  rw [Ne, linkStepRule_eq_error_iff]
  intro h
  rcases stepLink_error_cases h with hbudget | ⟨k, acc, hbudget, hpop | ⟨popped, pushed, hpop, hpush, hcomp⟩⟩
  · exact nomatch (budget_error hbudget).1
  · exact nomatch popPhase_error hpop
  · obtain ⟨-, rfl, rfl⟩ := budget_ok_iff.mp hbudget
    obtain ⟨-, -, -, ⟨hcause, -⟩ | ⟨-, hslots⟩⟩ := compressionPhase_error hcomp
    · cases hcause
    · exact entry_ne_nil_of_phases (pushed := pushed) hb ⟨hpop, hpush⟩ (List.length_eq_zero_iff.mp hslots)

/-- With the invariants a rule raises a cause of the command's row of R432 and no other. -/
theorem ruleOf_error_mem_causesOf {i : Instr} {c : Cause} (hb : BlockInv s.params s.block)
    (h : ruleOf i s = .error c) : c ∈ causesOf i := by
  rcases ruleOf_error h with hrow | ⟨rfl, d, idx, rfl⟩
  · exact hrow
  · exact absurd h (linkStepRule_ne_tsqFull hb)

end Causes

/-- Settles O13: the cause a command ends with is the one its rule raised. -/
theorem commandsRaiseOnlyTheirCauses : Obligations.CommandsRaiseOnlyTheirCauses := by
  unfold Obligations.CommandsRaiseOnlyTheirCauses
  intro i s t hl h hf
  rcases exec_live_or_raised hl h with ht | ⟨c, hc, rfl⟩
  · exact absurd (hf.symm.trans ht) (by decide)
  · exact ⟨ruleOf_error hc, fun hinv => ruleOf_error_mem_causesOf (hinv.block hl) hc⟩

end Sys2Proof.Machine
end

/-! # Reset (R470 to R473): the conditions of `valid_config`, the block a reset leaves, and the host's other actions -/

section
namespace Sys2Proof.Machine

/-! ## The host's actions other than a command (R107, R470) -/

/-- Settles O9: by the laws of a memory write, a read of the same address and a read of another. -/
theorem hostActionsTakeEffect : Obligations.HostActionsTakeEffect := by
  unfold Obligations.HostActionsTakeEffect
  intro s
  refine ⟨step_of_inbox_nil, fun p rest hinbox => step_of_inbox_cons hinbox, fun a b rest hinbox => ?_⟩
  refine ⟨writeByte s.mem a.toNat b, step_of_inbox_cons hinbox, fun ⟨hsorted, _⟩ => ?_, fun other hne => ?_⟩
  · exact readByte_writeByte_same hsorted a.toNat b
  · exact readByte_writeByte_other b hne

/-! ## The conditions of `valid_config` (R471) -/

theorem capacityValid_iff {c : Option Nat} : capacityValid c = true ↔ c ≠ some 0 := by
  cases c with
  | none => simp [capacityValid]
  | some n => simp [capacityValid, Nat.one_le_iff_ne_zero]

/-- An entry of `PRED_LIST` is checked for its size and, where it is a sign extension, for its boundary (R471). -/
theorem predEntryValid_iff {p : Params} {e : PredEntry} :
    predEntryValid p e = true ↔
      1 ≤ e.dataSize ∧ e.dataSize ≤ 65535 - 3 * historyBits p ∧ ∀ k, e.pred = .signExt k → k ∈ p.seWidths := by
  have hsize : 1 ≤ e.dataSize ∧ e.dataSize + 3 * historyBits p ≤ 65535 ↔
      1 ≤ e.dataSize ∧ e.dataSize ≤ 65535 - 3 * historyBits p := by omega
  rw [← and_assoc, ← hsize]
  cases hpred : e.pred <;> simp [predEntryValid, hpred]

/-- Settles O55: each condition is a conjunct of `validConfig`, in the order of R471. -/
theorem validConfigConditions : Obligations.ValidConfigConditions := by
  unfold Obligations.ValidConfigConditions
  intro p
  simp only [validConfig, Bool.and_eq_true, decide_eq_true_eq, beq_iff_eq, List.all_eq_true, predEntryValid_iff,
    capacityValid_iff, and_assoc]
  exact Iff.rfl

/-! ## What a reset leaves (R470, R472, R473) -/

/-- Each pattern stands in the catalog beside the level 0 pattern of its predicate, so the check of R217 passes for
every parameter set. -/
theorem basePatternsPresent_buildCatalog (p : Params) : basePatternsPresent (buildCatalog p) = true := by
  simp only [basePatternsPresent, List.all_eq_true, List.any_eq_true, Bool.or_eq_true, Bool.and_eq_true,
    decide_eq_true_eq]
  intro e he
  obtain ⟨q, pe, L, hq, -, rfl⟩ := mem_buildCatalog.mp he
  have base : patternOf p q pe 0 ∈ buildCatalog p := mem_buildCatalog.mpr ⟨q, pe, 0, hq, Nat.zero_le 3, rfl⟩
  exact .inr ⟨_, base, rfl, rfl⟩

theorem resetBlock_of_valid {p : Params} (h : validConfig p = true) :
    resetBlock p = { blockCleared p with cat := buildCatalog p } := by
  rw [resetBlock, if_pos h, if_pos (basePatternsPresent_buildCatalog p)]

theorem resetBlock_of_invalid {p : Params} (h : validConfig p = false) :
    resetBlock p = { blockCleared p with status := statusFatal .badConfig } := by
  rw [resetBlock, if_neg (by simp [h])]

/-- A valid reset leaves both links at their reset values. -/
theorem linkOf_resetBlock {p : Params} (h : validConfig p = true) (d : Dir) :
    linkOf (resetBlock p) d = linkInit p := by
  rw [resetBlock_of_valid h]
  cases d <;> rfl

/-- The ready lists, the holder and the completion lists start empty, and the flits in flight are fillers, which
deliver nothing (R300). -/
theorem payloadsOf_linkInit (p : Params) : payloadsOf (linkInit p) = [] := by
  have ready : (linkInit p).ready.flatMap readyPayloads = [] :=
    List.flatMap_eq_nil_iff.mpr fun r hr => by rw [List.eq_of_mem_replicate hr]; rfl
  have held : heldEntry (linkInit p).tsq = none := heldEntry_tsqInit p
  have flight : (flitsInFlight (linkInit p).dq).filterMap flitDelivers = [] :=
    List.filterMap_eq_nil_iff.mpr fun f hf => by rw [flitsInFlight_dqInit hf, fillerFlit_delivers]
  have compl : (linkInit p).compl.flatten = [] := List.flatten_replicate_nil
  rw [payloadsOf, ready, held, flight, compl]
  rfl

theorem statusWord_statusReset : statusWord statusReset = 0 := by decide

theorem statusWord_badConfig : statusWord (statusFatal .badConfig) = 0x00000D01 := by decide

/-- Settles O56: a valid reset is the cleared block with the catalog, an invalid one the cleared block with the fatal
`STATUS`. -/
theorem resetLeavesTheInitialBlock : Obligations.ResetLeavesTheInitialBlock := by
  unfold Obligations.ResetLeavesTheInitialBlock
  refine ⟨fun p hp => ?_, fun p hp => ⟨basePatternsPresent_buildCatalog p, ?_⟩⟩
  · rw [resetBlock_of_invalid hp]
    exact ⟨rfl, statusWord_badConfig, rfl, rfl⟩
  · simp only [linkOf_resetBlock hp]
    rw [resetBlock_of_valid hp]
    refine ⟨statusWord_statusReset, rfl, rfl, rfl, rfl, rfl, fun d => ?_⟩
    have sources (s : Nat) (hs : s < p.nSrc) : (linkInit p).ready[s]? = some readyInit :=
      List.getElem?_replicate_of_lt hs
    have destinations (t : Nat) (ht : t < p.nDst) : (linkInit p).compl[t]? = some [] :=
      List.getElem?_replicate_of_lt ht
    exact ⟨rfl, rfl, rfl, rfl, rfl, rfl, rfl, rfl, payloadsOf_linkInit p, sources, destinations, rfl, rfl,
      (inFlight_dqInit p).flits, rfl, rfl, rfl, rfl⟩

/-! ## The reset state (R8, R205, R473) -/

theorem validConfig_defaultParams : validConfig defaultParams = true := by decide

theorem reset_params : State.reset.params = defaultParams := rfl

theorem reset_block : State.reset.block = { blockCleared defaultParams with cat := buildCatalog defaultParams } :=
  resetBlock_of_valid validConfig_defaultParams

/-- Settles O57: the defaults are valid, so the block is the one a valid reset leaves for them. -/
theorem resetStateIsTheDefaultBlock : Obligations.ResetStateIsTheDefaultBlock := by
  unfold Obligations.ResetStateIsTheDefaultBlock
  refine ⟨rfl, rfl, validConfig_defaultParams, ?_, ?_, rfl, rfl, rfl⟩
  · rw [reset_params, reset_block, resetBlock_of_valid validConfig_defaultParams]
  · rw [live, reset_block]
    rfl

end Sys2Proof.Machine
end
